-- ==== Sys2Proof/Word.lean ====
section
/-! DEFINITION. The word types of the instruction format (30_encoding.md rules R59–R61). -/

namespace Sys2Proof

/-- An instruction word: every instruction is one 32-bit word (R59). -/
abbrev Word := BitVec 32

/-- A 5-bit register index field, read as an unsigned index (R60, R61, R63, R64). -/
abbrev RegIdx := BitVec 5

/-- The 16-bit offset field of the M format, an unsigned 16-bit natural (R64, R65). -/
abbrev Offset := BitVec 16

end Sys2Proof
end

