-- ==== Sys2Proof/Syntax.lean ====
section
/-! DEFINITION. The instructions as data: one constructor of `Instr` for each row of spec/opcode_table.json
(30_encoding.md rules R59–R64), and the operations and pools they name (10_state.md rule R21). -/

namespace Sys2Proof

/-- The four operators a result term can record (R24, R62). -/
inductive ArithOp where
  | add
  | sub
  | mul
  | div
  deriving DecidableEq, Repr

/-- The six operation kinds (R62): "operation kind (one of ADD, SUB, MUL, DIV, LOAD, STORE)". -/
inductive Op where
  | arith (o : ArithOp)
  | load
  | store
  deriving DecidableEq, Repr

/-- The four pools (R21): `Add`, `Mult`, `Load` and `Store`. -/
inductive Pool where
  | add
  | mult
  | load
  | store
  deriving DecidableEq, Repr

/-- The base of a symbolic address: the literal zero or a base-address register, which is a name and
not state (R24, R28, R64). -/
inductive Base where
  | zero
  | reg (j : RegIdx)
  deriving DecidableEq, Repr

/-- The six instructions. An arithmetic instruction carries `rd`, `rs1`, `rs2` (R60, R63); a memory
instruction carries `rt`, `off` and its base (R61, R64). -/
inductive Instr where
  | add (rd rs1 rs2 : RegIdx)
  | sub (rd rs1 rs2 : RegIdx)
  | mul (rd rs1 rs2 : RegIdx)
  | div (rd rs1 rs2 : RegIdx)
  | load (rt : RegIdx) (off : Offset) (base : Base)
  | store (rt : RegIdx) (off : Offset) (base : Base)
  deriving DecidableEq, Repr

end Sys2Proof
end

