-- ==== Sys2Proof/Config.lean ====
section
/-! DEFINITION. The implementation parameters, fixed at elaboration (00_scope.md rules R9, R11). The
model takes every one as an argument. The spec has no free value, so no opaque constant stands here. -/

namespace Sys2Proof

/-- The parameters of R9. -/
structure Config where
  /-- `N_ADD`, slots in the add/sub pool. -/
  nAdd : Nat
  /-- `N_MULT`, slots in the multiply/divide pool. -/
  nMult : Nat
  /-- `N_LOAD`, slots in the load queue. -/
  nLoad : Nat
  /-- `N_STORE`, slots in the store queue. -/
  nStore : Nat
  /-- `LAT_ADD`. -/
  latAdd : Nat
  /-- `LAT_SUB`. -/
  latSub : Nat
  /-- `LAT_MUL`. -/
  latMul : Nat
  /-- `LAT_DIV`. -/
  latDiv : Nat
  /-- `LAT_LOAD`. -/
  latLoad : Nat
  /-- `LAT_STORE`. -/
  latStore : Nat
  /-- `NREG`, the number of floating-point registers. -/
  nReg : Nat
  /-- `NBASE`, the number of base-address register names. -/
  nBase : Nat
  /-- `PROG_MAX`, the largest program length the block accepts. -/
  progMax : Nat
  /-- `PC_W`, the width of `pc` and of `vidx`. -/
  pcW : Nat
  /-- `CYC_W`, the width of the cycle counter and of every stamp. -/
  cycW : Nat
  /-- `LAT_W`, the width of a slot's countdown. -/
  latW : Nat
  deriving DecidableEq, Repr

/-- A configuration is well formed when every parameter lies in the range of R9 (R11). -/
def Config.wf (c : Config) : Bool :=
  decide (
    (1 ≤ c.pcW ∧ c.pcW ≤ 16) ∧ (2 ≤ c.cycW ∧ c.cycW ≤ 32) ∧ (1 ≤ c.latW ∧ c.latW ≤ 16) ∧
    (1 ≤ c.nAdd ∧ c.nAdd ≤ 16) ∧ (1 ≤ c.nMult ∧ c.nMult ≤ 16) ∧
    (1 ≤ c.nLoad ∧ c.nLoad ≤ 16) ∧ (1 ≤ c.nStore ∧ c.nStore ≤ 16) ∧
    (1 ≤ c.nReg ∧ c.nReg ≤ 32) ∧ (1 ≤ c.nBase ∧ c.nBase ≤ 32) ∧
    c.progMax ≤ 2 ^ c.pcW - 1 ∧
    c.latAdd ≤ 2 ^ c.latW - 1 ∧ c.latSub ≤ 2 ^ c.latW - 1 ∧
    c.latMul ≤ 2 ^ c.latW - 1 ∧ c.latDiv ≤ 2 ^ c.latW - 1 ∧
    c.latLoad ≤ 2 ^ c.latW - 1 ∧ c.latStore ≤ 2 ^ c.latW - 1)

/-- The example configuration E of 95_test_vectors.md §0. It is an input of the examples and no
default of the spec; `State.reset` takes it. DESIGN CHOICE, log entry 2. Unsafe for a claim that leans
on one of its numbers; statements quantify over every configuration instead. -/
def Config.exampleE : Config where
  nAdd := 3
  nMult := 2
  nLoad := 3
  nStore := 3
  latAdd := 2
  latSub := 2
  latMul := 10
  latDiv := 40
  latLoad := 2
  latStore := 2
  nReg := 32
  nBase := 32
  progMax := 255
  pcW := 8
  cycW := 16
  latW := 8

end Sys2Proof
end

