-- ==== Sys2Proof/WellFormed.lean ====
section
/-! DEFINITION. Which instructions are well formed under a configuration: every register index below
`NREG` and every base register below `NBASE` (30_encoding.md rule R67). -/

namespace Sys2Proof

/-- A base is in range when it is the literal zero or names a base register below `NBASE` (R67). -/
def Base.wf (c : Config) : Base → Bool
  | .zero => true
  | .reg j => decide (j.toNat < c.nBase)

/-- A register index is in range when it is below `NREG` (R67). -/
def regInRange (c : Config) (r : RegIdx) : Bool := decide (r.toNat < c.nReg)

/-- An instruction is well formed when it has no operand out of range (R67). -/
def Instr.wf (c : Config) : Instr → Bool
  | .add rd rs1 rs2 => regInRange c rd && regInRange c rs1 && regInRange c rs2
  | .sub rd rs1 rs2 => regInRange c rd && regInRange c rs1 && regInRange c rs2
  | .mul rd rs1 rs2 => regInRange c rd && regInRange c rs1 && regInRange c rs2
  | .div rd rs1 rs2 => regInRange c rd && regInRange c rs1 && regInRange c rs2
  | .load rt _ base => regInRange c rt && base.wf c
  | .store rt _ base => regInRange c rt && base.wf c

end Sys2Proof
end

