-- ==== Sys2Proof/Decode.lean ====
section
/-! DEFINITION. The decoder, total on every 32-bit word and rejecting by name (30_encoding.md rules
R59–R70), the encoder written from the same field tables, and the text form of the spec's examples
(R71). -/

namespace Sys2Proof

/-- The two errors a word can have (R66, R67). -/
inductive DecodeError where
  | parseError
  | invalidOperandError
  deriving DecidableEq, Repr

/-- What the decoder answers for a word (R70): `Ok(instr)` or `Err(e)`. -/
inductive DecodeResult where
  | ok (i : Instr)
  | err (e : DecodeError)
  deriving DecidableEq, Repr

/-! ### Fields (R60, R61) -/

/-- `op = w[31:29]`. -/
def fieldOp (w : Word) : BitVec 3 := w.extractLsb' 29 3

/-- `rd` of the R format and `rt` of the M format, `w[28:24]`. -/
def fieldRd (w : Word) : RegIdx := w.extractLsb' 24 5

/-- `rs1 = w[23:19]`. -/
def fieldRs1 (w : Word) : RegIdx := w.extractLsb' 19 5

/-- `rs2 = w[18:14]`. -/
def fieldRs2 (w : Word) : RegIdx := w.extractLsb' 14 5

/-- The reserved field of the R format, `w[13:0]`. -/
def fieldZR (w : Word) : BitVec 14 := w.extractLsb' 0 14

/-- `bz = w[23]`. -/
def fieldBz (w : Word) : BitVec 1 := w.extractLsb' 23 1

/-- `rb = w[22:18]`. -/
def fieldRb (w : Word) : RegIdx := w.extractLsb' 18 5

/-- The reserved field of the M format, `w[17:16]`. -/
def fieldZM (w : Word) : BitVec 2 := w.extractLsb' 16 2

/-- `off = w[15:0]`. -/
def fieldOff (w : Word) : Offset := w.extractLsb' 0 16

/-! ### The decoder -/

/-- The arithmetic instruction with operator `o` (R62). -/
def ArithOp.instr (o : ArithOp) (rd rs1 rs2 : RegIdx) : Instr :=
  match o with
  | .add => .add rd rs1 rs2
  | .sub => .sub rd rs1 rs2
  | .mul => .mul rd rs1 rs2
  | .div => .div rd rs1 rs2

/-- The R-format half of R70. -/
def decodeR (c : Config) (o : ArithOp) (w : Word) : DecodeResult :=
  if fieldZR w ≠ 0 then .err .parseError
  else if (fieldRd w).toNat ≥ c.nReg ∨ (fieldRs1 w).toNat ≥ c.nReg ∨ (fieldRs2 w).toNat ≥ c.nReg then
    .err .invalidOperandError
  else .ok (o.instr (fieldRd w) (fieldRs1 w) (fieldRs2 w))

/-- The M-format half of R70; `mk` is the instruction that `op` names. -/
def decodeM (c : Config) (mk : RegIdx → Offset → Base → Instr) (w : Word) : DecodeResult :=
  if fieldZM w ≠ 0 then .err .parseError
  else if fieldBz w = 1 ∧ fieldRb w ≠ 0 then .err .parseError
  else if (fieldRd w).toNat ≥ c.nReg then .err .invalidOperandError
  else if fieldBz w = 0 ∧ (fieldRb w).toNat ≥ c.nBase then .err .invalidOperandError
  else .ok (mk (fieldRd w) (fieldOff w) (if fieldBz w = 1 then .zero else .reg (fieldRb w)))

/-- `decode(w)` of R70: total, malformed words before operands out of range (R68). -/
def decode (c : Config) (w : Word) : DecodeResult :=
  match (fieldOp w).toNat with
  | 0 => decodeR c .add w
  | 1 => decodeR c .sub w
  | 2 => decodeR c .mul w
  | 3 => decodeR c .div w
  | 4 => decodeM c .load w
  | 5 => decodeM c .store w
  | _ => .err .parseError

/-! ### The encoder -/

/-- The operation field of an operator (R62). -/
def ArithOp.code : ArithOp → BitVec 3
  | .add => 0b000
  | .sub => 0b001
  | .mul => 0b010
  | .div => 0b011

/-- The operation field of an operation (R62). -/
def Op.code : Op → BitVec 3
  | .arith o => o.code
  | .load => 0b100
  | .store => 0b101

/-- `bz` and `rb` of a base, `w[23:18]` (R61, R64). -/
def Base.code : Base → BitVec 6
  | .zero => 1#1 ++ 0#5
  | .reg j => 0#1 ++ j

/-- The R format (R60): `op`, `rd`, `rs1`, `rs2` and fourteen zeros, most significant first. -/
def encodeR (o : ArithOp) (rd rs1 rs2 : RegIdx) : Word :=
  o.code ++ rd ++ rs1 ++ rs2 ++ 0#14

/-- The M format (R61): `op`, `rt`, `bz` with `rb`, two zeros and `off`, most significant first. -/
def encodeM (o : Op) (rt : RegIdx) (off : Offset) (base : Base) : Word :=
  o.code ++ rt ++ base.code ++ 0#2 ++ off

/-- The word of an instruction (R60, R61, R62). -/
def encode : Instr → Word
  | .add rd rs1 rs2 => encodeR .add rd rs1 rs2
  | .sub rd rs1 rs2 => encodeR .sub rd rs1 rs2
  | .mul rd rs1 rs2 => encodeR .mul rd rs1 rs2
  | .div rd rs1 rs2 => encodeR .div rd rs1 rs2
  | .load rt off base => encodeM .load rt off base
  | .store rt off base => encodeM .store rt off base

/-! ### The host's reading of an opcode-table row -/

/-- The instruction the decoder reads from a word given as the opcode table numbers its bits: bit 0 is
the least significant bit, and the bits above `nbits` are 0. The row's configuration is that of
`State.reset`, under which no 5-bit index is out of range. An instruction has 32 bits (R59), so a
longer row has no instruction. -/
def decodeTableWord (nbits w : Nat) : Option Instr :=
  if nbits ≤ 32 then
    match decode Config.exampleE (BitVec.ofNat 32 (w % 2 ^ nbits)) with
    | .ok i => some i
    | .err _ => none
  else none

/-! ### The text form of the examples (R71) -/

/-- `F<n>` with `n` in decimal. -/
def asmReg (r : RegIdx) : String := "F" ++ r.toNat.repr

/-- The last operand of a memory instruction: `R<n>` in decimal, or `0` for the literal-zero base. -/
def Base.asm : Base → String
  | .zero => "0"
  | .reg j => "R" ++ j.toNat.repr

/-- The operands of an arithmetic instruction. -/
def asmR (name : String) (rd rs1 rs2 : RegIdx) : String :=
  name ++ " " ++ asmReg rd ++ "," ++ asmReg rs1 ++ "," ++ asmReg rs2

/-- The operands of a memory instruction. -/
def asmM (name : String) (rt : RegIdx) (off : Offset) (base : Base) : String :=
  name ++ " " ++ asmReg rt ++ "," ++ off.toNat.repr ++ "," ++ base.asm

/-- The text of an instruction in the form of R71. -/
def Instr.asm : Instr → String
  | .add rd rs1 rs2 => asmR "ADD" rd rs1 rs2
  | .sub rd rs1 rs2 => asmR "SUB" rd rs1 rs2
  | .mul rd rs1 rs2 => asmR "MUL" rd rs1 rs2
  | .div rd rs1 rs2 => asmR "DIV" rd rs1 rs2
  | .load rt off base => asmM "LOAD" rt off base
  | .store rt off base => asmM "STORE" rt off base

end Sys2Proof
end

