-- ==== Sys2Proof/Machine/Params.lean ====
section
/-! DEFINITION. The derived constants of a configuration (00_scope.md rule R10), the pool of an operation
(10_state.md rule R21), and what an instruction names (30_encoding.md rules R62–R64). -/

namespace Sys2Proof

/-- `pool(op)` (R21). -/
def Op.pool : Op → Pool
  | .arith .add => .add
  | .arith .sub => .add
  | .arith .mul => .mult
  | .arith .div => .mult
  | .load => .load
  | .store => .store

/-- `LAT(op)` (R10): ADD, SUB, MUL and DIV each have a latency of their own. -/
def Config.lat (c : Config) : Op → Nat
  | .arith .add => c.latAdd
  | .arith .sub => c.latSub
  | .arith .mul => c.latMul
  | .arith .div => c.latDiv
  | .load => c.latLoad
  | .store => c.latStore

/-- `LMAX`, the largest of the six latencies (R10). -/
def Config.lmax (c : Config) : Nat :=
  max c.latAdd (max c.latSub (max c.latMul (max c.latDiv (max c.latLoad c.latStore))))

/-- `CYC_MAX = 2^CYC_W − 1` (R10). -/
def Config.cycMax (c : Config) : Nat := 2 ^ c.cycW - 1

/-- `CAP(p)` (R10). -/
def Config.cap (c : Config) : Pool → Nat
  | .add => c.nAdd
  | .mult => c.nMult
  | .load => c.nLoad
  | .store => c.nStore

/-- The operation of an instruction (R62). -/
def Instr.op : Instr → Op
  | .add _ _ _ => .arith .add
  | .sub _ _ _ => .arith .sub
  | .mul _ _ _ => .arith .mul
  | .div _ _ _ => .arith .div
  | .load _ _ _ => .load
  | .store _ _ _ => .store

/-- The destination register: `rd` of an arithmetic instruction, `rt` of a LOAD, none of a STORE
(R27, R63, R64). -/
def Instr.dest : Instr → Option RegIdx
  | .add rd _ _ => some rd
  | .sub rd _ _ => some rd
  | .mul rd _ _ => some rd
  | .div rd _ _ => some rd
  | .load rt _ _ => some rt
  | .store _ _ _ => none

/-- The register captured into field `j`: `rs1` of an arithmetic instruction, the value register of a
STORE, none of a LOAD (R63, R31). -/
def Instr.srcJ : Instr → Option RegIdx
  | .add _ rs1 _ => some rs1
  | .sub _ rs1 _ => some rs1
  | .mul _ rs1 _ => some rs1
  | .div _ rs1 _ => some rs1
  | .load _ _ _ => none
  | .store rt _ _ => some rt

/-- The register captured into field `k`: `rs2` of an arithmetic instruction (R63). -/
def Instr.srcK : Instr → Option RegIdx
  | .add _ _ rs2 => some rs2
  | .sub _ _ rs2 => some rs2
  | .mul _ _ rs2 => some rs2
  | .div _ _ rs2 => some rs2
  | .load _ _ _ => none
  | .store _ _ _ => none

end Sys2Proof
end

