-- ==== Sys2Proof/Machine/State.lean ====
section
/-! DEFINITION. The machine state as plain data, everything 10_state.md rule R19 lists, with the
parameters of a run (R20) beside it; the reset state (R45); the reasons a step stops. -/

namespace Sys2Proof.Machine

/-! ### Tags, values and operands -/

/-- A producer tag `(p, i)` names slot `S[p][i]` (R22). -/
structure Tag where
  pool : Pool
  idx : Nat
  deriving DecidableEq, Repr

/-- A symbolic address `(off, base)` (R30, R48). -/
structure Addr where
  off : Offset
  base : Base
  deriving DecidableEq, Repr

/-- A value is a term; equality is structural (R24). No rule reads a value to decide anything. -/
inductive Val where
  /-- `Init(r)`, the initial content of register `F<r>`. -/
  | init (r : Nat)
  /-- `Mem(off, base)`, the word a load reads. -/
  | mem (off : Offset) (base : Base)
  /-- `Bin(op, a, b)`. -/
  | bin (o : ArithOp) (a b : Val)
  deriving DecidableEq, Repr

/-- An operand field (R23). -/
inductive Opnd where
  | empty
  | rdy (v : Val)
  | wait (t : Tag)
  deriving DecidableEq, Repr

/-- An entry of the register status file (R26). -/
inductive RegStatus where
  | value (v : Val)
  | pending (t : Tag)
  deriving DecidableEq, Repr

/-- A countdown: the sentinel INF or `K(n)` (R25). -/
inductive Count where
  | inf
  | k (n : Nat)
  deriving DecidableEq, Repr

/-! ### Slots -/

/-- A slot of any pool (R29, R30, R31). A pool's slots use the fields R29–R31 list for it; a field a
pool does not have holds its cleared value (log entry 15). -/
structure Slot where
  busy : Bool
  /-- `none` is the `NONE` of a free slot. -/
  op : Option Op
  /-- Operand 1, or the value operand of a store. -/
  j : Opnd
  /-- Operand 2. -/
  k : Opnd
  addr : Option Addr
  cnt : Count
  fresh : Bool
  /-- The program index of the instruction served. -/
  instr : Option Nat
  deriving DecidableEq, Repr

/-- The cleared value of every field (R32). -/
def Slot.free : Slot where
  busy := false
  op := none
  j := .empty
  k := .empty
  addr := none
  cnt := .inf
  fresh := false
  instr := none

/-- The four slot arrays (R19). -/
structure Pools where
  add : List Slot
  mult : List Slot
  load : List Slot
  store : List Slot
  deriving DecidableEq, Repr

/-! ### Sequencer registers and the trace -/

/-- The sequencer state (R35). -/
inductive Fsm where
  | validate
  | run
  | done
  | error
  deriving DecidableEq, Repr

/-- The error register `err` (R40, R113). -/
inductive Err where
  | none
  | parseError
  | invalidOperandError
  | cycleOverflow
  deriving DecidableEq, Repr

/-- A trace entry `T[a]`: two stamps, each NONE or a cycle number (R41). -/
structure Stamp where
  issue : Option Nat
  wb : Option Nat
  deriving DecidableEq, Repr

/-! ### The parameters of a run -/

/-- What R20 calls parameters of the step relation, fixed for a whole run: the configuration and the
program store, whose length is `N`. They are carried beside the state because the host's interface
gives a step nothing but a state. No step writes them. DESIGN CHOICE, log entry 1, safe. -/
structure Env where
  cfg : Config
  prog : List Word
  deriving DecidableEq, Repr

/-! ### The state -/

/-- The state of the block (R19), with the parameters of its run. Counters, cycle numbers and indices
are naturals (R12). -/
structure State where
  env : Env
  fsm : Fsm
  vidx : Nat
  pc : Nat
  cycle : Nat
  stall : Bool
  err : Err
  errIndex : Nat
  rf : List RegStatus
  pools : Pools
  trace : List Stamp
  deriving DecidableEq, Repr

/-- The reset values of R45 for the parameters `e`. -/
def State.resetOf (e : Env) : State where
  env := e
  fsm := .validate
  vidx := 0
  pc := 0
  cycle := 0
  stall := false
  err := .none
  errIndex := 0
  rf := (List.range e.cfg.nReg).map fun r => .value (.init r)
  pools :=
    { add := List.replicate e.cfg.nAdd Slot.free
      mult := List.replicate e.cfg.nMult Slot.free
      load := List.replicate e.cfg.nLoad Slot.free
      store := List.replicate e.cfg.nStore Slot.free }
  trace := List.replicate e.cfg.progMax { issue := none, wb := none }

/-- The initial state for the parameters `e`: an ill-formed configuration has none (R11, I9). -/
def State.initial? (e : Env) : Option State :=
  if e.cfg.wf then some (State.resetOf e) else none

/-- The machine right after reset, with the example configuration E (log entry 2) and no program on
the store (log entry 3). Every other field is as R45 gives it. -/
def State.reset : State := State.resetOf { cfg := Config.exampleE, prog := [] }

/-! ### Why a step stops -/

/-- The faults. The block's own errors are not among them: `raise` is a next state (R114). -/
inductive Fault where
  /-- Raised by `step` on a state that breaks a law of R149–R151 or that R19–R34 do not admit, which no
  run reaches (R150, I2, D37). Safe. -/
  | brokenInvariant
  /-- Raised by a meaning given a register or base index out of range, which validation keeps from
  every run: "an out-of-range index fails with an InvalidOperandError if it reaches this component"
  (R112, C7). Safe. -/
  | invalidOperand
  /-- Raised by a read of the program store at an index that is not below `N` (R52), which no run
  makes. Safe. -/
  | progIndexOutOfStore
  deriving DecidableEq, Repr

/-- The refusals. -/
inductive Refusal where
  /-- Raised by an arm of `exec` whose instruction has no meaning yet. Safe. -/
  | notModelled (mnemonic : String)
  /-- Raised by `step` when the configuration is outside the ranges of R9 (R11, I9, D21). Safe. -/
  | illFormedConfig
  /-- Raised by `step` in RUN when the word at `pc` is one validation refuses, which needs a host that
  changed the program during a run: the model has no move for it (R90, R127, I4). Safe for the
  refusal itself. -/
  | unvalidatedWord
  deriving DecidableEq, Repr

end Sys2Proof.Machine
end

