-- ==== Sys2Proof/Machine/Ops.lean ====
section
/-! DEFINITION. The named operations over the state: the program store, the pools and their slots, the
register status file, the trace, the countdown load, and taking an error. Every meaning and every
phase goes through them. -/

namespace Sys2Proof.Machine

/-- The outcome of a step of this machine. -/
abbrev Result := Host.Outcome State Fault Refusal

/-! ### The program store (R46, R49, R52) -/

/-- `N`, the program length (R46). A natural, not cut to `PC_W` bits: log entry 4. -/
def Env.progLen (e : Env) : Nat := e.prog.length

/-- `prog[a]`, or none outside the index space 0..N−1 (R46, R52). -/
def Env.word? (e : Env) (a : Nat) : Option Word := e.prog[a]?

/-- The instruction at index `a` when the word there is one validation accepts (R70, R90). -/
def Env.instrAt (e : Env) (a : Nat) : Option Instr :=
  match e.word? a with
  | none => none
  | some w =>
    match decode e.cfg w with
    | .ok i => some i
    | .err _ => none

/-! ### Pools and slots (R21, R22) -/

/-- The slots of pool `p`. -/
def Pools.get (q : Pools) : Pool → List Slot
  | .add => q.add
  | .mult => q.mult
  | .load => q.load
  | .store => q.store

/-- Replace the slots of pool `p` by what `f` makes of them. -/
def Pools.modify (q : Pools) (p : Pool) (f : List Slot → List Slot) : Pools :=
  match p with
  | .add => { q with add := f q.add }
  | .mult => { q with mult := f q.mult }
  | .load => { q with load := f q.load }
  | .store => { q with store := f q.store }

/-- Apply `f` to every slot of every pool at once (the `for all` of R13). -/
def Pools.mapSlots (f : Pool → Slot → Slot) (q : Pools) : Pools where
  add := q.add.map (f .add)
  mult := q.mult.map (f .mult)
  load := q.load.map (f .load)
  store := q.store.map (f .store)

/-- The slots of pool `p`, each with its tag, in slot order. -/
def Pools.taggedOf (q : Pools) (p : Pool) : List (Tag × Slot) :=
  (q.get p).zipIdx.map fun x => (⟨p, x.2⟩, x.1)

/-- Every slot with its tag, in the order of R80: Load, Add, Mult, Store, each in slot order. -/
def Pools.tagged (q : Pools) : List (Tag × Slot) :=
  q.taggedOf .load ++ q.taggedOf .add ++ q.taggedOf .mult ++ q.taggedOf .store

/-- `S[p][i]`, or none where the pool has no such slot. -/
def State.slot? (s : State) (t : Tag) : Option Slot := (s.pools.get t.pool)[t.idx]?

/-- `S[p][i] <- u`. -/
def State.setSlot (s : State) (t : Tag) (u : Slot) : State :=
  { s with pools := s.pools.modify t.pool fun l => l.set t.idx u }

/-- `release(p, i)` writes the free value (R85). -/
def State.release (s : State) (t : Tag) : State := s.setSlot t Slot.free

/-- `find_free(p)`: the lowest index whose slot is not busy, or none (R91). -/
def State.findFree (s : State) (p : Pool) : Option Nat :=
  (s.pools.get p).findIdx? fun u => !u.busy

/-- Every slot of every pool is free (R74, R76). -/
def Pools.allFree (q : Pools) : Bool :=
  q.add.all (fun u => !u.busy) && q.mult.all (fun u => !u.busy) &&
  q.load.all (fun u => !u.busy) && q.store.all (fun u => !u.busy)

/-! ### The register status file (R26, R27) -/

/-- `RF[r]`, or none where the file has no such register. -/
def State.reg? (s : State) (r : Nat) : Option RegStatus := s.rf[r]?

/-- `rename(r, t)`: `RF[r] <- Pending(t)`, whatever it held (R94). -/
def State.rename (s : State) (r : RegIdx) (t : Tag) : State :=
  { s with rf := s.rf.set r.toNat (.pending t) }

/-! ### Countdowns and stamps (R95, R98, R99) -/

/-- The slot part of `load_countdown`: `cnt <- K(LAT(op))`, `fresh <- 1` (R99). A slot with no
operation is free, and R99 never loads one: log entry 16. -/
def Slot.start (c : Config) (u : Slot) : Slot :=
  match u.op with
  | some o => { u with cnt := .k (c.lat o), fresh := true }
  | none => u

/-- The writeback stamp `load_countdown` gives the instruction a slot serves: `c + LAT(op) + 1` in
cycle `c` (R98, R99). -/
def Slot.wbStamp (cfg : Config) (c : Nat) (u : Slot) : Option Nat :=
  u.op.map fun o => c + cfg.lat o + 1

/-- Write `T[a].wb` for the instruction the slot `u` serves, in cycle `c` (R99). -/
def stampWb (cfg : Config) (c : Nat) (u : Slot) (trace : List Stamp) : List Stamp :=
  match u.instr with
  | some a => trace.modify a fun st => { st with wb := u.wbStamp cfg c }
  | none => trace

/-- `load_countdown(u, c)` of R99 for the slot `u` at `t`, in the current cycle. -/
def State.loadCountdown (s : State) (t : Tag) (u : Slot) : State :=
  { s.setSlot t (u.start s.env.cfg) with trace := stampWb s.env.cfg s.cycle u s.trace }

/-- `T[pc].issue <- c` in the current cycle (R95). -/
def State.stampIssue (s : State) : State :=
  { s with trace := s.trace.modify s.pc fun st => { st with issue := some s.cycle } }

/-! ### Taking an error (R114, R118, R119) -/

/-- `raise E(idx)`: `fsm <- ERROR`, `err <- code(E)`, `err_index <- idx`, and nothing else (R114). The
block has no return from it; only reset leaves ERROR (R119). -/
def State.raise (s : State) (e : Err) (idx : Nat) : State :=
  { s with fsm := .error, err := e, errIndex := idx }

/-- The error a decode error raises (R112, R113). -/
def errOf : DecodeError → Err
  | .parseError => .parseError
  | .invalidOperandError => .invalidOperandError

end Sys2Proof.Machine
end

