-- ==== Sys2Proof/Machine/Operands.lean ====
section
/-! DEFINITION. Operands: how an operand field is read, captured from the register status file at issue
(40_sequencer.md rule R94) and resolved by a broadcast (R84), and the contents an instruction puts in
its slot (41_arithmetic.md rule R102, 42_memory_ops.md rules R108, R109). -/

namespace Sys2Proof.Machine

/-- An operand is resolved when it is `Rdy(_)` (R23). -/
def Opnd.isRdy : Opnd → Bool
  | .empty => false
  | .rdy _ => true
  | .wait _ => false

/-- A register status is resolved when it is `Value(_)` (R26). -/
def RegStatus.isValue : RegStatus → Bool
  | .value _ => true
  | .pending _ => false

/-- What `capture` makes of a register status (R94). -/
def RegStatus.capture : RegStatus → Opnd
  | .value v => .rdy v
  | .pending t => .wait t

/-- `capture(r)` reads `RF[r]` (R94); none where the file has no such register. -/
def State.capture (s : State) (r : RegIdx) : Option Opnd :=
  (s.reg? r.toNat).map RegStatus.capture

/-- An operand waiting for `t` becomes `Rdy(v)` (R84). -/
def Opnd.resolve (t : Tag) (v : Val) (o : Opnd) : Opnd :=
  if o = .wait t then .rdy v else o

/-- Both operand fields of a slot, resolved together (R84). -/
def Slot.resolve (t : Tag) (v : Val) (u : Slot) : Slot :=
  { u with j := u.j.resolve t v, k := u.k.resolve t v }

/-- Some operand field of the slot waits for `t` (R84). -/
def Slot.waitsOn (t : Tag) (u : Slot) : Bool := u.j == .wait t || u.k == .wait t

/-- The slot `fill_arith` writes (R102). -/
def Slot.ofArith (o : ArithOp) (oj ok : Opnd) (pc : Nat) : Slot where
  busy := true
  op := some (.arith o)
  j := oj
  k := ok
  addr := none
  cnt := .inf
  fresh := false
  instr := some pc

/-- The slot `fill_load` writes (R108). -/
def Slot.ofLoad (off : Offset) (base : Base) (pc : Nat) : Slot where
  busy := true
  op := some .load
  j := .empty
  k := .empty
  addr := some { off := off, base := base }
  cnt := .inf
  fresh := false
  instr := some pc

/-- The slot `fill_store` writes (R109). -/
def Slot.ofStore (ov : Opnd) (off : Offset) (base : Base) (pc : Nat) : Slot where
  busy := true
  op := some .store
  j := ov
  k := .empty
  addr := some { off := off, base := base }
  cnt := .inf
  fresh := false
  instr := some pc

end Sys2Proof.Machine
end

