-- ==== Sys2Proof/Machine/Flags.lean ====
section
/-! DEFINITION. The block has no flags, condition codes or predicates, and no instruction writes one
(10_state.md rule R44). What stands here instead are the readiness predicates of a slot
(40_sequencer.md rules R78, R79) and the status register (10_state.md rules R35, R40, R42). -/

namespace Sys2Proof.Machine

/-! ### Readiness -/

/-- `ready(p, s)`: busy, with every operand its pool has resolved (R78). -/
def Slot.ready (p : Pool) (u : Slot) : Bool :=
  match p with
  | .add => u.busy && u.j.isRdy && u.k.isRdy
  | .mult => u.busy && u.j.isRdy && u.k.isRdy
  | .load => u.busy
  | .store => u.busy && u.j.isRdy

/-- `complete(p, s)`: ready, with countdown zero and not fresh (R79). -/
def Slot.complete (p : Pool) (u : Slot) : Bool :=
  u.ready p && u.cnt == .k 0 && !u.fresh

/-! ### The status register -/

/-- The encoding of `fsm` (R35). -/
def Fsm.code : Fsm → BitVec 2
  | .validate => 0b00
  | .run => 0b01
  | .done => 0b10
  | .error => 0b11

/-- The error code `err` holds (R40, R113). -/
def Err.code : Err → BitVec 2
  | .none => 0
  | .parseError => 1
  | .invalidOperandError => 2
  | .cycleOverflow => 3

/-- `STATUS` (R42): `ERR_INDEX` in [31:16], zeros in [15:5], `STALL` in [4], `ERR` in [3:2], `STATE` in
[1:0]. -/
def State.status (s : State) : BitVec 32 :=
  BitVec.ofNat 16 s.errIndex ++ 0#11 ++ BitVec.ofBool s.stall ++ s.err.code ++ s.fsm.code

end Sys2Proof.Machine
end

