-- ==== Sys2Proof/Machine/Issue.lean ====
section
/-! DEFINITION. The Issue phase's attempt of one instruction (40_sequencer.md rule R88): the structural
hazard detector, the tag allocator, the fill, the rename, the stamps and the countdown load. The
meanings of Arith.lean and Memory.lean are one line over it. -/

namespace Sys2Proof.Machine

/-- R88 from `find_free` on, for an instruction of operation `o` with destination `dest`, whose slot
contents `filled` were captured from `RF` before the rename (R94). A full pool writes only `stall`
(R92). -/
def State.issue (s : State) (o : Op) (filled : Slot) (dest : Option RegIdx) : State :=
  match s.findFree o.pool with
  | none => { s with stall := true }
  | some i =>
    let t : Tag := ⟨o.pool, i⟩
    let s1 := { s with stall := false }.setSlot t filled
    let s2 := match dest with
      | some r => s1.rename r t
      | none => s1
    let s3 := s2.stampIssue
    let s4 := if filled.ready o.pool then s3.loadCountdown t filled else s3
    { s4 with pc := s4.pc + 1 }

/-- The issue of an arithmetic instruction: `fill_arith` of R102 inside R88. An operand out of range
faults by name (R112). -/
def issueArith (o : ArithOp) (rd rs1 rs2 : RegIdx) (s : State) : Result :=
  if (o.instr rd rs1 rs2).wf s.env.cfg then
    match s.capture rs1, s.capture rs2 with
    | some oj, some ok => .next (s.issue (.arith o) (Slot.ofArith o oj ok s.pc) (some rd))
    | _, _ => .fault .invalidOperand
  else .fault .invalidOperand

/-- The issue of a LOAD: `fill_load` of R108 inside R88. -/
def issueLoad (rt : RegIdx) (off : Offset) (base : Base) (s : State) : Result :=
  if (Instr.load rt off base).wf s.env.cfg then
    .next (s.issue .load (Slot.ofLoad off base s.pc) (some rt))
  else .fault .invalidOperand

/-- The issue of a STORE: `fill_store` of R109 inside R88. It renames nothing. -/
def issueStore (rt : RegIdx) (off : Offset) (base : Base) (s : State) : Result :=
  if (Instr.store rt off base).wf s.env.cfg then
    match s.capture rt with
    | some ov => .next (s.issue .store (Slot.ofStore ov off base s.pc) none)
    | none => .fault .invalidOperand
  else .fault .invalidOperand

end Sys2Proof.Machine
end

