-- ==== Sys2Proof/Machine/Arith.lean ====
section
/-! DEFINITION. The meanings of ADD, SUB, MUL and DIV (41_arithmetic.md rules R102–R106): what the Issue
phase of the current cycle does when it attempts the instruction. What the issued slot does later is
shared by all (Writeback.lean, Execute.lean): its result term is `result`, its latency `Config.lat`. -/

namespace Sys2Proof.Machine

/-- ADD (R103): `Add` pool, `LAT_ADD`, result `Bin(ADD, vj, vk)`. -/
def execAdd (rd rs1 rs2 : RegIdx) (s : State) : Result := issueArith .add rd rs1 rs2 s

/-- SUB (R104): `Add` pool, `LAT_SUB`, result `Bin(SUB, vj, vk)` with the operand order kept. -/
def execSub (rd rs1 rs2 : RegIdx) (s : State) : Result := issueArith .sub rd rs1 rs2 s

/-- MUL (R105): `Mult` pool, `LAT_MUL`, result `Bin(MUL, vj, vk)`. -/
def execMul (rd rs1 rs2 : RegIdx) (s : State) : Result := issueArith .mul rd rs1 rs2 s

/-- DIV (R106): `Mult` pool, `LAT_DIV`, result `Bin(DIV, vj, vk)`; no division by zero exists. -/
def execDiv (rd rs1 rs2 : RegIdx) (s : State) : Result := issueArith .div rd rs1 rs2 s

end Sys2Proof.Machine
end

