-- ==== Sys2Proof/Machine/Memory.lean ====
section
/-! DEFINITION. The meanings of LOAD and STORE (42_memory_ops.md rules R108–R110): what the Issue phase of
the current cycle does when it attempts the instruction. No data memory exists (20_memory.md rule
R47). -/

namespace Sys2Proof.Machine

/-- LOAD (R108): `Load` pool, `LAT_LOAD`, always ready at issue, result `Mem(off, base)`. -/
def execLoad (rt : RegIdx) (off : Offset) (base : Base) (s : State) : Result :=
  issueLoad rt off base s

/-- STORE (R109): `Store` pool, `LAT_STORE`, waits for its value operand, no rename and no broadcast. -/
def execStore (rt : RegIdx) (off : Offset) (base : Base) (s : State) : Result :=
  issueStore rt off base s

end Sys2Proof.Machine
end

