-- ==== Sys2Proof/Machine/Execute.lean ====
section
/-! DEFINITION. The Execute phase, the countdown tick (40_sequencer.md rules R100, R101). -/

namespace Sys2Proof.Machine

/-- What the tick does to one slot (R100): a ready slot that is fresh loses `fresh`, a ready slot with
`K(n)`, `n > 0`, counts down, and every other slot is unchanged. -/
def Slot.tick (p : Pool) (u : Slot) : Slot :=
  if u.ready p then
    if u.fresh then { u with fresh := false }
    else
      match u.cnt with
      | .k (n + 1) => { u with cnt := .k n }
      | .k 0 => u
      | .inf => u
  else u

/-- `execute_phase()` (R100): every slot at once. -/
def State.executePhase (s : State) : State :=
  { s with pools := s.pools.mapSlots Slot.tick }

end Sys2Proof.Machine
end

