-- ==== Sys2Proof/Machine/Lawful.lean ====
section
/-! DEFINITION. The laws of 70_reset_and_hazards.md rules R149–R151 as a check on one state. A state that
breaks one is treated as a fault (R150, I2, D37): `step` stops on it by name. No run reaches one. -/

namespace Sys2Proof.Machine

/-- Instruction `a` of the program writes register `r` (R27). -/
def Env.writes (e : Env) (a r : Nat) : Bool :=
  match e.instrAt a with
  | some i =>
    match i.dest with
    | some d => d.toNat == r
    | none => false
  | none => false

/-- The last instruction among the first `k` that writes register `r` (R150). -/
def Env.lastWriter (e : Env) (r : Nat) : Nat → Option Nat
  | 0 => none
  | k + 1 => if e.writes k r then some k else e.lastWriter r k

/-- The file, the pools and the trace have the sizes of R19. -/
def State.shapeOk (s : State) : Bool :=
  s.rf.length == s.env.cfg.nReg && s.pools.add.length == s.env.cfg.nAdd &&
  s.pools.mult.length == s.env.cfg.nMult && s.pools.load.length == s.env.cfg.nLoad &&
  s.pools.store.length == s.env.cfg.nStore && s.trace.length == s.env.cfg.progMax

/-- A busy slot of pool `p` holds what R29, R30 and R31 give its kind: operands where the pool has
them, an address where it has one, cleared fields elsewhere. -/
def Slot.kindOk (p : Pool) (u : Slot) : Bool :=
  match p with
  | .add => u.j != .empty && u.k != .empty && u.addr == none
  | .mult => u.j != .empty && u.k != .empty && u.addr == none
  | .load => u.j == .empty && u.k == .empty && u.addr != none
  | .store => u.j != .empty && u.k == .empty && u.addr != none

/-- A busy slot of pool `p` serves an instruction that has issued, and holds its operation, one of the
pool's (R21, R29–R31, R37). -/
def State.servesOk (s : State) (p : Pool) (u : Slot) : Bool :=
  match u.instr with
  | none => false
  | some a =>
    decide (a < s.pc) &&
    match s.env.instrAt a with
    | some i => u.op == some i.op && i.op.pool == p
    | none => false

/-- R151 (b), (c) and (d) for a busy slot: not fresh; INF while an operand is pending; `K(n)` with
`n ≤ LAT(op)` once ready. -/
def Slot.countOk (cfg : Config) (p : Pool) (u : Slot) : Bool :=
  !u.fresh &&
  if u.ready p then
    match u.cnt, u.op with
    | .k n, some o => decide (n ≤ cfg.lat o)
    | _, _ => false
  else u.cnt == .inf

/-- R149 and R150 for one operand field of a slot: the tag it waits on is no Store tag and names a busy
slot that serves an older instruction. -/
def State.operandOk (s : State) (served : Option Nat) (o : Opnd) : Bool :=
  match o with
  | .empty => true
  | .rdy _ => true
  | .wait t =>
    t.pool != .store &&
    match s.slot? t, served with
    | some u, some a =>
      u.busy && match u.instr with
        | some b => decide (b < a)
        | none => false
    | _, _ => false

/-- R149 and R150 for register `r`: a pending tag is no Store tag and names a busy slot that serves the
most recently issued writer of the register. -/
def State.regOk (s : State) (r : Nat) (x : RegStatus) : Bool :=
  match x with
  | .value _ => true
  | .pending t =>
    t.pool != .store &&
    match s.slot? t with
    | some u => u.busy && u.instr != none && u.instr == s.env.lastWriter r s.pc
    | none => false

/-- The laws of one slot: free and cleared (R151 (a)), or busy with all of the above. -/
def State.slotOk (s : State) (p : Pool) (u : Slot) : Bool :=
  if u.busy then
    u.kindOk p && s.servesOk p u && u.countOk s.env.cfg p &&
    s.operandOk u.instr u.j && s.operandOk u.instr u.k
  else u == Slot.free

/-- R150 at the end of a run: at `DONE` every register is `Value(_)`. -/
def State.doneOk (s : State) : Bool := s.fsm != .done || s.rf.all RegStatus.isValue

/-- The laws R149, R150 and R151 (a) to (f), with the shape they speak of. -/
def State.lawful (s : State) : Bool :=
  s.shapeOk &&
  s.pools.tagged.all (fun x => s.slotOk x.1.pool x.2) &&
  s.rf.zipIdx.all (fun x => s.regOk x.2 x.1) &&
  decide (s.pc ≤ s.env.progLen) && s.doneOk

end Sys2Proof.Machine
end

