-- ==== Sys2Proof/Machine/Writeback.lean ====
section
/-! DEFINITION. The Writeback phase, the broadcast/writeback multiplexer (40_sequencer.md rules
R80–R87). -/

namespace Sys2Proof.Machine

/-- `result(p, s)` of R81, the value a complete slot broadcasts. A store slot broadcasts none (R86).
The slots R81 does not cover cannot be complete in a lawful state: log entry 16. -/
def Slot.result (p : Pool) (u : Slot) : Option Val :=
  match p, u.op, u.j, u.k, u.addr with
  | .add, some (.arith o), .rdy vj, .rdy vk, _ => some (.bin o vj vk)
  | .mult, some (.arith o), .rdy vj, .rdy vk, _ => some (.bin o vj vk)
  | .load, _, _, _, some a => some (.mem a.off a.base)
  | _, _, _, _, _ => none

/-- `resolve_registers(t, v)` (R83): every register still waiting for `t` gets `v`. -/
def State.resolveRegisters (s : State) (t : Tag) (v : Val) : State :=
  { s with rf := s.rf.map fun x => if x = .pending t then .value v else x }

/-- The broadcast of `t` starts this slot's countdown: its fields are changed by the broadcast, it is
ready with them, and its countdown is INF (R84). -/
def Slot.wakes (p : Pool) (t : Tag) (v : Val) (u : Slot) : Bool :=
  u.waitsOn t && (u.resolve t v).ready p && u.cnt == .inf

/-- What the broadcast of `t` with `v` makes of one slot (R84). -/
def Slot.receive (cfg : Config) (p : Pool) (t : Tag) (v : Val) (u : Slot) : Slot :=
  if u.wakes p t v then (u.resolve t v).start cfg else u.resolve t v

/-- The slots whose countdown the broadcast starts (R84). -/
def State.woken (s : State) (t : Tag) (v : Val) : List Slot :=
  (s.pools.tagged.filter fun x => x.2.wakes x.1.pool t v).map fun x => x.2

/-- The writeback stamps of the slots a broadcast wakes, written at once (R84, R99). -/
def stampWoken (cfg : Config) (c : Nat) (woken : List Slot) (trace : List Stamp) : List Stamp :=
  trace.zipIdx.map fun x =>
    match woken.find? fun u => u.instr == some x.2 with
    | some u => { x.1 with wb := u.wbStamp cfg c }
    | none => x.1

/-- `resolve_operands(t, v, c)` (R84) in the current cycle. -/
def State.resolveOperands (s : State) (t : Tag) (v : Val) : State :=
  { s with
    pools := s.pools.mapSlots fun p u => u.receive s.env.cfg p t v
    trace := stampWoken s.env.cfg s.cycle (s.woken t v) s.trace }

/-- `broadcast(t, v, c)` (R82): the registers, then every waiting operand. -/
def State.broadcast (s : State) (t : Tag) (v : Val) : State :=
  (s.resolveRegisters t v).resolveOperands t v

/-- One turn of R80's loop: the slot's result, if it has one, is broadcast, and the slot released. -/
def State.handle (s : State) (t : Tag) : State :=
  match (s.slot? t).bind fun u => u.result t.pool with
  | some v => (s.broadcast t v).release t
  | none => s.release t

/-- The list `C` of R80: the complete slots, in the order Load, Add, Mult, Store, each in slot order. -/
def State.completeTags (s : State) : List Tag :=
  (s.pools.tagged.filter fun x => x.2.complete x.1.pool).map fun x => x.1

/-- `writeback_phase(c)` (R80): `C` is formed once, then handled slot after slot, each seeing the writes
of the earlier ones. -/
def State.writebackPhase (s : State) : State :=
  s.completeTags.foldl State.handle s

end Sys2Proof.Machine
end

