-- ==== Sys2Proof/Machine/Sequencer.lean ====
section
/-! DEFINITION. The per-cycle sequencer (40_sequencer.md rules R73–R77, R88, R90), validation
(60_exceptions.md rule R111) and reset (70_reset_and_hazards.md rule R133). `step` of Step.lean calls
`sequencerStep`. -/

namespace Sys2Proof.Machine

/-- `validate_step()` (R111): the length check, then the end test, then one word. -/
def validateStep (s : State) : Result :=
  if s.env.progLen > s.env.cfg.progMax then .next (s.raise .parseError s.env.cfg.progMax)
  else if s.vidx = s.env.progLen then .next { s with fsm := .run }
  else
    match s.env.word? s.vidx with
    | none => .fault .progIndexOutOfStore
    | some w =>
      match decode s.env.cfg w with
      | .err e => .next (s.raise (errOf e) s.vidx)
      | .ok _ => .next { s with vidx := s.vidx + 1 }

/-- `issue_phase(c)` (R88). In the drain phase it only clears `stall` (R75). The fetch is
`decode(prog[pc])` (R90); the attempt of the fetched instruction is `exec`. -/
def issuePhase (s : State) : Result :=
  if s.pc = s.env.progLen then .next { s with stall := false }
  else
    match s.env.word? s.pc with
    | none => .fault .progIndexOutOfStore
    | some w =>
      match decode s.env.cfg w with
      | .err _ => .refused .unvalidatedWord
      | .ok i => exec i s

/-- The terminal condition (R76): `pc = N` with every slot of every pool free. -/
def State.terminal (s : State) : Bool := s.pc == s.env.progLen && s.pools.allFree

/-- The overflow test (R74, R116). -/
def State.overflows (s : State) : Bool :=
  decide (s.cycle + s.env.cfg.lmax + 2 > s.env.cfg.cycMax)

/-- The state the Issue phase of the next cycle sees: the cycle counted and its Writeback phase done
(R74). -/
def State.afterWriteback (s : State) : State := { s with cycle := s.cycle + 1 }.writebackPhase

/-- One executed cycle (R74): count it, then Writeback, Issue, Execute as one transition. -/
def cycleStep (s : State) : Result :=
  match issuePhase s.afterWriteback with
  | .next u => .next u.executePhase
  | .fault r => .fault r
  | .refused r => .refused r

/-- `run_step()` (R74), with the priorities of R121. -/
def runStep (s : State) : Result :=
  if s.terminal then .next { s with fsm := .done }
  else if s.overflows then .next (s.raise .cycleOverflow s.pc)
  else cycleStep s

/-- `step()` (R73) on a state of the machine. DONE and ERROR are final (R77, R119). -/
def fsmStep (s : State) : Result :=
  match s.fsm with
  | .validate => validateStep s
  | .run => runStep s
  | .done => .next s
  | .error => .next s

/-- One rising clock edge with `rst = 0` (R73): an ill-formed configuration has no move (R11, I9), and a
state that breaks a law is a fault (R150, I2). -/
def sequencerStep (s : State) : Result :=
  if s.env.cfg.wf then
    if s.lawful then fsmStep s else .fault .brokenInvariant
  else .refused .illFormedConfig

/-- One rising clock edge with reset input `rst` (R133): reset takes priority over the step (R121) and
gives every state element its reset value, whatever `fsm` holds. -/
def clockEdge (rst : Bool) (s : State) : Result :=
  if rst then
    if s.env.cfg.wf then .next (State.resetOf s.env) else .refused .illFormedConfig
  else sequencerStep s

/-- `prog` with the word `w` at index `a`; a store shorter than `a` is filled with zero words. -/
def placeWord (prog : List Word) (a : Nat) (w : Word) : List Word :=
  if a < prog.length then prog.set a w
  else prog ++ List.replicate (a - prog.length) 0 ++ [w]

/-- `s` in RUN, past the validation of a store that holds the word `w` where the next Issue phase
fetches: log entry 3. -/
def State.placeFetch (s : State) (w : Word) : State :=
  let prog := placeWord s.env.prog s.pc w
  { s with env := { s.env with prog := prog }, fsm := .run, vidx := prog.length }

end Sys2Proof.Machine
end

