-- ==== Sys2Proof/Machine/Step.lean ====
section
/-! DEFINITION. One step of the block: one rising clock edge with reset inactive (40_sequencer.md rule
R73), and how the host places a word where the step fetches. -/

namespace Sys2Proof.Machine

/-- One step (R73). -/
def step (s : State) : Host.Outcome State Fault Refusal := sequencerStep s

/-- `s` with the instruction word whose low `nbits` bits are `w` placed where `step` fetches its next
instruction, in RUN (log entry 3). -/
def State.withFetchWord (s : State) (nbits w : Nat) : State :=
  s.placeFetch (BitVec.ofNat 32 (w % 2 ^ nbits))

end Sys2Proof.Machine
end

