-- ==== Sys2Proof/Machine/Ports.lean ====
section
/-! DEFINITION. What the host sees: the read-only registers (10_state.md rules R42, R43), the output ports
and the snapshot (60_exceptions.md rules R125, R126), and the hardware encodings the spec gives for
pools, tags and the operation field of a slot (10_state.md rules R21, R22, R29). -/

namespace Sys2Proof.Machine

/-! ### Encodings -/

/-- The two-bit encoding of a pool (R21). -/
def poolCode : Pool → BitVec 2
  | .add => 0b00
  | .mult => 0b01
  | .load => 0b10
  | .store => 0b11

/-- The six-bit encoding of a tag, the pool in the high bits and the slot index in the low four (R22). -/
def Tag.code (t : Tag) : BitVec 6 := poolCode t.pool ++ BitVec.ofNat 4 t.idx

/-- The three-bit `op` field of a slot: the operation's encoding, or 111 for NONE (R29, R62, I13). -/
def slotOpCode : Option Op → BitVec 3
  | some o => o.code
  | none => 0b111

/-! ### Registers and ports -/

/-- `CYCLE = zext_32(cycle)` (R43, R124), the port `cycle_o`. -/
def State.cycleReg (s : State) : BitVec 32 := BitVec.ofNat 32 s.cycle

/-- `PC = zext_32(pc)` (R43), the port `pc_o`. -/
def State.pcReg (s : State) : BitVec 32 := BitVec.ofNat 32 s.pc

/-- The port `done` (R125). -/
def State.donePort (s : State) : Bool := s.fsm == .done

/-- The port `error` (R125). -/
def State.errorPort (s : State) : Bool := s.fsm == .error

/-- The port `prog_addr` (R125): `vidx` in VALIDATE, `pc` otherwise. -/
def State.progAddr (s : State) : Nat :=
  match s.fsm with
  | .validate => s.vidx
  | .run => s.pc
  | .done => s.pc
  | .error => s.pc

/-- The port `prog_data` (R125), a combinational read of the program store; none where the store has no
such word. -/
def State.progData (s : State) : Option Word := s.env.word? s.progAddr

/-! ### The snapshot -/

/-- A stamp as the snapshot shows it: NONE is −1 (R41, R126). -/
def stampInt : Option Nat → Int
  | some c => (c : Int)
  | none => -1

/-- The snapshot (R126): every state element of R19 as the last clock edge left it. `vidx` is among
them, because R126 says "every state element". -/
structure Snapshot where
  fsm : Fsm
  vidx : Nat
  pc : Nat
  cycle : Nat
  stall : Bool
  err : Err
  errIndex : Nat
  rf : List RegStatus
  add : List Slot
  mult : List Slot
  load : List Slot
  store : List Slot
  /-- The issue and writeback stamps of each instruction. -/
  stamps : List (Int × Int)
  deriving DecidableEq, Repr

/-- What the snapshot ports show of a state (R126). -/
def State.snapshot (s : State) : Snapshot where
  fsm := s.fsm
  vidx := s.vidx
  pc := s.pc
  cycle := s.cycle
  stall := s.stall
  err := s.err
  errIndex := s.errIndex
  rf := s.rf
  add := s.pools.add
  mult := s.pools.mult
  load := s.pools.load
  store := s.pools.store
  stamps := s.trace.map fun st => (stampInt st.issue, stampInt st.wb)

end Sys2Proof.Machine
end

