-- ==== Sys2Proof/Safety.lean ====
section
/-! DEFINITION. The terms claims use: which states are faults and which are good final states, the
invariants of a run (70_reset_and_hazards.md §5), the sequential meaning of a program (rule R155), and
the part of a state that holds no value (rule R154). -/

namespace Sys2Proof.Machine

/-! ### Faults and good final states -/

/-- A model treats an ERROR state (R119), and a state that breaks a law (R150, I2), as a fault. -/
def State.isFault (s : State) : Bool := s.fsm == .error || !s.lawful

/-- The end of a run (R128): DONE, and no fault. -/
def State.goodFinal (s : State) : Bool := s.fsm == .done && s.lawful

/-! ### Runs -/

/-- `k` steps, stopping at the first fault or refusal. -/
def stepN : Nat → State → Host.Outcome State Fault Refusal
  | 0, s => .next s
  | k + 1, s =>
    match step s with
    | .next t => stepN k t
    | .fault r => .fault r
    | .refused r => .refused r

/-- The step executes a cycle (R74): RUN, not terminal, and no overflow. -/
def State.executes (s : State) : Bool := s.fsm == .run && !s.terminal && !s.overflows

/-! ### Validity of the program (R111) -/

/-- The first `k` words are ones validation accepts. -/
def Env.validTo (e : Env) (k : Nat) : Bool := (List.range k).all fun a => (e.instrAt a).isSome

/-- The program is one validation accepts whole: not too long, and every word accepted (R111). -/
def Env.valid (e : Env) : Bool := decide (e.progLen ≤ e.cfg.progMax) && e.validTo e.progLen

/-! ### The invariant of every run -/

/-- A stamp or its absence within `CYC_W` bits (R41, R116). -/
def stampFits (c : Config) (x : Option Nat) : Bool :=
  match x with
  | some n => decide (n ≤ c.cycMax)
  | none => true

/-- A countdown within `LAT_W` bits (R25). -/
def Count.fits (c : Config) : Count → Bool
  | .inf => true
  | .k n => decide (n < 2 ^ c.latW)

/-- Every register of R36 to R41, every countdown (R25) and every stamp lies within its width. -/
def State.fits (s : State) : Bool :=
  decide (s.vidx < 2 ^ s.env.cfg.pcW) && decide (s.pc < 2 ^ s.env.cfg.pcW) &&
  decide (s.errIndex < 2 ^ s.env.cfg.pcW) && decide (s.cycle ≤ s.env.cfg.cycMax) &&
  s.trace.all (fun st => stampFits s.env.cfg st.issue && stampFits s.env.cfg st.wb) &&
  s.pools.tagged.all (fun x => x.2.cnt.fits s.env.cfg)

/-- What holds of every state of every run: a well-formed configuration (R11), the laws R149–R151, the
widths, `err` and `err_index` at 0 outside ERROR and a cause in `err` inside it (R40), a VALIDATE state
that differs from the reset state in `vidx` alone (R111, R114), a program validation has accepted in
RUN and DONE (R111), and the terminal condition in DONE (R76). -/
structure State.Inv (s : State) : Prop where
  cfgWf : s.env.cfg.wf = true
  lawful : s.lawful = true
  fits : s.fits = true
  errClear : s.fsm ≠ .error → s.err = .none ∧ s.errIndex = 0
  errSet : s.fsm = .error → s.err ≠ .none
  validating : s.fsm = .validate →
    s = { State.resetOf s.env with vidx := s.vidx } ∧ s.vidx ≤ s.env.progLen ∧
      s.env.validTo s.vidx = true
  running : s.fsm = .run → s.env.valid = true
  finished : s.fsm = .done → s.env.valid = true ∧ s.terminal = true

/-! ### The trace (R41, R145, R146, R152) -/

/-- What the stamps say, at the end of every step: an instruction below `pc` has an issue stamp between 1
and `cycle` (R37, R38, R95); an entry at or above `pc` was never written (R41); issue stamps rise in
program order (R146); a waiting slot's instruction has no writeback stamp (R98); a counting slot's
stamp is the cycle whose Writeback handles it (R152); stamps differ by the latency and one at least
(R145); one slot serves an instruction; and an instruction no slot serves any more was written back in
a cycle counted already. -/
structure State.TraceLaw (s : State) : Prop where
  issued : ∀ a, a < s.pc →
    ∃ st x, s.trace[a]? = some st ∧ st.issue = some x ∧ 1 ≤ x ∧ x ≤ s.cycle
  notIssued : ∀ a st, s.pc ≤ a → s.trace[a]? = some st → st.issue = none ∧ st.wb = none
  inOrder : ∀ (a b : Nat) (sa sb : Stamp) (x y : Nat), a < b → s.trace[a]? = some sa → s.trace[b]? = some sb →
    sa.issue = some x → sb.issue = some y → x < y
  waiting : ∀ t u a st, s.slot? t = some u → u.instr = some a → u.ready t.pool = false →
    s.trace[a]? = some st → st.wb = none
  counting : ∀ t u a n st, s.slot? t = some u → u.instr = some a → u.ready t.pool = true →
    u.cnt = .k n → s.trace[a]? = some st → st.wb = some (s.cycle + n + 1)
  gap : ∀ a st x y i, s.trace[a]? = some st → st.issue = some x → st.wb = some y →
    s.env.instrAt a = some i → x + s.env.cfg.lat i.op + 1 ≤ y
  single : ∀ t t' u u' a, s.slot? t = some u → s.slot? t' = some u' → u.instr = some a →
    u'.instr = some a → t = t'
  handled : ∀ a st, a < s.pc → s.trace[a]? = some st →
    (∀ t u, s.slot? t = some u → u.instr ≠ some a) → ∃ y, st.wb = some y ∧ y ≤ s.cycle

/-! ### The bound on the number of cycles (R153) -/

/-- The bound of R153 as it holds in every state of a run: a counting slot that serves instruction `a`
is written back by cycle `(a + 1)·(LMAX + 1) + 1`; a RUN state that is not terminal has counted at most
`pc·(LMAX + 1)` cycles; and no run counts more than `N·(LMAX + 1) + 1`. -/
structure State.DeadlineLaw (s : State) : Prop where
  counting : ∀ t u a n, s.slot? t = some u → u.instr = some a → u.ready t.pool = true →
    u.cnt = .k n → s.cycle + n + 1 ≤ (a + 1) * (s.env.cfg.lmax + 1) + 1
  running : s.fsm = .run → s.terminal = false → s.cycle ≤ s.pc * (s.env.cfg.lmax + 1)
  bound : s.cycle ≤ s.env.progLen * (s.env.cfg.lmax + 1) + 1

/-! ### The sequential meaning (R155) -/

/-- The destination and the value an instruction writes when the registers hold `ρ`; a STORE writes no
register (R81, R109). -/
def writesValue (ρ : Nat → Val) : Instr → Option (Nat × Val)
  | .add rd rs1 rs2 => some (rd.toNat, .bin .add (ρ rs1.toNat) (ρ rs2.toNat))
  | .sub rd rs1 rs2 => some (rd.toNat, .bin .sub (ρ rs1.toNat) (ρ rs2.toNat))
  | .mul rd rs1 rs2 => some (rd.toNat, .bin .mul (ρ rs1.toNat) (ρ rs2.toNat))
  | .div rd rs1 rs2 => some (rd.toNat, .bin .div (ρ rs1.toNat) (ρ rs2.toNat))
  | .load rt off base => some (rt.toNat, .mem off base)
  | .store _ _ _ => none

/-- Register `r` after a sequential, in-order execution of the first `k` instructions: `Init(r)` for an
unwritten register, `Mem(off, base)` for every LOAD (R155). -/
def seqReg (e : Env) : Nat → Nat → Val
  | 0 => fun r => .init r
  | k + 1 => fun r =>
    match (e.instrAt k).bind (writesValue (seqReg e k)) with
    | some (d, v) => if d = r then v else seqReg e k r
    | none => seqReg e k r

/-- The address an instruction carries (R64). -/
def instrAddr? : Instr → Option Addr
  | .add _ _ _ => none
  | .sub _ _ _ => none
  | .mul _ _ _ => none
  | .div _ _ _ => none
  | .load _ off base => some { off := off, base := base }
  | .store _ off base => some { off := off, base := base }

/-- A captured operand of instruction `a` is the value program order gives its source register, or waits
on the slot of the last older instruction that writes it (R137, R138, R139). -/
def State.operandFlows (s : State) (a : Nat) (src : Option RegIdx) (o : Opnd) : Prop :=
  match src, o with
  | none, o => o = .empty
  | some r, .rdy v => v = seqReg s.env a r.toNat
  | some r, .wait t => ∃ u, s.slot? t = some u ∧ u.instr = s.env.lastWriter r.toNat a
  | some _, .empty => False

/-- Values follow program order: a resolved register holds what a sequential execution of the issued
instructions leaves in it, and every busy slot's operands and address are its instruction's (R155).
That a pending register waits on the last issued writer is a law already (R150). -/
structure State.DataflowLaw (s : State) : Prop where
  regs : ∀ r v, s.reg? r = some (.value v) → v = seqReg s.env s.pc r
  slots : ∀ t u a i, s.slot? t = some u → u.instr = some a → s.env.instrAt a = some i →
    s.operandFlows a i.srcJ u.j ∧ s.operandFlows a i.srcK u.k ∧ u.addr = instrAddr? i

/-! ### The part of a state that holds no value (R154) -/

/-- An operand without its value. -/
def Opnd.skeleton : Opnd → Opnd
  | .empty => .empty
  | .rdy _ => .rdy (.init 0)
  | .wait t => .wait t

/-- A register status without its value. -/
def RegStatus.skeleton : RegStatus → RegStatus
  | .value _ => .value (.init 0)
  | .pending t => .pending t

/-- A slot without its values. -/
def Slot.skeleton (u : Slot) : Slot := { u with j := u.j.skeleton, k := u.k.skeleton }

/-- A state with every value replaced by one fixed term: what R154 lists, `fsm`, `pc`, `cycle`, `stall`,
the stamps, every slot's `busy`, `op`, `cnt`, `fresh` and `instr`, and the tag part of each operand and
register, stays. -/
def State.skeleton (s : State) : State :=
  { s with
    rf := s.rf.map RegStatus.skeleton
    pools := s.pools.mapSlots fun _ u => u.skeleton }

/-- An outcome without values. -/
def skeletonOf : Host.Outcome State Fault Refusal → Host.Outcome State Fault Refusal
  | .next s => .next s.skeleton
  | .fault r => .fault r
  | .refused r => .refused r

end Sys2Proof.Machine
end

