-- ==== Sys2Proof/Certificates/Slice0/Obligations.lean ====
section
/-! DEFINITION. The statements for the provers, each a proposition, none proved here. The docstring of each
says which rule of the spec it formalises. -/

open Sys2Proof Sys2Proof.Machine

/-! ### Terms of the statements -/

namespace Sys2Proof.Claims

/-- `w[hi:lo]` of R12, by arithmetic on the number `w` is. -/
def bits (w : Word) (hi lo : Nat) : Nat := w.toNat / 2 ^ lo % 2 ^ (hi - lo + 1)

/-- The four cases of R66. -/
def Malformed (w : Word) : Prop :=
  bits w 31 29 = 6 ∨ bits w 31 29 = 7 ∨
  (bits w 31 29 ≤ 3 ∧ bits w 13 0 ≠ 0) ∨
  ((bits w 31 29 = 4 ∨ bits w 31 29 = 5) ∧ bits w 17 16 ≠ 0) ∨
  ((bits w 31 29 = 4 ∨ bits w 31 29 = 5) ∧ bits w 23 23 = 1 ∧ bits w 22 18 ≠ 0)

/-- The cases of R67 for a word that is not malformed. -/
def OutOfRange (c : Config) (w : Word) : Prop :=
  (bits w 31 29 ≤ 3 ∧ (bits w 28 24 ≥ c.nReg ∨ bits w 23 19 ≥ c.nReg ∨ bits w 18 14 ≥ c.nReg)) ∨
  ((bits w 31 29 = 4 ∨ bits w 31 29 = 5) ∧ bits w 28 24 ≥ c.nReg) ∨
  ((bits w 31 29 = 4 ∨ bits w 31 29 = 5) ∧ bits w 23 23 = 0 ∧ bits w 22 18 ≥ c.nBase)

/-- A register status is resolved when it is a value (R26). -/
def resolved : RegStatus → Bool
  | .value _ => true
  | .pending _ => false

/-- The successful issue of an arithmetic instruction `i` with operator `o`, pool `p` and latency `lat`
(R88, R94–R99, R102), from every state with registers and a trace of the right size, `pc` inside the
trace, operands in range and a free slot: `exec` answers a next state `u`; the lowest free slot holds
the operation and the captured sources; its countdown is loaded and stamped at once if both sources are
resolved and otherwise stays INF and unstamped; the destination waits on that slot; the issue cycle is
stamped; `pc` advances and `stall` is 0. -/
def ArithIssue (i : Instr) (o : ArithOp) (p : Pool) (lat : Config → Nat) (rd rs1 rs2 : RegIdx) : Prop :=
  ∀ (s : State) (n : Nat) (x y : RegStatus) (old : Stamp),
    s.shapeOk = true → s.trace[s.pc]? = some old → i.wf s.env.cfg = true →
    s.reg? rs1.toNat = some x → s.reg? rs2.toNat = some y →
    s.findFree p = some n →
    ∃ u, exec i s = .next u ∧
      u.slot? ⟨p, n⟩ = some
        { busy := true
          op := some (.arith o)
          j := x.capture
          k := y.capture
          addr := none
          cnt := if resolved x && resolved y then .k (lat s.env.cfg) else .inf
          fresh := resolved x && resolved y
          instr := some s.pc } ∧
      u.reg? rd.toNat = some (.pending ⟨p, n⟩) ∧
      u.trace[s.pc]? = some
        { issue := some s.cycle
          wb := if resolved x && resolved y then some (s.cycle + lat s.env.cfg + 1) else old.wb } ∧
      u.pc = s.pc + 1 ∧ u.stall = false

/-- What an attempt of an instruction of pool `p` leaves unchanged when it answers `u` (R27, R88, R92):
the parameters, the program store among them; `fsm`, `vidx`, `cycle`, `err` and `err_index`; every slot
but the one `find_free` chose; every trace entry but that of `pc`; every register but `dest`. -/
def AttemptFrame (s u : State) (p : Pool) (dest : Option Nat) : Prop :=
  u.env = s.env ∧ u.fsm = s.fsm ∧ u.vidx = s.vidx ∧ u.cycle = s.cycle ∧ u.err = s.err ∧
  u.errIndex = s.errIndex ∧
  (∀ t : Tag, (∀ n, s.findFree p = some n → t ≠ ⟨p, n⟩) → u.slot? t = s.slot? t) ∧
  (∀ a, a ≠ s.pc → u.trace[a]? = s.trace[a]?) ∧
  (∀ r, dest ≠ some r → u.reg? r = s.reg? r)

/-- What validation makes of a word it refuses with `e`, at the index it has reached (R114). -/
def ValidationRaises (c : Config) (w : Word) (e : Err) : Prop :=
  ∀ s : State, s.env.cfg = c → c.wf = true → s.lawful = true → s.fsm = .validate →
    s.env.progLen ≤ c.progMax → s.env.word? s.vidx = some w →
    step s = .next { s with fsm := .error, err := e, errIndex := s.vidx }

end Sys2Proof.Claims

open Sys2Proof.Claims

/-! ### Encoding -/

/-- 30_encoding.md: the decoder gives back every well-formed instruction from its word, every operand at
every value its field admits. -/
def Obligations.DecodeOfEncode : Prop :=
  ∀ (c : Config) (i : Instr), i.wf c = true → decode c (encode i) = .ok i

/-- 30_encoding.md: a word the decoder accepts is the word of the instruction it reads, so no accepted
word has a bit the instruction does not carry. -/
def Obligations.EncodeOfDecode : Prop :=
  ∀ (c : Config) (w : Word) (i : Instr), decode c w = .ok i → encode i = w

/-- R72, its eight words, with the text each stands for and the instruction read from it where every
register and base index is in range. -/
def Obligations.WordsOfTheSpecDecode : Prop :=
  ∀ c : Config, c.nReg = 32 → c.nBase = 32 →
    (decode c 0x40110000 = .ok (.mul 0 2 4) ∧ (Instr.mul 0 2 4).asm = "MUL F0,F2,F4") ∧
    (decode c 0x06428000 = .ok (.add 6 8 10) ∧ (Instr.add 6 8 10).asm = "ADD F6,F8,F10") ∧
    (decode c 0x24320000 = .ok (.sub 4 6 8) ∧ (Instr.sub 4 6 8).asm = "SUB F4,F6,F8") ∧
    (decode c 0x6A018000 = .ok (.div 10 0 6) ∧ (Instr.div 10 0 6).asm = "DIV F10,F0,F6") ∧
    (decode c 0x86080022 = .ok (.load 6 34 (.reg 2)) ∧
      (Instr.load 6 34 (.reg 2)).asm = "LOAD F6,34,R2") ∧
    (decode c 0x820C002D = .ok (.load 2 45 (.reg 3)) ∧
      (Instr.load 2 45 (.reg 3)).asm = "LOAD F2,45,R3") ∧
    (decode c 0xA6800000 = .ok (.store 6 0 .zero) ∧
      (Instr.store 6 0 .zero).asm = "STORE F6,0,0") ∧
    (decode c 0xA4040064 = .ok (.store 4 100 (.reg 1)) ∧
      (Instr.store 4 100 (.reg 1)).asm = "STORE F4,100,R1")

/-- R66 and R68: the decoder answers ParseError for exactly the words in one of the four cases of R66,
whatever their operands, and validation raises it for them. -/
def Obligations.MalformedWordsAreParseErrors : Prop :=
  ∀ (c : Config) (w : Word), (decode c w = .err .parseError ↔ Malformed w) ∧
    (Malformed w → ValidationRaises c w .parseError)

/-- R67 and R68: it answers InvalidOperandError for exactly the words that are not malformed and have an
operand out of range, and validation raises it for them. -/
def Obligations.OutOfRangeWordsAreOperandErrors : Prop :=
  ∀ (c : Config) (w : Word),
    (decode c w = .err .invalidOperandError ↔ ¬ Malformed w ∧ OutOfRange c w) ∧
    (¬ Malformed w → OutOfRange c w → ValidationRaises c w .invalidOperandError)

/-- 10_state.md R22: under a well-formed configuration the six-bit code of a tag that names a slot tells
its pool and its index. -/
def Obligations.TagCodesAreDistinct : Prop :=
  ∀ (c : Config) (t t' : Tag), c.wf = true → t.idx < c.cap t.pool → t'.idx < c.cap t'.pool →
    t.code = t'.code → t = t'

/-! ### The sequencer -/

/-- R73, R74, R90: in a cycle, the step is the Issue attempt `exec` of the instruction decoded from the
word at `pc`, made in the state the cycle's Writeback phase leaves, followed by Execute. Where `exec`
stops, so does the step. -/
def Obligations.StepRunsTheDecodedInstruction : Prop :=
  ∀ (s : State) (w : Word) (i : Instr),
    s.env.cfg.wf = true → s.lawful = true → s.executes = true →
    s.env.word? s.pc = some w → decode s.env.cfg w = .ok i →
    (∀ u, exec i s.afterWriteback = .next u → step s = .next u.executePhase) ∧
    (∀ r, exec i s.afterWriteback = .fault r → step s = .fault r) ∧
    (∀ r, exec i s.afterWriteback = .refused r → step s = .refused r)

/-- R74, R75, R88: in the drain phase a cycle is Writeback, clearing `stall`, and Execute. -/
def Obligations.DrainCycleIssuesNothing : Prop :=
  ∀ s : State, s.env.cfg.wf = true → s.lawful = true → s.executes = true →
    s.pc = s.env.progLen →
    step s = .next ({ s.afterWriteback with stall := false } : State).executePhase

/-- 40_sequencer.md R74, R76: `pc = N` with every slot free ends the run before any cycle is counted and
before the overflow test. -/
def Obligations.TerminalStepEndsTheRun : Prop :=
  ∀ s : State, s.env.cfg.wf = true → s.lawful = true → s.fsm = .run → s.pc = s.env.progLen →
    (∀ t u, s.slot? t = some u → u.busy = false) →
    step s = .next { s with fsm := .done }

/-- R77: DONE is final; a step there changes nothing and only reset leaves it. -/
def Obligations.DoneIsFinal : Prop :=
  ∀ s : State, s.env.cfg.wf = true → s.lawful = true → s.fsm = .done →
    clockEdge false s = .next s ∧ clockEdge true s = .next (State.resetOf s.env)

/-- R119: ERROR is final, whatever its cause; a step there changes nothing, `err` and `err_index`
included, only reset leaves it, and it is a fault and no good final state. -/
def Obligations.ErrorIsFinal : Prop :=
  ∀ s : State, s.env.cfg.wf = true → s.lawful = true → s.fsm = .error →
    clockEdge false s = .next s ∧ clockEdge true s = .next (State.resetOf s.env) ∧
    s.isFault = true ∧ s.goodFinal = false

/-- 60_exceptions.md R111, the step of VALIDATE in its order: the length check, the end test, one word. -/
def Obligations.ValidateStepChecksOneWord : Prop :=
  ∀ s : State, s.env.cfg.wf = true → s.lawful = true → s.fsm = .validate →
    (s.env.cfg.progMax < s.env.progLen →
      step s = .next { s with fsm := .error, err := .parseError, errIndex := s.env.cfg.progMax }) ∧
    (s.env.progLen ≤ s.env.cfg.progMax → s.vidx = s.env.progLen →
      step s = .next { s with fsm := .run }) ∧
    (∀ w, s.env.progLen ≤ s.env.cfg.progMax → s.env.word? s.vidx = some w →
      (decode s.env.cfg w = .err .parseError →
        step s = .next { s with fsm := .error, err := .parseError, errIndex := s.vidx }) ∧
      (decode s.env.cfg w = .err .invalidOperandError →
        step s = .next { s with fsm := .error, err := .invalidOperandError, errIndex := s.vidx }) ∧
      (∀ i, decode s.env.cfg w = .ok i → step s = .next { s with vidx := s.vidx + 1 }))

/-- 60_exceptions.md R111: a valid program of N words moves to RUN after N + 1 steps, every other state
element but `vidx` at its reset value. -/
def Obligations.ValidProgramReachesRun : Prop :=
  ∀ e : Env, e.cfg.wf = true → e.valid = true →
    stepN (e.progLen + 1) (State.resetOf e) =
      .next { State.resetOf e with fsm := .run, vidx := e.progLen }

/-- 60_exceptions.md R113, R114, R115: a program that is not too long and whose first word that validation
refuses stands at index `a` ends in ERROR after `a + 1` steps with that word's error and index, every
other state element but `vidx` at its reset value. -/
def Obligations.FirstBadWordIsReported : Prop :=
  ∀ (e : Env) (a : Nat) (w : Word) (d : DecodeError),
    e.cfg.wf = true → e.progLen ≤ e.cfg.progMax → e.validTo a = true →
    e.word? a = some w → decode e.cfg w = .err d →
    stepN (a + 1) (State.resetOf e) =
      .next { State.resetOf e with fsm := .error, vidx := a, err := errOf d, errIndex := a }

/-- 60_exceptions.md R113, R116, 40_sequencer.md R74: a RUN step that is not terminal raises CycleOverflow
at `pc` when `cycle + LMAX + 2 > CYC_MAX`, before any phase of the cycle. -/
def Obligations.CycleOverflowIsRaised : Prop :=
  ∀ s : State, s.env.cfg.wf = true → s.lawful = true → s.fsm = .run → s.terminal = false →
    2 ^ s.env.cfg.cycW - 1 < s.cycle + s.env.cfg.lmax + 2 →
    step s = .next { s with fsm := .error, err := .cycleOverflow, errIndex := s.pc }

/-- R133: reset takes priority over the step, whatever the state holds, gives every state element its
reset value and keeps it while `rst` stays 1; with `rst = 0` the edge is the step, from the reset state
the first of VALIDATE. -/
def Obligations.ResetTakesPriority : Prop :=
  ∀ s : State, s.env.cfg.wf = true →
    clockEdge true s = .next (State.resetOf s.env) ∧
    clockEdge true (State.resetOf s.env) = .next (State.resetOf s.env) ∧
    clockEdge false s = step s ∧
    clockEdge false (State.resetOf s.env) = validateStep (State.resetOf s.env)

/-- R45: the reset value of every state element, and `State.reset` is one such state. -/
def Obligations.ResetValues : Prop :=
  (∃ e, State.reset = State.resetOf e) ∧
  ∀ e : Env,
    let s := State.resetOf e
    s.fsm = .validate ∧ s.vidx = 0 ∧ s.pc = 0 ∧ s.cycle = 0 ∧ s.stall = false ∧
    s.err.code = 0 ∧ s.errIndex = 0 ∧ s.status = 0 ∧
    (∀ r, r < e.cfg.nReg → s.reg? r = some (.value (.init r))) ∧
    (∀ t : Tag, t.idx < e.cfg.cap t.pool → s.slot? t = some
      { busy := false, op := none, j := .empty, k := .empty, addr := none, cnt := .inf,
        fresh := false, instr := none }) ∧
    (∀ a, a < e.cfg.progMax → s.trace[a]? = some { issue := none, wb := none })

/-- R11, with the ranges of R9: a configuration is well formed when each of its sixteen parameters is in
its range, so none with an empty pool is; an ill-formed one has no initial state. -/
def Obligations.IllFormedConfigIsRefused : Prop :=
  (∀ c : Config, c.wf = true ↔
    (∀ n ∈ [c.nAdd, c.nMult, c.nLoad, c.nStore], 1 ≤ n ∧ n ≤ 16) ∧
    (∀ n ∈ [c.latAdd, c.latSub, c.latMul, c.latDiv, c.latLoad, c.latStore], n ≤ 2 ^ c.latW - 1) ∧
    (1 ≤ c.nReg ∧ c.nReg ≤ 32) ∧ (1 ≤ c.nBase ∧ c.nBase ≤ 32) ∧ c.progMax ≤ 2 ^ c.pcW - 1 ∧
    (1 ≤ c.pcW ∧ c.pcW ≤ 16) ∧ (2 ≤ c.cycW ∧ c.cycW ≤ 32) ∧ (1 ≤ c.latW ∧ c.latW ≤ 16)) ∧
  ∀ e : Env, e.cfg.wf = false → State.initial? e = none

/-- Every clock edge of a state with an ill-formed configuration, a reset edge included, is refused by
name. This is the model's choice (log entry 11, DEDUCED): 00_scope.md gives such a configuration no
initial state, 93_implementation_defined.md I9 no move, and neither speaks of a reset edge. -/
def Obligations.IllFormedConfigHasNoMove : Prop :=
  ∀ (s : State) (rst : Bool), s.env.cfg.wf = false → clockEdge rst s = .refused .illFormedConfig

/-- 70_reset_and_hazards.md R150, 93 I2: a state that breaks a law is a fault, no good final state, and the
step stops there by name. -/
def Obligations.BrokenLawIsAFault : Prop :=
  ∀ s : State, s.env.cfg.wf = true → s.lawful = false →
    step s = .fault .brokenInvariant ∧ s.isFault = true ∧ s.goodFinal = false

/-- 70_reset_and_hazards.md R150: a lawful state, the only kind the step goes on from, has no stale tag. Every pending
register names a busy slot that serves the last issued writer of the register; every operand that waits
names a busy slot that serves an older instruction; and at DONE every register is a value. -/
def Obligations.LawfulStatesHaveNoStaleTags : Prop :=
  ∀ s : State, s.lawful = true →
    (∀ r t, s.reg? r = some (.pending t) →
      ∃ u a, s.slot? t = some u ∧ u.busy = true ∧ u.instr = some a ∧ a < s.pc ∧
        s.env.writes a r = true ∧ ∀ b, a < b → b < s.pc → s.env.writes b r = false) ∧
    (∀ q w t, s.slot? q = some w → (w.j = .wait t ∨ w.k = .wait t) →
      ∃ u a b, s.slot? t = some u ∧ u.busy = true ∧ u.instr = some a ∧ w.instr = some b ∧ a < b) ∧
    (s.fsm = .done → ∀ r, r < s.env.cfg.nReg → ∃ v, s.reg? r = some (.value v))

/-! ### The six instructions -/

/-- 41_arithmetic.md: ADD, SUB, MUL and DIV issue, each into its pool with its own operator and latency.
This is also where the four complete. -/
def Obligations.ArithmeticInstructionsIssue : Prop :=
  ∀ rd rs1 rs2 : RegIdx,
    ArithIssue (.add rd rs1 rs2) .add .add (fun c => c.latAdd) rd rs1 rs2 ∧
    ArithIssue (.sub rd rs1 rs2) .sub .add (fun c => c.latSub) rd rs1 rs2 ∧
    ArithIssue (.mul rd rs1 rs2) .mul .mult (fun c => c.latMul) rd rs1 rs2 ∧
    ArithIssue (.div rd rs1 rs2) .div .mult (fun c => c.latDiv) rd rs1 rs2

/-- 42_memory_ops.md: LOAD issues into the lowest free load slot, ready at once, whatever any register
holds: its countdown is loaded and its writeback stamped in the issue cycle, and `F<rt>` waits on it. -/
def Obligations.LoadIssues : Prop :=
  ∀ (rt : RegIdx) (off : Offset) (base : Base) (s : State) (n : Nat) (old : Stamp),
    s.shapeOk = true → s.trace[s.pc]? = some old →
    (Instr.load rt off base).wf s.env.cfg = true → s.findFree .load = some n →
    ∃ u, exec (.load rt off base) s = .next u ∧
      u.slot? ⟨.load, n⟩ = some
        { busy := true
          op := some .load
          j := .empty
          k := .empty
          addr := some { off := off, base := base }
          cnt := .k s.env.cfg.latLoad
          fresh := true
          instr := some s.pc } ∧
      u.reg? rt.toNat = some (.pending ⟨.load, n⟩) ∧
      u.trace[s.pc]? = some
        { issue := some s.cycle, wb := some (s.cycle + s.env.cfg.latLoad + 1) } ∧
      u.pc = s.pc + 1 ∧ u.stall = false

/-- 42_memory_ops.md: STORE issues into the lowest free store slot with its value operand captured from
`F<rt>`, counts from the issue cycle if that is resolved and waits otherwise, and renames no register. -/
def Obligations.StoreIssues : Prop :=
  ∀ (rt : RegIdx) (off : Offset) (base : Base) (s : State) (n : Nat) (x : RegStatus) (old : Stamp),
    s.shapeOk = true → s.trace[s.pc]? = some old →
    (Instr.store rt off base).wf s.env.cfg = true →
    s.reg? rt.toNat = some x → s.findFree .store = some n →
    ∃ u, exec (.store rt off base) s = .next u ∧
      u.slot? ⟨.store, n⟩ = some
        { busy := true
          op := some .store
          j := x.capture
          k := .empty
          addr := some { off := off, base := base }
          cnt := if resolved x then .k s.env.cfg.latStore else .inf
          fresh := resolved x
          instr := some s.pc } ∧
      u.rf = s.rf ∧
      u.trace[s.pc]? = some
        { issue := some s.cycle
          wb := if resolved x then some (s.cycle + s.env.cfg.latStore + 1) else old.wb } ∧
      u.pc = s.pc + 1 ∧ u.stall = false

/-- The frame of ADD, SUB, MUL, DIV and LOAD: of the registers only the destination changes, and the
program store does not. -/
def Obligations.RenamingInstructionsFrame : Prop :=
  ∀ s u : State,
    (∀ rd rs1 rs2 : RegIdx,
      (exec (.add rd rs1 rs2) s = .next u → AttemptFrame s u .add (some rd.toNat)) ∧
      (exec (.sub rd rs1 rs2) s = .next u → AttemptFrame s u .add (some rd.toNat)) ∧
      (exec (.mul rd rs1 rs2) s = .next u → AttemptFrame s u .mult (some rd.toNat)) ∧
      (exec (.div rd rs1 rs2) s = .next u → AttemptFrame s u .mult (some rd.toNat))) ∧
    (∀ (rt : RegIdx) (off : Offset) (base : Base),
      exec (.load rt off base) s = .next u → AttemptFrame s u .load (some rt.toNat))

/-- The frame of STORE: no register changes, and no word of the program store, the only memory. -/
def Obligations.StoreFrame : Prop :=
  ∀ (s u : State) (rt : RegIdx) (off : Offset) (base : Base),
    exec (.store rt off base) s = .next u → AttemptFrame s u .store none

/-- R92: with no free slot in its pool, an attempt of any of the six writes only `stall`; no slot, no
register, no stamp and not `pc`, whatever the other pools hold. -/
def Obligations.FullPoolOnlyStalls : Prop :=
  ∀ (i : Instr) (s : State), s.shapeOk = true → i.wf s.env.cfg = true →
    (∀ n u, s.slot? ⟨i.op.pool, n⟩ = some u → u.busy = true) →
    exec i s = .next { s with stall := true }

/-- 60_exceptions.md R112, 90 C7: an index out of range that reaches a meaning is a fault by name. -/
def Obligations.OperandOutOfRangeFaults : Prop :=
  ∀ (i : Instr) (s : State), i.wf s.env.cfg = false → exec i s = .fault .invalidOperand

/-- R39: every executed cycle writes `stall`, to 1 exactly when `pc < N` and the pool of the instruction at
`pc` has no free slot as the cycle's Writeback left it; a step that executes no cycle keeps it. -/
def Obligations.StallMarksTheStructuralHazard : Prop :=
  ∀ s t : State, s.Inv → step s = .next t →
    (s.executes = true →
      (t.stall = true ↔
        ∃ i, s.pc < s.env.progLen ∧ s.env.instrAt s.pc = some i ∧
          ∀ n u, s.afterWriteback.slot? ⟨i.op.pool, n⟩ = some u → u.busy = true)) ∧
    (s.executes = false → t.stall = s.stall)

/-! ### Writeback and Execute -/

/-- R81: the result of a slot whose operands are resolved, term by term, and none for a store (R86). -/
def Obligations.ResultTerms : Prop :=
  (∀ (u : Slot) (o : ArithOp) (a b : Val), u.op = some (.arith o) → u.j = .rdy a → u.k = .rdy b →
    u.result .add = some (.bin o a b) ∧ u.result .mult = some (.bin o a b)) ∧
  (∀ (u : Slot) (d : Addr), u.addr = some d → u.result .load = some (.mem d.off d.base)) ∧
  (∀ u : Slot, u.result .store = none)

/-- R78 and R79: when a slot is ready and when it is complete, pool by pool; a slot loaded with `K(0)` is
complete one Execute phase later. -/
def Obligations.ReadyAndComplete : Prop :=
  (∀ (u : Slot) (p : Pool),
    u.ready p = true ↔
      u.busy = true ∧ (p = .load ∨ ((∃ v, u.j = .rdy v) ∧ (p = .store ∨ ∃ v, u.k = .rdy v)))) ∧
  (∀ (u : Slot) (p : Pool),
    u.complete p = true ↔ u.ready p = true ∧ u.cnt = .k 0 ∧ u.fresh = false) ∧
  ∀ (s : State) (t : Tag) (u : Slot), s.slot? t = some u → u.ready t.pool = true → u.cnt = .k 0 →
    u.fresh = true → ∃ u', s.executePhase.slot? t = some u' ∧ u'.complete t.pool = true

/-- R83: a broadcast writes its value into every register still waiting for its tag and leaves every other
register alone. -/
def Obligations.BroadcastResolvesRegisters : Prop :=
  ∀ (s : State) (t : Tag) (v : Val) (r : Nat),
    (s.reg? r = some (.pending t) → (s.broadcast t v).reg? r = some (.value v)) ∧
    (s.reg? r ≠ some (.pending t) → (s.broadcast t v).reg? r = s.reg? r)

/-- R84: a broadcast gives its value to every operand waiting for its tag, and starts, fresh and at the
operation's latency, the countdown of each slot that this makes ready and whose countdown was INF; the
trace entry of an instruction only such a slot serves gets its stamp, and an instruction no such slot
serves keeps its entry. -/
def Obligations.BroadcastResolvesOperands : Prop :=
  ∀ (s : State) (t : Tag) (v : Val),
    let woken : Tag → Slot → Prop := fun q u =>
      (u.j = .wait t ∨ u.k = .wait t) ∧ (u.resolve t v).ready q.pool = true ∧ u.cnt = .inf
    (∀ (q : Tag) (u : Slot), s.slot? q = some u →
      ∃ u', (s.broadcast t v).slot? q = some u' ∧
        (u.j = .wait t → u'.j = .rdy v) ∧ (u.j ≠ .wait t → u'.j = u.j) ∧
        (u.k = .wait t → u'.k = .rdy v) ∧ (u.k ≠ .wait t → u'.k = u.k) ∧
        u'.busy = u.busy ∧ u'.op = u.op ∧ u'.addr = u.addr ∧ u'.instr = u.instr ∧
        (∀ o, woken q u → u.op = some o →
          u'.cnt = .k (s.env.cfg.lat o) ∧ u'.fresh = true) ∧
        (¬ woken q u → u'.cnt = u.cnt ∧ u'.fresh = u.fresh)) ∧
    (∀ (q : Tag) (u : Slot) (a : Nat) (o : Op) (old : Stamp),
      s.slot? q = some u → woken q u → u.instr = some a → u.op = some o →
      (∀ q' u', s.slot? q' = some u' → u'.instr = some a → q' = q) →
      s.trace[a]? = some old →
      (s.broadcast t v).trace[a]? =
        some { issue := old.issue, wb := some (s.cycle + s.env.cfg.lat o + 1) }) ∧
    (∀ a : Nat, (∀ q u, s.slot? q = some u → woken q u → u.instr ≠ some a) →
      (s.broadcast t v).trace[a]? = s.trace[a]?)

/-- 40_sequencer.md R80, R83–R87: after the Writeback phase of a lawful state every slot that was complete
is free, every register that waited on one holds its result, and no operand waits on one. -/
def Obligations.CompleteSlotsAreWrittenBack : Prop :=
  ∀ (s : State) (t : Tag) (u : Slot), s.lawful = true → s.slot? t = some u →
    u.complete t.pool = true →
    s.writebackPhase.slot? t = some Slot.free ∧
    (∀ (v : Val) (r : Nat), u.result t.pool = some v → s.reg? r = some (.pending t) →
      s.writebackPhase.reg? r = some (.value v)) ∧
    (∀ (v : Val) (q : Tag) (w : Slot), u.result t.pool = some v → s.slot? q = some w →
      w.complete q.pool = false →
      ∃ w', s.writebackPhase.slot? q = some w' ∧
        (w.j = .wait t → w'.j = .rdy v) ∧ (w.k = .wait t → w'.k = .rdy v)) ∧
    (∀ (q : Tag) (w : Slot), s.writebackPhase.slot? q = some w → w.j ≠ .wait t ∧ w.k ≠ .wait t)

/-- 40_sequencer.md R80, R84: the Writeback phase of a lawful state frees no other slot: a busy slot that
was not complete stays busy with its operation, address and instruction, and its resolved operands; and
a register that held a value keeps it. -/
def Obligations.OtherSlotsKeepServing : Prop :=
  ∀ s : State, s.lawful = true →
    (∀ (t : Tag) (u : Slot), s.slot? t = some u → u.complete t.pool = false →
      ∃ u', s.writebackPhase.slot? t = some u' ∧ u'.busy = u.busy ∧ u'.op = u.op ∧
        u'.addr = u.addr ∧ u'.instr = u.instr ∧
        (∀ v, u.j = .rdy v → u'.j = .rdy v) ∧ (∀ v, u.k = .rdy v → u'.k = .rdy v) ∧
        (u.ready t.pool = true → u' = u)) ∧
    (∀ (r : Nat) (v : Val), s.reg? r = some (.value v) →
      s.writebackPhase.reg? r = some (.value v))

/-- R86: a complete store slot is released without a broadcast: handling it writes no register, no stamp
and no other slot, and no register or operand holds its tag. -/
def Obligations.StoresCompleteSilently : Prop :=
  ∀ (s : State) (n : Nat) (u : Slot), s.lawful = true → s.slot? ⟨.store, n⟩ = some u →
    u.complete .store = true →
    (s.handle ⟨.store, n⟩).rf = s.rf ∧ (s.handle ⟨.store, n⟩).trace = s.trace ∧
    (s.handle ⟨.store, n⟩).slot? ⟨.store, n⟩ = some Slot.free ∧
    (∀ t : Tag, t ≠ ⟨.store, n⟩ → (s.handle ⟨.store, n⟩).slot? t = s.slot? t) ∧
    (∀ r, s.reg? r ≠ some (.pending ⟨.store, n⟩)) ∧
    (∀ t w, s.slot? t = some w → w.j ≠ .wait ⟨.store, n⟩ ∧ w.k ≠ .wait ⟨.store, n⟩)

/-- R156: the order in which the Writeback phase handles the slots of its list cannot be observed. -/
def Obligations.WritebackOrderIsUnobservable : Prop :=
  ∀ (s : State) (order : List Tag), s.lawful = true → order.Perm s.completeTags →
    order.foldl State.handle s = s.writebackPhase

/-- R100: the Execute phase, slot by slot and at once; nothing but `fresh` and `cnt` of ready slots
changes; and in a cycle of a lawful state no complete slot is left for it. -/
def Obligations.ExecuteTicksReadySlots : Prop :=
  (∀ s u : State, s.lawful = true → issuePhase s.afterWriteback = .next u →
    ∀ t v, u.slot? t = some v → v.complete t.pool = false) ∧
  ∀ (s : State),
    (∀ (t : Tag) (u : Slot), s.slot? t = some u →
      (u.ready t.pool = true → u.fresh = true →
        s.executePhase.slot? t = some { u with fresh := false }) ∧
      (∀ n, u.ready t.pool = true → u.fresh = false → u.cnt = .k (n + 1) →
        s.executePhase.slot? t = some { u with cnt := .k n }) ∧
      (u.ready t.pool = true → u.fresh = false → (u.cnt = .k 0 ∨ u.cnt = .inf) →
        s.executePhase.slot? t = some u) ∧
      (u.ready t.pool = false → s.executePhase.slot? t = some u)) ∧
    (∀ t : Tag, s.slot? t = none → s.executePhase.slot? t = none) ∧
    s.executePhase = { s with pools := s.executePhase.pools }

/-- 40_sequencer.md R101: in an executed cycle a slot that is counting and not complete counts down by one
and changes in nothing else. -/
def Obligations.CountingSlotCountsDown : Prop :=
  ∀ (s s' : State) (t : Tag) (u : Slot) (n : Nat), s.Inv → s.executes = true →
    s.slot? t = some u → u.ready t.pool = true → u.cnt = .k (n + 1) → step s = .next s' →
    s'.slot? t = some { u with cnt := .k n }

/-! ### Laws of every run -/

/-- The reset state of every well-formed configuration and program meets every invariant below, and
`State.reset` is one. The configuration of `State.reset` is the model's choice (log entry 2). -/
def Obligations.ResetMeetsTheInvariants : Prop :=
  State.reset.Inv ∧
  ∀ e : Env, e.cfg.wf = true →
    (State.resetOf e).Inv ∧ (State.resetOf e).TraceLaw ∧ (State.resetOf e).DeadlineLaw ∧
    (State.resetOf e).DataflowLaw

/-- 60_exceptions.md R117 and 70_reset_and_hazards.md R149–R151: from every state that meets the invariant
the step answers a next state, no fault and no refusal, and that state meets the invariant again. -/
def Obligations.EveryStepGoesOnAndKeepsInv : Prop :=
  ∀ s : State, s.Inv → ∃ t, step s = .next t ∧ t.Inv

/-- 70_reset_and_hazards.md R145, R146, R152 and 10_state.md R41: every step keeps the law of the stamps. -/
def Obligations.EveryStepKeepsTheTraceLaw : Prop :=
  ∀ s t : State, s.Inv → s.TraceLaw → step s = .next t → t.TraceLaw

/-- 70_reset_and_hazards.md R153: every step keeps the bound on the cycles a run can take. -/
def Obligations.EveryStepKeepsTheDeadlines : Prop :=
  ∀ s t : State, s.Inv → s.DeadlineLaw → step s = .next t → t.DeadlineLaw

/-- 70_reset_and_hazards.md R137, R138, R139, R155: every step keeps the values of registers and captured
operands those of program order. -/
def Obligations.EveryStepKeepsTheDataflow : Prop :=
  ∀ s t : State, s.Inv → s.DataflowLaw → step s = .next t → t.DataflowLaw

/-- R155: at DONE every register holds the term a sequential, in-order execution of the program gives it.
-/
def Obligations.DoneHoldsTheSequentialResult : Prop :=
  ∀ (e : Env) (k : Nat) (t : State), e.cfg.wf = true → stepN k (State.resetOf e) = .next t →
    t.fsm = .done →
    ∀ r, r < e.cfg.nReg → t.reg? r = some (.value (seqReg e e.progLen r))

/-- 70_reset_and_hazards.md R153: every run of a valid program reaches DONE, with the last cycle within
the bound, unless CycleOverflow is raised first, and it is not raised when the bound fits the counter. -/
def Obligations.EveryValidRunEnds : Prop :=
  ∀ e : Env, e.cfg.wf = true → e.valid = true →
    ∃ k t, stepN k (State.resetOf e) = .next t ∧
      ((t.fsm = .done ∧ t.cycle ≤ e.progLen * (e.cfg.lmax + 1) + 1) ∨
        (t.fsm = .error ∧ t.err = .cycleOverflow)) ∧
      (e.progLen * (e.cfg.lmax + 1) + e.cfg.lmax + 2 ≤ e.cfg.cycMax → t.fsm = .done)

/-- 70_reset_and_hazards.md R154: control does not depend on values: two states that differ in values alone
step to states that differ in values alone, and stop alike. -/
def Obligations.ControlIgnoresValues : Prop :=
  ∀ s s' : State, s.skeleton = s'.skeleton → skeletonOf (step s) = skeletonOf (step s')

/-- R148: what a step makes of a register that waits on `g`: a step that executes no cycle leaves it; the
issue of a writer gives it that writer's tag; otherwise the broadcast of slot `g` in that cycle gives it
the slot's result; otherwise it waits on. -/
def Obligations.PendingIsReplacedInTwoWays : Prop :=
  ∀ (s t : State) (r : Nat) (g : Tag), s.Inv → step s = .next t → s.reg? r = some (.pending g) →
    (s.executes = false → t.reg? r = some (.pending g)) ∧
    (s.executes = true →
      (s.env.writes s.pc r = true → t.pc = s.pc + 1 →
        ∃ g' u', t.reg? r = some (.pending g') ∧ t.slot? g' = some u' ∧ u'.instr = some s.pc) ∧
      (¬ (s.env.writes s.pc r = true ∧ t.pc = s.pc + 1) →
        ∃ u, s.slot? g = some u ∧
          (u.complete g.pool = true →
            ∃ v, u.result g.pool = some v ∧ t.reg? r = some (.value v)) ∧
          (u.complete g.pool = false → t.reg? r = some (.pending g))))

/-- R152: a busy slot is complete, so that the next cycle's Writeback handles it, exactly when its
instruction's writeback stamp is the number of that cycle. -/
def Obligations.StampIsTheHandlingCycle : Prop :=
  ∀ (s : State) (t : Tag) (u : Slot) (a : Nat) (st : Stamp), s.Inv → s.TraceLaw →
    s.slot? t = some u → u.instr = some a → s.trace[a]? = some st →
    (u.complete t.pool = true ↔ st.wb = some (s.cycle + 1))

/-- 60_exceptions.md R128: at DONE every register is a value, every slot is free, and every instruction
has both stamps. -/
def Obligations.DoneLeavesNothingPending : Prop :=
  ∀ s : State, s.Inv → s.TraceLaw → s.fsm = .done →
    (∀ r, r < s.env.cfg.nReg → ∃ v, s.reg? r = some (.value v)) ∧
    (∀ t u, s.slot? t = some u → u = Slot.free) ∧
    (∀ a, a < s.env.progLen →
      ∃ x y, s.trace[a]? = some { issue := some x, wb := some y } ∧ x < y ∧ y ≤ s.cycle)

/-- 70_reset_and_hazards.md R151 (e): a busy slot with no older busy slot is ready, and where some slot is
busy there is such a one, so a run never deadlocks. -/
def Obligations.SomeBusySlotIsReady : Prop :=
  ∀ s : State, s.lawful = true →
    let oldest : Tag → Slot → Nat → Prop := fun t u a =>
      s.slot? t = some u ∧ u.busy = true ∧ u.instr = some a ∧
        ∀ t' u' b, s.slot? t' = some u' → u'.busy = true → u'.instr = some b → a ≤ b
    (∀ t u a, oldest t u a → u.ready t.pool = true) ∧
    ((∃ t u, s.slot? t = some u ∧ u.busy = true) → ∃ t u a, oldest t u a)

/-- R89: at most one instruction issues in a step, the one at `pc`, and `pc` advances by 1 exactly then. -/
def Obligations.IssueIsInProgramOrder : Prop :=
  ∀ s t : State, s.Inv → step s = .next t →
    (t.pc = s.pc ∨ t.pc = s.pc + 1) ∧
    (∀ (a : Nat) (x y : Stamp), s.trace[a]? = some x → t.trace[a]? = some y → x.issue ≠ y.issue →
      a = s.pc ∧ t.pc = s.pc + 1) ∧
    (t.pc = s.pc + 1 → ∃ y, t.trace[s.pc]? = some y ∧ y.issue = some t.cycle)

/-- 10_state.md R20, 20_memory.md R57: no edge of the clock writes the configuration, the program store or
its length. -/
def Obligations.ParametersNeverChange : Prop :=
  ∀ (rst : Bool) (s t : State), clockEdge rst s = .next t → t.env = s.env

/-! ### What the host reads -/

/-- R42, with the numbers it, R35 and R113 give: the fields of STATUS, from every state whose `err_index`
fits the field. -/
def Obligations.StatusFields : Prop :=
  ∀ s : State, s.errIndex < 2 ^ 16 →
    ((s.fsm = .validate ↔ bits s.status 1 0 = 0) ∧ (s.fsm = .run ↔ bits s.status 1 0 = 1) ∧
      (s.fsm = .done ↔ bits s.status 1 0 = 2) ∧ (s.fsm = .error ↔ bits s.status 1 0 = 3)) ∧
    ((s.err = .none ↔ bits s.status 3 2 = 0) ∧ (s.err = .parseError ↔ bits s.status 3 2 = 1) ∧
      (s.err = .invalidOperandError ↔ bits s.status 3 2 = 2) ∧
      (s.err = .cycleOverflow ↔ bits s.status 3 2 = 3)) ∧
    (s.stall = true ↔ bits s.status 4 4 = 1) ∧ (s.stall = false ↔ bits s.status 4 4 = 0) ∧
    bits s.status 15 5 = 0 ∧ bits s.status 31 16 = s.errIndex

/-- 10_state.md R43, 60_exceptions.md R124: from every state that meets the invariant the 32-bit registers
CYCLE and PC hold the cycle number and the program counter whole, no bit of either lost. -/
def Obligations.CycleAndPcRegisters : Prop :=
  ∀ s : State, s.Inv → s.cycleReg.toNat = s.cycle ∧ s.pcReg.toNat = s.pc

/-- 60_exceptions.md R125: the ports `done`, `error`, `prog_addr` and `prog_data`. The address is `vidx` in
VALIDATE and `pc` otherwise, and fits its port from every state that meets the invariant; the data is
the word of the program store there, in VALIDATE the one validation checks next and in RUN the one the
Issue phase fetches. -/
def Obligations.PortsShowTheState : Prop :=
  (∀ s : State,
    (s.donePort = true ↔ s.fsm = .done) ∧ (s.errorPort = true ↔ s.fsm = .error) ∧
    (s.fsm = .validate → s.progAddr = s.vidx) ∧ (s.fsm ≠ .validate → s.progAddr = s.pc) ∧
    (∀ w, s.progData = some w ↔ s.env.prog[s.progAddr]? = some w)) ∧
  ∀ s : State, s.Inv →
    s.progAddr < 2 ^ s.env.cfg.pcW ∧
    (s.fsm = .validate → s.vidx < s.env.progLen → ∃ w, s.progData = some w ∧
      ((∃ i, decode s.env.cfg w = .ok i) ↔ s.env.validTo (s.vidx + 1) = true)) ∧
    (s.fsm = .run → s.pc < s.env.progLen → ∃ w i, s.progData = some w ∧
      decode s.env.cfg w = .ok i ∧ s.env.instrAt s.pc = some i)

/-- 60_exceptions.md R126: the snapshot exposes every state element: two states of one configuration and
program with the same snapshot are the same state. -/
def Obligations.SnapshotShowsTheWholeState : Prop :=
  ∀ s t : State, s.env = t.env → s.snapshot = t.snapshot → s = t
end

