-- ==== Sys2Proof/Laws/State.lean ====
section
/-! SUPPORT. One lemma per field per update of `State`, true by unfolding the update once, so that no
later proof unfolds a record update. -/

namespace Sys2Proof.Machine

/-! ### `State.setSlot` -/
@[simp] theorem State.setSlot_env (s : State) (t : Tag) (u : Slot) :
    (s.setSlot t u).env = s.env := rfl
@[simp] theorem State.setSlot_fsm (s : State) (t : Tag) (u : Slot) :
    (s.setSlot t u).fsm = s.fsm := rfl
@[simp] theorem State.setSlot_vidx (s : State) (t : Tag) (u : Slot) :
    (s.setSlot t u).vidx = s.vidx := rfl
@[simp] theorem State.setSlot_pc (s : State) (t : Tag) (u : Slot) :
    (s.setSlot t u).pc = s.pc := rfl
@[simp] theorem State.setSlot_cycle (s : State) (t : Tag) (u : Slot) :
    (s.setSlot t u).cycle = s.cycle := rfl
@[simp] theorem State.setSlot_stall (s : State) (t : Tag) (u : Slot) :
    (s.setSlot t u).stall = s.stall := rfl
@[simp] theorem State.setSlot_err (s : State) (t : Tag) (u : Slot) :
    (s.setSlot t u).err = s.err := rfl
@[simp] theorem State.setSlot_errIndex (s : State) (t : Tag) (u : Slot) :
    (s.setSlot t u).errIndex = s.errIndex := rfl
@[simp] theorem State.setSlot_rf (s : State) (t : Tag) (u : Slot) :
    (s.setSlot t u).rf = s.rf := rfl
@[simp] theorem State.setSlot_pools (s : State) (t : Tag) (u : Slot) :
    (s.setSlot t u).pools = s.pools.modify t.pool fun l => l.set t.idx u := rfl
@[simp] theorem State.setSlot_trace (s : State) (t : Tag) (u : Slot) :
    (s.setSlot t u).trace = s.trace := rfl

/-! ### `State.release` -/
@[simp] theorem State.release_env (s : State) (t : Tag) : (s.release t).env = s.env := rfl
@[simp] theorem State.release_fsm (s : State) (t : Tag) : (s.release t).fsm = s.fsm := rfl
@[simp] theorem State.release_vidx (s : State) (t : Tag) : (s.release t).vidx = s.vidx := rfl
@[simp] theorem State.release_pc (s : State) (t : Tag) : (s.release t).pc = s.pc := rfl
@[simp] theorem State.release_cycle (s : State) (t : Tag) : (s.release t).cycle = s.cycle := rfl
@[simp] theorem State.release_stall (s : State) (t : Tag) : (s.release t).stall = s.stall := rfl
@[simp] theorem State.release_err (s : State) (t : Tag) : (s.release t).err = s.err := rfl
@[simp] theorem State.release_errIndex (s : State) (t : Tag) :
    (s.release t).errIndex = s.errIndex := rfl
@[simp] theorem State.release_rf (s : State) (t : Tag) : (s.release t).rf = s.rf := rfl
@[simp] theorem State.release_pools (s : State) (t : Tag) :
    (s.release t).pools = s.pools.modify t.pool fun l => l.set t.idx Slot.free := rfl
@[simp] theorem State.release_trace (s : State) (t : Tag) : (s.release t).trace = s.trace := rfl

/-! ### `State.rename` -/
@[simp] theorem State.rename_env (s : State) (r : RegIdx) (t : Tag) :
    (s.rename r t).env = s.env := rfl
@[simp] theorem State.rename_fsm (s : State) (r : RegIdx) (t : Tag) :
    (s.rename r t).fsm = s.fsm := rfl
@[simp] theorem State.rename_vidx (s : State) (r : RegIdx) (t : Tag) :
    (s.rename r t).vidx = s.vidx := rfl
@[simp] theorem State.rename_pc (s : State) (r : RegIdx) (t : Tag) :
    (s.rename r t).pc = s.pc := rfl
@[simp] theorem State.rename_cycle (s : State) (r : RegIdx) (t : Tag) :
    (s.rename r t).cycle = s.cycle := rfl
@[simp] theorem State.rename_stall (s : State) (r : RegIdx) (t : Tag) :
    (s.rename r t).stall = s.stall := rfl
@[simp] theorem State.rename_err (s : State) (r : RegIdx) (t : Tag) :
    (s.rename r t).err = s.err := rfl
@[simp] theorem State.rename_errIndex (s : State) (r : RegIdx) (t : Tag) :
    (s.rename r t).errIndex = s.errIndex := rfl
@[simp] theorem State.rename_rf (s : State) (r : RegIdx) (t : Tag) :
    (s.rename r t).rf = s.rf.set r.toNat (.pending t) := rfl
@[simp] theorem State.rename_pools (s : State) (r : RegIdx) (t : Tag) :
    (s.rename r t).pools = s.pools := rfl
@[simp] theorem State.rename_trace (s : State) (r : RegIdx) (t : Tag) :
    (s.rename r t).trace = s.trace := rfl

/-! ### `State.stampIssue` -/
@[simp] theorem State.stampIssue_env (s : State) : s.stampIssue.env = s.env := rfl
@[simp] theorem State.stampIssue_fsm (s : State) : s.stampIssue.fsm = s.fsm := rfl
@[simp] theorem State.stampIssue_vidx (s : State) : s.stampIssue.vidx = s.vidx := rfl
@[simp] theorem State.stampIssue_pc (s : State) : s.stampIssue.pc = s.pc := rfl
@[simp] theorem State.stampIssue_cycle (s : State) : s.stampIssue.cycle = s.cycle := rfl
@[simp] theorem State.stampIssue_stall (s : State) : s.stampIssue.stall = s.stall := rfl
@[simp] theorem State.stampIssue_err (s : State) : s.stampIssue.err = s.err := rfl
@[simp] theorem State.stampIssue_errIndex (s : State) : s.stampIssue.errIndex = s.errIndex := rfl
@[simp] theorem State.stampIssue_rf (s : State) : s.stampIssue.rf = s.rf := rfl
@[simp] theorem State.stampIssue_pools (s : State) : s.stampIssue.pools = s.pools := rfl
@[simp] theorem State.stampIssue_trace (s : State) :
    s.stampIssue.trace = s.trace.modify s.pc fun st => { st with issue := some s.cycle } := rfl

/-! ### `State.loadCountdown` -/
@[simp] theorem State.loadCountdown_env (s : State) (t : Tag) (u : Slot) :
    (s.loadCountdown t u).env = s.env := rfl
@[simp] theorem State.loadCountdown_fsm (s : State) (t : Tag) (u : Slot) :
    (s.loadCountdown t u).fsm = s.fsm := rfl
@[simp] theorem State.loadCountdown_vidx (s : State) (t : Tag) (u : Slot) :
    (s.loadCountdown t u).vidx = s.vidx := rfl
@[simp] theorem State.loadCountdown_pc (s : State) (t : Tag) (u : Slot) :
    (s.loadCountdown t u).pc = s.pc := rfl
@[simp] theorem State.loadCountdown_cycle (s : State) (t : Tag) (u : Slot) :
    (s.loadCountdown t u).cycle = s.cycle := rfl
@[simp] theorem State.loadCountdown_stall (s : State) (t : Tag) (u : Slot) :
    (s.loadCountdown t u).stall = s.stall := rfl
@[simp] theorem State.loadCountdown_err (s : State) (t : Tag) (u : Slot) :
    (s.loadCountdown t u).err = s.err := rfl
@[simp] theorem State.loadCountdown_errIndex (s : State) (t : Tag) (u : Slot) :
    (s.loadCountdown t u).errIndex = s.errIndex := rfl
@[simp] theorem State.loadCountdown_rf (s : State) (t : Tag) (u : Slot) :
    (s.loadCountdown t u).rf = s.rf := rfl
@[simp] theorem State.loadCountdown_pools (s : State) (t : Tag) (u : Slot) :
    (s.loadCountdown t u).pools = s.pools.modify t.pool fun l => l.set t.idx (u.start s.env.cfg) := rfl
@[simp] theorem State.loadCountdown_trace (s : State) (t : Tag) (u : Slot) :
    (s.loadCountdown t u).trace = stampWb s.env.cfg s.cycle u s.trace := rfl

/-! ### `State.raise` -/
@[simp] theorem State.raise_env (s : State) (e : Err) (n : Nat) : (s.raise e n).env = s.env := rfl
@[simp] theorem State.raise_fsm (s : State) (e : Err) (n : Nat) :
    (s.raise e n).fsm = .error := rfl
@[simp] theorem State.raise_vidx (s : State) (e : Err) (n : Nat) :
    (s.raise e n).vidx = s.vidx := rfl
@[simp] theorem State.raise_pc (s : State) (e : Err) (n : Nat) : (s.raise e n).pc = s.pc := rfl
@[simp] theorem State.raise_cycle (s : State) (e : Err) (n : Nat) :
    (s.raise e n).cycle = s.cycle := rfl
@[simp] theorem State.raise_stall (s : State) (e : Err) (n : Nat) :
    (s.raise e n).stall = s.stall := rfl
@[simp] theorem State.raise_err (s : State) (e : Err) (n : Nat) : (s.raise e n).err = e := rfl
@[simp] theorem State.raise_errIndex (s : State) (e : Err) (n : Nat) :
    (s.raise e n).errIndex = n := rfl
@[simp] theorem State.raise_rf (s : State) (e : Err) (n : Nat) : (s.raise e n).rf = s.rf := rfl
@[simp] theorem State.raise_pools (s : State) (e : Err) (n : Nat) :
    (s.raise e n).pools = s.pools := rfl
@[simp] theorem State.raise_trace (s : State) (e : Err) (n : Nat) :
    (s.raise e n).trace = s.trace := rfl

/-! ### `State.resolveRegisters` -/
@[simp] theorem State.resolveRegisters_env (s : State) (t : Tag) (v : Val) :
    (s.resolveRegisters t v).env = s.env := rfl
@[simp] theorem State.resolveRegisters_fsm (s : State) (t : Tag) (v : Val) :
    (s.resolveRegisters t v).fsm = s.fsm := rfl
@[simp] theorem State.resolveRegisters_vidx (s : State) (t : Tag) (v : Val) :
    (s.resolveRegisters t v).vidx = s.vidx := rfl
@[simp] theorem State.resolveRegisters_pc (s : State) (t : Tag) (v : Val) :
    (s.resolveRegisters t v).pc = s.pc := rfl
@[simp] theorem State.resolveRegisters_cycle (s : State) (t : Tag) (v : Val) :
    (s.resolveRegisters t v).cycle = s.cycle := rfl
@[simp] theorem State.resolveRegisters_stall (s : State) (t : Tag) (v : Val) :
    (s.resolveRegisters t v).stall = s.stall := rfl
@[simp] theorem State.resolveRegisters_err (s : State) (t : Tag) (v : Val) :
    (s.resolveRegisters t v).err = s.err := rfl
@[simp] theorem State.resolveRegisters_errIndex (s : State) (t : Tag) (v : Val) :
    (s.resolveRegisters t v).errIndex = s.errIndex := rfl
@[simp] theorem State.resolveRegisters_rf (s : State) (t : Tag) (v : Val) :
    (s.resolveRegisters t v).rf = s.rf.map fun x => if x = .pending t then .value v else x := rfl
@[simp] theorem State.resolveRegisters_pools (s : State) (t : Tag) (v : Val) :
    (s.resolveRegisters t v).pools = s.pools := rfl
@[simp] theorem State.resolveRegisters_trace (s : State) (t : Tag) (v : Val) :
    (s.resolveRegisters t v).trace = s.trace := rfl

/-! ### `State.resolveOperands` -/
@[simp] theorem State.resolveOperands_env (s : State) (t : Tag) (v : Val) :
    (s.resolveOperands t v).env = s.env := rfl
@[simp] theorem State.resolveOperands_fsm (s : State) (t : Tag) (v : Val) :
    (s.resolveOperands t v).fsm = s.fsm := rfl
@[simp] theorem State.resolveOperands_vidx (s : State) (t : Tag) (v : Val) :
    (s.resolveOperands t v).vidx = s.vidx := rfl
@[simp] theorem State.resolveOperands_pc (s : State) (t : Tag) (v : Val) :
    (s.resolveOperands t v).pc = s.pc := rfl
@[simp] theorem State.resolveOperands_cycle (s : State) (t : Tag) (v : Val) :
    (s.resolveOperands t v).cycle = s.cycle := rfl
@[simp] theorem State.resolveOperands_stall (s : State) (t : Tag) (v : Val) :
    (s.resolveOperands t v).stall = s.stall := rfl
@[simp] theorem State.resolveOperands_err (s : State) (t : Tag) (v : Val) :
    (s.resolveOperands t v).err = s.err := rfl
@[simp] theorem State.resolveOperands_errIndex (s : State) (t : Tag) (v : Val) :
    (s.resolveOperands t v).errIndex = s.errIndex := rfl
@[simp] theorem State.resolveOperands_rf (s : State) (t : Tag) (v : Val) :
    (s.resolveOperands t v).rf = s.rf := rfl
@[simp] theorem State.resolveOperands_pools (s : State) (t : Tag) (v : Val) :
    (s.resolveOperands t v).pools = s.pools.mapSlots fun p u => u.receive s.env.cfg p t v := rfl
@[simp] theorem State.resolveOperands_trace (s : State) (t : Tag) (v : Val) :
    (s.resolveOperands t v).trace = stampWoken s.env.cfg s.cycle (s.woken t v) s.trace := rfl

/-! ### `State.broadcast` -/
@[simp] theorem State.broadcast_env (s : State) (t : Tag) (v : Val) :
    (s.broadcast t v).env = s.env := rfl
@[simp] theorem State.broadcast_fsm (s : State) (t : Tag) (v : Val) :
    (s.broadcast t v).fsm = s.fsm := rfl
@[simp] theorem State.broadcast_vidx (s : State) (t : Tag) (v : Val) :
    (s.broadcast t v).vidx = s.vidx := rfl
@[simp] theorem State.broadcast_pc (s : State) (t : Tag) (v : Val) :
    (s.broadcast t v).pc = s.pc := rfl
@[simp] theorem State.broadcast_cycle (s : State) (t : Tag) (v : Val) :
    (s.broadcast t v).cycle = s.cycle := rfl
@[simp] theorem State.broadcast_stall (s : State) (t : Tag) (v : Val) :
    (s.broadcast t v).stall = s.stall := rfl
@[simp] theorem State.broadcast_err (s : State) (t : Tag) (v : Val) :
    (s.broadcast t v).err = s.err := rfl
@[simp] theorem State.broadcast_errIndex (s : State) (t : Tag) (v : Val) :
    (s.broadcast t v).errIndex = s.errIndex := rfl
@[simp] theorem State.broadcast_rf (s : State) (t : Tag) (v : Val) :
    (s.broadcast t v).rf = s.rf.map fun x => if x = .pending t then .value v else x := rfl
@[simp] theorem State.broadcast_pools (s : State) (t : Tag) (v : Val) :
    (s.broadcast t v).pools = s.pools.mapSlots fun p u => u.receive s.env.cfg p t v := rfl
@[simp] theorem State.broadcast_trace (s : State) (t : Tag) (v : Val) :
    (s.broadcast t v).trace = stampWoken s.env.cfg s.cycle (s.woken t v) s.trace := rfl

/-! ### `State.executePhase` -/
@[simp] theorem State.executePhase_env (s : State) : s.executePhase.env = s.env := rfl
@[simp] theorem State.executePhase_fsm (s : State) : s.executePhase.fsm = s.fsm := rfl
@[simp] theorem State.executePhase_vidx (s : State) : s.executePhase.vidx = s.vidx := rfl
@[simp] theorem State.executePhase_pc (s : State) : s.executePhase.pc = s.pc := rfl
@[simp] theorem State.executePhase_cycle (s : State) : s.executePhase.cycle = s.cycle := rfl
@[simp] theorem State.executePhase_stall (s : State) : s.executePhase.stall = s.stall := rfl
@[simp] theorem State.executePhase_err (s : State) : s.executePhase.err = s.err := rfl
@[simp] theorem State.executePhase_errIndex (s : State) :
    s.executePhase.errIndex = s.errIndex := rfl
@[simp] theorem State.executePhase_rf (s : State) : s.executePhase.rf = s.rf := rfl
@[simp] theorem State.executePhase_pools (s : State) :
    s.executePhase.pools = s.pools.mapSlots Slot.tick := rfl
@[simp] theorem State.executePhase_trace (s : State) : s.executePhase.trace = s.trace := rfl

/-! ### `State.handle` and `State.writebackPhase` leave the sequencer registers alone -/
@[simp] theorem State.handle_env (s : State) (t : Tag) : (s.handle t).env = s.env := by
  unfold State.handle; split <;> rfl
@[simp] theorem State.handle_fsm (s : State) (t : Tag) : (s.handle t).fsm = s.fsm := by
  unfold State.handle; split <;> rfl
@[simp] theorem State.handle_vidx (s : State) (t : Tag) : (s.handle t).vidx = s.vidx := by
  unfold State.handle; split <;> rfl
@[simp] theorem State.handle_pc (s : State) (t : Tag) : (s.handle t).pc = s.pc := by
  unfold State.handle; split <;> rfl
@[simp] theorem State.handle_cycle (s : State) (t : Tag) : (s.handle t).cycle = s.cycle := by
  unfold State.handle; split <;> rfl
@[simp] theorem State.handle_stall (s : State) (t : Tag) : (s.handle t).stall = s.stall := by
  unfold State.handle; split <;> rfl
@[simp] theorem State.handle_err (s : State) (t : Tag) : (s.handle t).err = s.err := by
  unfold State.handle; split <;> rfl
@[simp] theorem State.handle_errIndex (s : State) (t : Tag) : (s.handle t).errIndex = s.errIndex := by
  unfold State.handle; split <;> rfl
theorem foldl_handle_env (ts : List Tag) (s : State) :
    (ts.foldl State.handle s).env = s.env := by
  induction ts generalizing s with
  | nil => rfl
  | cons t ts ih => simp [List.foldl_cons, ih]
theorem foldl_handle_fsm (ts : List Tag) (s : State) :
    (ts.foldl State.handle s).fsm = s.fsm := by
  induction ts generalizing s with
  | nil => rfl
  | cons t ts ih => simp [List.foldl_cons, ih]
theorem foldl_handle_vidx (ts : List Tag) (s : State) :
    (ts.foldl State.handle s).vidx = s.vidx := by
  induction ts generalizing s with
  | nil => rfl
  | cons t ts ih => simp [List.foldl_cons, ih]
theorem foldl_handle_pc (ts : List Tag) (s : State) :
    (ts.foldl State.handle s).pc = s.pc := by
  induction ts generalizing s with
  | nil => rfl
  | cons t ts ih => simp [List.foldl_cons, ih]
theorem foldl_handle_cycle (ts : List Tag) (s : State) :
    (ts.foldl State.handle s).cycle = s.cycle := by
  induction ts generalizing s with
  | nil => rfl
  | cons t ts ih => simp [List.foldl_cons, ih]
theorem foldl_handle_stall (ts : List Tag) (s : State) :
    (ts.foldl State.handle s).stall = s.stall := by
  induction ts generalizing s with
  | nil => rfl
  | cons t ts ih => simp [List.foldl_cons, ih]
theorem foldl_handle_err (ts : List Tag) (s : State) :
    (ts.foldl State.handle s).err = s.err := by
  induction ts generalizing s with
  | nil => rfl
  | cons t ts ih => simp [List.foldl_cons, ih]
theorem foldl_handle_errIndex (ts : List Tag) (s : State) :
    (ts.foldl State.handle s).errIndex = s.errIndex := by
  induction ts generalizing s with
  | nil => rfl
  | cons t ts ih => simp [List.foldl_cons, ih]
@[simp] theorem State.writebackPhase_env (s : State) : s.writebackPhase.env = s.env :=
  foldl_handle_env _ _
@[simp] theorem State.writebackPhase_fsm (s : State) : s.writebackPhase.fsm = s.fsm :=
  foldl_handle_fsm _ _
@[simp] theorem State.writebackPhase_vidx (s : State) : s.writebackPhase.vidx = s.vidx :=
  foldl_handle_vidx _ _
@[simp] theorem State.writebackPhase_pc (s : State) : s.writebackPhase.pc = s.pc :=
  foldl_handle_pc _ _
@[simp] theorem State.writebackPhase_cycle (s : State) : s.writebackPhase.cycle = s.cycle :=
  foldl_handle_cycle _ _
@[simp] theorem State.writebackPhase_stall (s : State) : s.writebackPhase.stall = s.stall :=
  foldl_handle_stall _ _
@[simp] theorem State.writebackPhase_err (s : State) : s.writebackPhase.err = s.err :=
  foldl_handle_err _ _
@[simp] theorem State.writebackPhase_errIndex (s : State) : s.writebackPhase.errIndex = s.errIndex :=
  foldl_handle_errIndex _ _

/-! ### `State.afterWriteback`: the cycle is counted, the other sequencer registers stay -/
@[simp] theorem State.afterWriteback_env (s : State) : s.afterWriteback.env = s.env := by
  simp [State.afterWriteback]
@[simp] theorem State.afterWriteback_fsm (s : State) : s.afterWriteback.fsm = s.fsm := by
  simp [State.afterWriteback]
@[simp] theorem State.afterWriteback_vidx (s : State) : s.afterWriteback.vidx = s.vidx := by
  simp [State.afterWriteback]
@[simp] theorem State.afterWriteback_pc (s : State) : s.afterWriteback.pc = s.pc := by
  simp [State.afterWriteback]
@[simp] theorem State.afterWriteback_cycle (s : State) : s.afterWriteback.cycle = s.cycle + 1 := by
  simp [State.afterWriteback]
@[simp] theorem State.afterWriteback_stall (s : State) : s.afterWriteback.stall = s.stall := by
  simp [State.afterWriteback]
@[simp] theorem State.afterWriteback_err (s : State) : s.afterWriteback.err = s.err := by
  simp [State.afterWriteback]
@[simp] theorem State.afterWriteback_errIndex (s : State) : s.afterWriteback.errIndex = s.errIndex := by
  simp [State.afterWriteback]

/-! ### `State.resetOf` -/
@[simp] theorem State.resetOf_env (e : Env) :
    (State.resetOf e).env = e := rfl
@[simp] theorem State.resetOf_fsm (e : Env) :
    (State.resetOf e).fsm = .validate := rfl
@[simp] theorem State.resetOf_vidx (e : Env) :
    (State.resetOf e).vidx = 0 := rfl
@[simp] theorem State.resetOf_pc (e : Env) :
    (State.resetOf e).pc = 0 := rfl
@[simp] theorem State.resetOf_cycle (e : Env) :
    (State.resetOf e).cycle = 0 := rfl
@[simp] theorem State.resetOf_stall (e : Env) :
    (State.resetOf e).stall = false := rfl
@[simp] theorem State.resetOf_err (e : Env) :
    (State.resetOf e).err = .none := rfl
@[simp] theorem State.resetOf_errIndex (e : Env) :
    (State.resetOf e).errIndex = 0 := rfl
@[simp] theorem State.resetOf_rf (e : Env) :
    (State.resetOf e).rf = (List.range e.cfg.nReg).map fun r => .value (.init r) := rfl
@[simp] theorem State.resetOf_trace (e : Env) :
    (State.resetOf e).trace = List.replicate e.cfg.progMax { issue := none, wb := none } := rfl

end Sys2Proof.Machine
end

