-- ==== Sys2Proof/Laws/Pools.lean ====
section
/-! SUPPORT. What the pool operations do to `slot?`, and what the searches over the pools find. -/

namespace Sys2Proof.Machine

theorem Pools.get_modify (q : Pools) (p p' : Pool) (f : List Slot → List Slot) :
    (q.modify p f).get p' = if p' = p then f (q.get p) else q.get p' := by
  cases p <;> cases p' <;> rfl

@[simp] theorem Pools.get_mapSlots (q : Pools) (f : Pool → Slot → Slot) (p : Pool) :
    (q.mapSlots f).get p = (q.get p).map (f p) := by
  cases p <;> rfl

theorem State.slot?_def (s : State) (t : Tag) : s.slot? t = (s.pools.get t.pool)[t.idx]? := rfl

/-- Two states with the same pools have the same slots. -/
theorem State.slot?_congr {s s' : State} (h : s.pools = s'.pools) (t : Tag) :
    s.slot? t = s'.slot? t := by simp [State.slot?, h]

/-- A write to one slot, when the slot exists. -/
theorem slot?_modify_set (q : Pools) (p : Pool) (i : Nat) (t' : Tag) (u : Slot) :
    ((q.modify p fun l => l.set i u).get t'.pool)[t'.idx]? =
      if t' = ⟨p, i⟩ then ((q.get p)[i]?).map (fun _ => u) else (q.get t'.pool)[t'.idx]? := by
  rcases t' with ⟨p', i'⟩
  rw [Pools.get_modify]
  by_cases hp : p' = p
  · subst hp
    by_cases hi : i' = i
    · subst hi
      simp [List.getElem?_set]
      by_cases hl : i' < (q.get p').length <;> simp [hl]
    · have hi' : ¬ i = i' := fun h => hi h.symm
      simp [hi, hi']
  · simp [hp]

theorem State.setSlot_slot? (s : State) (t t' : Tag) (u : Slot) :
    (s.setSlot t u).slot? t' = if t' = t then (s.slot? t).map (fun _ => u) else s.slot? t' :=
  slot?_modify_set s.pools t.pool t.idx t' u

theorem State.release_slot? (s : State) (t t' : Tag) :
    (s.release t).slot? t' =
      if t' = t then (s.slot? t).map (fun _ => Slot.free) else s.slot? t' :=
  slot?_modify_set s.pools t.pool t.idx t' Slot.free

theorem State.loadCountdown_slot? (s : State) (t t' : Tag) (u : Slot) :
    (s.loadCountdown t u).slot? t' =
      if t' = t then (s.slot? t).map (fun _ => u.start s.env.cfg) else s.slot? t' :=
  slot?_modify_set s.pools t.pool t.idx t' (u.start s.env.cfg)

theorem State.broadcast_slot? (s : State) (t t' : Tag) (v : Val) :
    (s.broadcast t v).slot? t' = (s.slot? t').map (Slot.receive s.env.cfg t'.pool t v) := by
  simp [State.slot?]

theorem State.executePhase_slot? (s : State) (t : Tag) :
    s.executePhase.slot? t = (s.slot? t).map (Slot.tick t.pool) := by
  simp [State.slot?]

/-! ### Searches -/

theorem Pools.mem_taggedOf (q : Pools) (p : Pool) (t : Tag) (u : Slot) :
    (t, u) ∈ q.taggedOf p ↔ t.pool = p ∧ (q.get p)[t.idx]? = some u := by
  rcases t with ⟨p', i⟩
  simp only [Pools.taggedOf, List.mem_map, Prod.exists, List.mem_zipIdx_iff_getElem?]
  constructor
  · rintro ⟨a, b, h, he⟩
    cases he
    exact ⟨rfl, h⟩
  · rintro ⟨rfl, h⟩
    exact ⟨u, i, h, rfl⟩

/-- Every slot stands in the tagged list, under its tag. -/
theorem State.mem_tagged (s : State) (t : Tag) (u : Slot) :
    (t, u) ∈ s.pools.tagged ↔ s.slot? t = some u := by
  simp only [Pools.tagged, List.mem_append, Pools.mem_taggedOf, State.slot?]
  rcases t with ⟨p, i⟩
  cases p <;> simp

theorem State.mem_completeTags (s : State) (t : Tag) :
    t ∈ s.completeTags ↔ ∃ u, s.slot? t = some u ∧ u.complete t.pool = true := by
  simp only [State.completeTags, List.mem_map, List.mem_filter, Prod.exists]
  constructor
  · rintro ⟨t', u, ⟨h, hc⟩, rfl⟩
    exact ⟨u, (s.mem_tagged _ _).1 h, hc⟩
  · rintro ⟨u, h, hc⟩
    exact ⟨t, u, ⟨(s.mem_tagged _ _).2 h, hc⟩, rfl⟩

theorem State.mem_woken (s : State) (t : Tag) (v : Val) (u : Slot) :
    u ∈ s.woken t v ↔ ∃ t', s.slot? t' = some u ∧ u.wakes t'.pool t v = true := by
  simp only [State.woken, List.mem_map, List.mem_filter, Prod.exists]
  constructor
  · rintro ⟨t', u', ⟨h, hc⟩, rfl⟩
    exact ⟨t', (s.mem_tagged _ _).1 h, hc⟩
  · rintro ⟨t', h, hc⟩
    exact ⟨t', u, ⟨(s.mem_tagged _ _).2 h, hc⟩, rfl⟩

/-- `find_free` answers the lowest index whose slot is not busy (R91). -/
theorem State.findFree_eq_some (s : State) (p : Pool) (i : Nat) :
    s.findFree p = some i ↔
      (∃ u, s.slot? ⟨p, i⟩ = some u ∧ u.busy = false) ∧
      ∀ j u, j < i → s.slot? ⟨p, j⟩ = some u → u.busy = true := by
  simp only [State.findFree, List.findIdx?_eq_some_iff_getElem, State.slot?]
  constructor
  · rintro ⟨h, hb, hl⟩
    refine ⟨⟨_, List.getElem?_eq_getElem h, by simpa using hb⟩, ?_⟩
    intro j u hj hu
    obtain ⟨hlt, he⟩ := List.getElem?_eq_some_iff.1 hu
    have := hl j hj
    simp only [he] at this
    simpa using this
  · rintro ⟨⟨u, hu, hb⟩, hl⟩
    obtain ⟨hlt, he⟩ := List.getElem?_eq_some_iff.1 hu
    refine ⟨hlt, by simp [he, hb], ?_⟩
    intro j hj
    have := hl j _ hj (List.getElem?_eq_getElem (by omega))
    simp [this]

/-- `find_free` answers none exactly when every slot of the pool is busy (R91). -/
theorem State.findFree_eq_none (s : State) (p : Pool) :
    s.findFree p = none ↔ ∀ i u, s.slot? ⟨p, i⟩ = some u → u.busy = true := by
  simp only [State.findFree, List.findIdx?_eq_none_iff, State.slot?]
  constructor
  · intro h i u hu
    simpa using h u (List.mem_of_getElem? hu)
  · intro h u hu
    obtain ⟨i, hi⟩ := List.getElem?_of_mem hu
    simp [h i u hi]

theorem State.allFree_iff (s : State) :
    s.pools.allFree = true ↔ ∀ t u, s.slot? t = some u → u.busy = false := by
  simp only [Pools.allFree, Bool.and_eq_true, List.all_eq_true, Bool.not_eq_true', State.slot?]
  constructor
  · rintro ⟨⟨⟨ha, hm⟩, hl⟩, hs⟩ ⟨p, i⟩ u hu
    have hu := List.mem_of_getElem? hu
    cases p
    · exact ha _ hu
    · exact hm _ hu
    · exact hl _ hu
    · exact hs _ hu
  · intro h
    refine ⟨⟨⟨?_, ?_⟩, ?_⟩, ?_⟩ <;> intro u hu <;> obtain ⟨i, hi⟩ := List.getElem?_of_mem hu
    · exact h ⟨.add, i⟩ u hi
    · exact h ⟨.mult, i⟩ u hi
    · exact h ⟨.load, i⟩ u hi
    · exact h ⟨.store, i⟩ u hi

/-- The terminal condition (R76). -/
theorem State.terminal_iff (s : State) :
    s.terminal = true ↔
      s.pc = s.env.progLen ∧ ∀ t u, s.slot? t = some u → u.busy = false := by
  simp [State.terminal, State.allFree_iff]

/-! ### The slots of the reset state -/

/-- After reset every slot is free (R45). -/
theorem State.resetOf_slot? (e : Env) (t : Tag) (u : Slot) :
    (State.resetOf e).slot? t = some u ↔ t.idx < e.cfg.cap t.pool ∧ u = Slot.free := by
  rcases t with ⟨p, i⟩
  cases p <;>
    simp only [State.slot?, State.resetOf, Pools.get, Config.cap, List.getElem?_replicate] <;>
    split <;> simp_all [eq_comm]

end Sys2Proof.Machine
end

