-- ==== Sys2Proof/Laws/Trace.lean ====
section
/-! SUPPORT. What the stamping operations do to one trace entry. -/

namespace Sys2Proof.Machine

/-- `stampWb` writes the entry of the instruction the slot serves and no other (R99). -/
theorem stampWb_getElem? (cfg : Config) (c : Nat) (u : Slot) (tr : List Stamp) (a : Nat) :
    (stampWb cfg c u tr)[a]? =
      if u.instr = some a then (tr[a]?).map fun st => { st with wb := u.wbStamp cfg c }
      else tr[a]? := by
  unfold stampWb
  split
  · rename_i b h
    rw [List.getElem?_modify]
    by_cases hb : b = a
    · subst hb; simp [h]
    · have hn : ¬ u.instr = some a := by rw [h]; simpa using hb
      simp [hb, hn]
  · rename_i h
    simp [h]

@[simp] theorem stampWb_length (cfg : Config) (c : Nat) (u : Slot) (tr : List Stamp) :
    (stampWb cfg c u tr).length = tr.length := by
  unfold stampWb; split <;> simp

/-- `stampWoken` at one entry, by the slot found for it. -/
theorem stampWoken_getElem? (cfg : Config) (c : Nat) (w : List Slot) (tr : List Stamp) (a : Nat) :
    (stampWoken cfg c w tr)[a]? =
      (tr[a]?).map fun st =>
        match w.find? fun u => u.instr == some a with
        | some u => { st with wb := u.wbStamp cfg c }
        | none => st := by
  unfold stampWoken
  rw [List.getElem?_map, List.getElem?_zipIdx, Option.map_map, Nat.zero_add]
  cases tr[a]? <;> rfl

@[simp] theorem stampWoken_length (cfg : Config) (c : Nat) (w : List Slot) (tr : List Stamp) :
    (stampWoken cfg c w tr).length = tr.length := by
  simp [stampWoken]

/-- An instruction no woken slot serves keeps its entry (R84). -/
theorem stampWoken_of_not_served {cfg : Config} {c : Nat} {w : List Slot} {tr : List Stamp} {a : Nat}
    (h : ∀ u ∈ w, u.instr ≠ some a) : (stampWoken cfg c w tr)[a]? = tr[a]? := by
  have hf : (w.find? fun u => u.instr == some a) = none := by
    rw [List.find?_eq_none]
    intro u hu
    simpa using h u hu
  rw [stampWoken_getElem?, hf]
  simp

/-- An instruction a woken slot serves gets that slot's stamp, when all that serve it agree (R84, R99). -/
theorem stampWoken_of_served {cfg : Config} {c : Nat} {w : List Slot} {tr : List Stamp} {a : Nat}
    {u : Slot} (hu : u ∈ w) (ha : u.instr = some a)
    (hall : ∀ u' ∈ w, u'.instr = some a → u'.op = u.op) :
    (stampWoken cfg c w tr)[a]? = (tr[a]?).map fun st => { st with wb := u.wbStamp cfg c } := by
  rw [stampWoken_getElem?]
  cases hf : w.find? fun u => u.instr == some a with
  | none =>
    rw [List.find?_eq_none] at hf
    exact absurd ha (by simpa using hf u hu)
  | some u' =>
    have hm := List.mem_of_find?_eq_some hf
    have hs := List.find?_some hf
    have ho := hall u' hm (by simpa using hs)
    simp [Slot.wbStamp, ho]

end Sys2Proof.Machine
end

