-- ==== Sys2Proof/Laws/Slots.lean ====
section
/-! SUPPORT. What the operations on one slot and one operand do. -/

namespace Sys2Proof.Machine

/-! ### Operands -/

@[simp] theorem Opnd.resolve_empty (t : Tag) (v : Val) : Opnd.empty.resolve t v = .empty := rfl

@[simp] theorem Opnd.resolve_rdy (t : Tag) (v w : Val) : (Opnd.rdy w).resolve t v = .rdy w := rfl

theorem Opnd.resolve_wait (t t' : Tag) (v : Val) :
    (Opnd.wait t').resolve t v = if t' = t then .rdy v else .wait t' := by
  simp [Opnd.resolve]

@[simp] theorem Opnd.resolve_wait_self (t : Tag) (v : Val) : (Opnd.wait t).resolve t v = .rdy v := by
  simp [Opnd.resolve]

theorem Opnd.resolve_of_ne {t : Tag} {v : Val} {o : Opnd} (h : o ≠ .wait t) : o.resolve t v = o := by
  simp [Opnd.resolve, h]

theorem Opnd.isRdy_resolve_of_isRdy {t : Tag} {v : Val} {o : Opnd} (h : o.isRdy = true) :
    o.resolve t v = o := by
  cases o <;> simp_all [Opnd.isRdy]

theorem Opnd.isRdy_iff (o : Opnd) : o.isRdy = true ↔ ∃ v, o = .rdy v := by
  cases o <;> simp [Opnd.isRdy]

theorem Opnd.resolve_eq_empty (t : Tag) (v : Val) (o : Opnd) : o.resolve t v = .empty ↔ o = .empty := by
  cases o <;> simp [Opnd.resolve]
  split <;> simp

theorem Opnd.resolve_eq_wait (t t' : Tag) (v : Val) (o : Opnd) :
    o.resolve t v = .wait t' ↔ o = .wait t' ∧ t' ≠ t := by
  cases o with
  | empty => simp
  | rdy w => simp
  | wait t'' =>
    rw [Opnd.resolve_wait]
    by_cases h : t'' = t
    · subst h; simp; intro h; exact h.symm
    · simp [h]; rintro rfl; exact h

/-! ### `start` -/

@[simp] theorem Slot.start_busy (c : Config) (u : Slot) : (u.start c).busy = u.busy := by
  unfold Slot.start; split <;> rfl
@[simp] theorem Slot.start_op (c : Config) (u : Slot) : (u.start c).op = u.op := by
  unfold Slot.start; split <;> rfl
@[simp] theorem Slot.start_j (c : Config) (u : Slot) : (u.start c).j = u.j := by
  unfold Slot.start; split <;> rfl
@[simp] theorem Slot.start_k (c : Config) (u : Slot) : (u.start c).k = u.k := by
  unfold Slot.start; split <;> rfl
@[simp] theorem Slot.start_addr (c : Config) (u : Slot) : (u.start c).addr = u.addr := by
  unfold Slot.start; split <;> rfl
@[simp] theorem Slot.start_instr (c : Config) (u : Slot) : (u.start c).instr = u.instr := by
  unfold Slot.start; split <;> rfl
theorem Slot.start_of_op {c : Config} {u : Slot} {o : Op} (h : u.op = some o) :
    u.start c = { u with cnt := .k (c.lat o), fresh := true } := by
  simp [Slot.start, h]

/-! ### `resolve` and `receive` -/

@[simp] theorem Slot.resolve_j (t : Tag) (v : Val) (u : Slot) : (u.resolve t v).j = u.j.resolve t v := rfl
@[simp] theorem Slot.resolve_k (t : Tag) (v : Val) (u : Slot) : (u.resolve t v).k = u.k.resolve t v := rfl
@[simp] theorem Slot.resolve_busy (t : Tag) (v : Val) (u : Slot) : (u.resolve t v).busy = u.busy := rfl
@[simp] theorem Slot.resolve_op (t : Tag) (v : Val) (u : Slot) : (u.resolve t v).op = u.op := rfl
@[simp] theorem Slot.resolve_addr (t : Tag) (v : Val) (u : Slot) : (u.resolve t v).addr = u.addr := rfl
@[simp] theorem Slot.resolve_cnt (t : Tag) (v : Val) (u : Slot) : (u.resolve t v).cnt = u.cnt := rfl
@[simp] theorem Slot.resolve_fresh (t : Tag) (v : Val) (u : Slot) : (u.resolve t v).fresh = u.fresh := rfl
@[simp] theorem Slot.resolve_instr (t : Tag) (v : Val) (u : Slot) : (u.resolve t v).instr = u.instr := rfl

@[simp] theorem Slot.receive_busy (c : Config) (p : Pool) (t : Tag) (v : Val) (u : Slot) :
    (u.receive c p t v).busy = u.busy := by unfold Slot.receive; split <;> simp
@[simp] theorem Slot.receive_op (c : Config) (p : Pool) (t : Tag) (v : Val) (u : Slot) :
    (u.receive c p t v).op = u.op := by unfold Slot.receive; split <;> simp
@[simp] theorem Slot.receive_j (c : Config) (p : Pool) (t : Tag) (v : Val) (u : Slot) :
    (u.receive c p t v).j = u.j.resolve t v := by unfold Slot.receive; split <;> simp
@[simp] theorem Slot.receive_k (c : Config) (p : Pool) (t : Tag) (v : Val) (u : Slot) :
    (u.receive c p t v).k = u.k.resolve t v := by unfold Slot.receive; split <;> simp
@[simp] theorem Slot.receive_addr (c : Config) (p : Pool) (t : Tag) (v : Val) (u : Slot) :
    (u.receive c p t v).addr = u.addr := by unfold Slot.receive; split <;> simp
@[simp] theorem Slot.receive_instr (c : Config) (p : Pool) (t : Tag) (v : Val) (u : Slot) :
    (u.receive c p t v).instr = u.instr := by unfold Slot.receive; split <;> simp

/-- A slot that waits on nothing from `t` is not changed by the broadcast of `t` (R84). -/
theorem Slot.receive_of_not_waitsOn {c : Config} {p : Pool} {t : Tag} {v : Val} {u : Slot}
    (h : u.waitsOn t = false) : u.receive c p t v = u := by
  have h' : u.j ≠ .wait t ∧ u.k ≠ .wait t := by
    simpa [Slot.waitsOn, Bool.or_eq_false_iff] using h
  have hr : u.resolve t v = u := by
    rcases u with ⟨b, o, j, k, ad, cn, fr, ins⟩
    simp only [Slot.resolve] at *
    simp [Opnd.resolve_of_ne h'.1, Opnd.resolve_of_ne h'.2]
  simp [Slot.receive, Slot.wakes, h, hr]

theorem Slot.waitsOn_iff (t : Tag) (u : Slot) : u.waitsOn t = true ↔ u.j = .wait t ∨ u.k = .wait t := by
  simp [Slot.waitsOn]

/-- The slot `receive` makes, where the broadcast wakes it. -/
theorem Slot.receive_of_wakes {c : Config} {p : Pool} {t : Tag} {v : Val} {u : Slot} {o : Op}
    (h : u.wakes p t v = true) (ho : u.op = some o) :
    u.receive c p t v = { u.resolve t v with cnt := .k (c.lat o), fresh := true } := by
  have : (u.resolve t v).op = some o := ho
  simp [Slot.receive, h, Slot.start_of_op this]

/-- The slot `receive` makes, where the broadcast does not wake it. -/
theorem Slot.receive_of_not_wakes {c : Config} {p : Pool} {t : Tag} {v : Val} {u : Slot}
    (h : u.wakes p t v = false) : u.receive c p t v = u.resolve t v := by
  simp [Slot.receive, h]

@[simp] theorem Slot.receive_free (c : Config) (p : Pool) (t : Tag) (v : Val) :
    Slot.free.receive c p t v = Slot.free := by
  apply Slot.receive_of_not_waitsOn
  simp [Slot.waitsOn, Slot.free]

/-! ### `ready` and `complete` -/

@[simp] theorem Slot.ready_free (p : Pool) : Slot.free.ready p = false := by cases p <;> rfl

@[simp] theorem Slot.complete_free (p : Pool) : Slot.free.complete p = false := by cases p <;> rfl

theorem Slot.busy_of_ready {p : Pool} {u : Slot} (h : u.ready p = true) : u.busy = true := by
  cases p <;> simp_all [Slot.ready]

/-- Readiness looks at `busy` and the operands alone (R78). -/
theorem Slot.ready_congr {u u' : Slot} (p : Pool) (hb : u.busy = u'.busy) (hj : u.j.isRdy = u'.j.isRdy)
    (hk : u.k.isRdy = u'.k.isRdy) : u.ready p = u'.ready p := by
  cases p <;> simp [Slot.ready, hb, hj, hk]

@[simp] theorem Slot.ready_start (c : Config) (p : Pool) (u : Slot) :
    (u.start c).ready p = u.ready p := by
  apply Slot.ready_congr <;> simp

theorem Slot.complete_iff (p : Pool) (u : Slot) :
    u.complete p = true ↔ u.ready p = true ∧ u.cnt = .k 0 ∧ u.fresh = false := by
  simp [Slot.complete, and_assoc]

@[simp] theorem Slot.ready_receive (c : Config) (p : Pool) (t : Tag) (v : Val) (u : Slot) (q : Pool) :
    (u.receive c p t v).ready q = (u.resolve t v).ready q := by
  apply Slot.ready_congr <;> simp

/-- A broadcast makes no slot unready (R84). -/
theorem Slot.ready_resolve_of_ready {t : Tag} {v : Val} {u : Slot} {p : Pool} (h : u.ready p = true) :
    (u.resolve t v).ready p = true := by
  cases p <;> simp only [Slot.ready, Bool.and_eq_true, Slot.resolve_busy, Slot.resolve_j,
    Slot.resolve_k] at h ⊢
  · exact ⟨⟨h.1.1, by rw [Opnd.isRdy_resolve_of_isRdy h.1.2]; exact h.1.2⟩,
      by rw [Opnd.isRdy_resolve_of_isRdy h.2]; exact h.2⟩
  · exact ⟨⟨h.1.1, by rw [Opnd.isRdy_resolve_of_isRdy h.1.2]; exact h.1.2⟩,
      by rw [Opnd.isRdy_resolve_of_isRdy h.2]; exact h.2⟩
  · exact h
  · exact ⟨h.1, by rw [Opnd.isRdy_resolve_of_isRdy h.2]; exact h.2⟩

/-! ### `tick` -/

@[simp] theorem Slot.tick_busy (p : Pool) (u : Slot) : (u.tick p).busy = u.busy := by
  unfold Slot.tick; repeat (first | rfl | split)
@[simp] theorem Slot.tick_op (p : Pool) (u : Slot) : (u.tick p).op = u.op := by
  unfold Slot.tick; repeat (first | rfl | split)
@[simp] theorem Slot.tick_j (p : Pool) (u : Slot) : (u.tick p).j = u.j := by
  unfold Slot.tick; repeat (first | rfl | split)
@[simp] theorem Slot.tick_k (p : Pool) (u : Slot) : (u.tick p).k = u.k := by
  unfold Slot.tick; repeat (first | rfl | split)
@[simp] theorem Slot.tick_addr (p : Pool) (u : Slot) : (u.tick p).addr = u.addr := by
  unfold Slot.tick; repeat (first | rfl | split)
@[simp] theorem Slot.tick_instr (p : Pool) (u : Slot) : (u.tick p).instr = u.instr := by
  unfold Slot.tick; repeat (first | rfl | split)
@[simp] theorem Slot.ready_tick (p q : Pool) (u : Slot) : (u.tick p).ready q = u.ready q := by
  apply Slot.ready_congr <;> simp

theorem Slot.tick_of_not_ready {p : Pool} {u : Slot} (h : u.ready p = false) : u.tick p = u := by
  simp [Slot.tick, h]

theorem Slot.tick_of_fresh {p : Pool} {u : Slot} (h : u.ready p = true) (hf : u.fresh = true) :
    u.tick p = { u with fresh := false } := by
  simp [Slot.tick, h, hf]

theorem Slot.tick_of_count {p : Pool} {u : Slot} {n : Nat} (h : u.ready p = true)
    (hf : u.fresh = false) (hc : u.cnt = .k (n + 1)) : u.tick p = { u with cnt := .k n } := by
  simp [Slot.tick, h, hf, hc]

@[simp] theorem Slot.tick_free (p : Pool) : Slot.free.tick p = Slot.free :=
  Slot.tick_of_not_ready (Slot.ready_free p)

end Sys2Proof.Machine
end

