-- ==== Sys2Proof/Laws/Lawful.lean ====
section
/-! SUPPORT. The check `lawful` read as a proposition, and what a lawful state's slots, operands and
registers hold. -/

namespace Sys2Proof.Machine

/-- `lawful` slot by slot and register by register (R149–R151). -/
theorem State.lawful_iff (s : State) :
    s.lawful = true ↔
      s.shapeOk = true ∧ (∀ t u, s.slot? t = some u → s.slotOk t.pool u = true) ∧
      (∀ r x, s.reg? r = some x → s.regOk r x = true) ∧ s.pc ≤ s.env.progLen ∧ s.doneOk = true := by
  simp only [State.lawful, Bool.and_eq_true, List.all_eq_true, decide_eq_true_eq, Prod.forall,
    s.mem_tagged, List.mem_zipIdx_iff_getElem?, State.reg?]
  constructor
  · rintro ⟨⟨⟨⟨h1, h2⟩, h3⟩, h4⟩, h5⟩
    exact ⟨h1, h2, fun r x hx => h3 x r hx, h4, h5⟩
  · rintro ⟨h1, h2, h3, h4, h5⟩
    exact ⟨⟨⟨⟨h1, h2⟩, fun x r hx => h3 r x hx⟩, h4⟩, h5⟩

/-- R150 at `DONE`, register by register. -/
theorem State.doneOk_iff (s : State) :
    s.doneOk = true ↔ (s.fsm = .done → ∀ r x, s.reg? r = some x → ∃ v, x = .value v) := by
  have hv : ∀ x : RegStatus, x.isValue = true ↔ ∃ v, x = .value v := fun x => by
    cases x <;> simp [RegStatus.isValue]
  simp only [State.doneOk, Bool.or_eq_true, bne_iff_ne, List.all_eq_true, hv, ← imp_iff_not_or,
    State.reg?]
  exact imp_congr_right fun _ =>
    ⟨fun h r x hx => h x (List.mem_of_getElem? hx), fun h x hx =>
      let ⟨r, hr⟩ := List.mem_iff_getElem?.1 hx
      h r x hr⟩

/-- Outside `DONE` the law of `DONE` says nothing. -/
theorem State.doneOk_of_ne {s : State} (h : s.fsm ≠ .done) : s.doneOk = true :=
  s.doneOk_iff.2 fun hd => absurd hd h

/-- The sizes of R19. -/
theorem State.shapeOk_iff (s : State) :
    s.shapeOk = true ↔
      s.rf.length = s.env.cfg.nReg ∧ (∀ p, (s.pools.get p).length = s.env.cfg.cap p) ∧
      s.trace.length = s.env.cfg.progMax := by
  simp only [State.shapeOk, Bool.and_eq_true, beq_iff_eq]
  constructor
  · rintro ⟨⟨⟨⟨⟨h1, h2⟩, h3⟩, h4⟩, h5⟩, h6⟩
    exact ⟨h1, fun p => by cases p <;> assumption, h6⟩
  · rintro ⟨h1, h2, h3⟩
    exact ⟨⟨⟨⟨⟨h1, h2 .add⟩, h2 .mult⟩, h2 .load⟩, h2 .store⟩, h3⟩

/-- R149 and R150 for an operand that waits. -/
theorem State.operandOk_wait (s : State) (served : Option Nat) (t : Tag) :
    s.operandOk served (.wait t) = true ↔
      t.pool ≠ .store ∧ ∃ u b a, s.slot? t = some u ∧ u.busy = true ∧ u.instr = some b ∧
        served = some a ∧ b < a := by
  simp only [State.operandOk, Bool.and_eq_true, bne_iff_ne, ne_eq]
  refine and_congr_right fun _ => ?_
  cases hs : s.slot? t <;> cases served <;> simp
  rename_i u a
  cases hi : u.instr <;> simp

/-- R149 and R150 for a pending register. -/
theorem State.regOk_pending (s : State) (r : Nat) (t : Tag) :
    s.regOk r (.pending t) = true ↔
      t.pool ≠ .store ∧ ∃ u b, s.slot? t = some u ∧ u.busy = true ∧ u.instr = some b ∧
        s.env.lastWriter r s.pc = some b := by
  simp only [State.regOk, Bool.and_eq_true, bne_iff_ne, ne_eq]
  refine and_congr_right fun _ => ?_
  cases hs : s.slot? t <;> simp
  rename_i u
  cases hi : u.instr <;> simp
  exact fun _ => ⟨Eq.symm, Eq.symm⟩

/-- A slot that serves an instruction of its pool (R29–R31, R37). -/
theorem State.servesOk_iff (s : State) (p : Pool) (u : Slot) :
    s.servesOk p u = true ↔
      ∃ a i, u.instr = some a ∧ a < s.pc ∧ s.env.instrAt a = some i ∧ u.op = some i.op ∧
        i.op.pool = p := by
  unfold State.servesOk
  cases hi : u.instr with
  | none => simp
  | some a =>
    cases he : s.env.instrAt a with
    | none => simp [he]
    | some i => simp [he]

/-! ### The laws between two phases

Inside a cycle a countdown just loaded is fresh (R33), so R151 (c) and (d) hold only after Execute.
`Mid` is what holds at every point between the phases; with no fresh bit and the law of `DONE` it is
`lawful`. -/

/-- R151 (b) and (c) with the fresh bit R33 allows inside a cycle. -/
def Slot.CountMid (cfg : Config) (p : Pool) (u : Slot) : Prop :=
  if u.ready p then
    ∃ o n, u.op = some o ∧ u.cnt = .k n ∧ n ≤ cfg.lat o ∧ (u.fresh = true → n = cfg.lat o)
  else u.cnt = .inf ∧ u.fresh = false

/-- The laws of one busy slot between two phases. -/
structure State.BusyMid (s : State) (p : Pool) (u : Slot) : Prop where
  kind : u.kindOk p = true
  serves : s.servesOk p u = true
  opJ : s.operandOk u.instr u.j = true
  opK : s.operandOk u.instr u.k = true
  count : u.CountMid s.env.cfg p

/-- The laws of a state between two phases. -/
structure State.Mid (s : State) : Prop where
  shape : s.shapeOk = true
  pcLe : s.pc ≤ s.env.progLen
  idle : ∀ t u, s.slot? t = some u → u.busy = false → u = Slot.free
  busy : ∀ t u, s.slot? t = some u → u.busy = true → s.BusyMid t.pool u
  regs : ∀ r x, s.reg? r = some x → s.regOk r x = true

theorem Slot.countOk_iff (cfg : Config) (p : Pool) (u : Slot) :
    u.countOk cfg p = true ↔ u.CountMid cfg p ∧ u.fresh = false := by
  unfold Slot.countOk Slot.CountMid
  cases hr : u.ready p <;> cases hf : u.fresh <;> simp
  cases hc : u.cnt <;> cases ho : u.op <;> simp

theorem State.lawful_iff_mid (s : State) :
    s.lawful = true ↔
      s.Mid ∧ (∀ t u, s.slot? t = some u → u.fresh = false) ∧ s.doneOk = true := by
  rw [State.lawful_iff]
  constructor
  · rintro ⟨h1, h2, h3, h4, h5⟩
    have hs : ∀ t u, s.slot? t = some u →
        (u.busy = false → u = Slot.free) ∧ (u.busy = true → s.BusyMid t.pool u) ∧ u.fresh = false := by
      intro t u hu
      have h := h2 t u hu
      unfold State.slotOk at h
      cases hb : u.busy with
      | false =>
        simp only [hb, Bool.false_eq_true, if_false, beq_iff_eq] at h
        exact ⟨fun _ => h, fun h' => by simp at h', by rw [h]; rfl⟩
      | true =>
        simp only [hb, if_true, Bool.and_eq_true] at h
        obtain ⟨⟨⟨⟨ha, hsv⟩, hc⟩, hj⟩, hk⟩ := h
        rw [Slot.countOk_iff] at hc
        exact ⟨fun h' => by simp at h', fun _ => ⟨ha, hsv, hj, hk, hc.1⟩, hc.2⟩
    exact ⟨⟨h1, h4, fun t u hu => (hs t u hu).1, fun t u hu => (hs t u hu).2.1, h3⟩,
      fun t u hu => (hs t u hu).2.2, h5⟩
  · rintro ⟨⟨h1, h4, hi, hb, h3⟩, hf, h5⟩
    refine ⟨h1, fun t u hu => ?_, h3, h4, h5⟩
    unfold State.slotOk
    cases hbu : u.busy with
    | false => simp [hi t u hu hbu]
    | true =>
      obtain ⟨ha, hsv, hj, hk, hc⟩ := hb t u hu hbu
      simp [ha, hsv, hj, hk, (Slot.countOk_iff _ _ _).2 ⟨hc, hf t u hu⟩]

/-- In a lawful state no slot is fresh (R151 (d)). -/
theorem State.not_fresh_of_lawful {s : State} (h : s.lawful = true) {t : Tag} {u : Slot}
    (hu : s.slot? t = some u) : u.fresh = false := (s.lawful_iff_mid.1 h).2.1 t u hu

theorem State.mid_of_lawful {s : State} (h : s.lawful = true) : s.Mid := (s.lawful_iff_mid.1 h).1

/-- Where every slot is free no register is pending, so the laws go on to hold at `DONE` (R76, R150). -/
theorem State.Mid.value_of_allFree {s : State} (h : s.Mid)
    (hf : ∀ t u, s.slot? t = some u → u.busy = false) {r : Nat} {x : RegStatus}
    (hx : s.reg? r = some x) : ∃ v, x = .value v := by
  cases x with
  | value v => exact ⟨v, rfl⟩
  | pending t =>
    obtain ⟨-, u, -, hu, hb, -⟩ := (s.regOk_pending r t).1 (h.regs r _ hx)
    simp [hf t u hu] at hb

/-! ### Consequences -/

theorem State.Mid.busy_of_ready {s : State} (h : s.Mid) {t : Tag} {u : Slot} (hu : s.slot? t = some u)
    (hr : u.ready t.pool = true) : s.BusyMid t.pool u := h.busy t u hu (Slot.busy_of_ready hr)

/-- A ready slot that is no store has a result (R81). -/
theorem State.BusyMid.result_isSome {s : State} {p : Pool} {u : Slot} (h : s.BusyMid p u)
    (hr : u.ready p = true) (hp : p ≠ .store) : ∃ v, u.result p = some v := by
  obtain ⟨a, i, -, -, -, ho, hip⟩ := (s.servesOk_iff p u).1 h.serves
  have hk := h.kind
  cases p with
  | store => exact absurd rfl hp
  | load =>
    cases ha : u.addr with
    | none => simp [Slot.kindOk, ha] at hk
    | some ad => exact ⟨.mem ad.off ad.base, by simp [Slot.result, ha]⟩
  | add =>
    simp only [Slot.ready, Bool.and_eq_true, Opnd.isRdy_iff] at hr
    obtain ⟨⟨-, vj, hj⟩, vk, hkk⟩ := hr
    cases hio : i.op with
    | arith o => exact ⟨.bin o vj vk, by simp [Slot.result, ho, hio, hj, hkk]⟩
    | load => simp [hio, Op.pool] at hip
    | store => simp [hio, Op.pool] at hip
  | mult =>
    simp only [Slot.ready, Bool.and_eq_true, Opnd.isRdy_iff] at hr
    obtain ⟨⟨-, vj, hj⟩, vk, hkk⟩ := hr
    cases hio : i.op with
    | arith o => exact ⟨.bin o vj vk, by simp [Slot.result, ho, hio, hj, hkk]⟩
    | load => simp [hio, Op.pool] at hip
    | store => simp [hio, Op.pool] at hip

/-- A store slot broadcasts nothing (R86). -/
@[simp] theorem Slot.result_store (u : Slot) : u.result .store = none := by
  unfold Slot.result; split <;> simp_all

/-- The wait relation goes to older instructions, so a busy slot with no older busy slot is ready
(R151 (e)). -/
theorem State.Mid.ready_of_oldest {s : State} (h : s.Mid) {t : Tag} {u : Slot} {a : Nat}
    (hu : s.slot? t = some u) (hb : u.busy = true) (ha : u.instr = some a)
    (hold : ∀ t' u' b, s.slot? t' = some u' → u'.busy = true → u'.instr = some b → a ≤ b) :
    u.ready t.pool = true := by
  have hm := h.busy t u hu hb
  have hr : ∀ o : Opnd, s.operandOk u.instr o = true → o ≠ .empty → o.isRdy = true := by
    intro o ho hne
    cases o with
    | empty => exact absurd rfl hne
    | rdy v => rfl
    | wait t' =>
      obtain ⟨-, u', b, a', hu', hb', hi', hs', hlt⟩ := (s.operandOk_wait _ _).1 ho
      rw [ha] at hs'
      cases hs'
      exact absurd (hold t' u' b hu' hb' hi') (by omega)
  have hk := hm.kind
  rcases t with ⟨p, i⟩
  cases p <;> simp only [Slot.kindOk, Bool.and_eq_true, bne_iff_ne, beq_iff_eq] at hk <;>
    simp only [Slot.ready, hb, Bool.true_and, Bool.and_eq_true]
  · exact ⟨hr _ hm.opJ hk.1.1, hr _ hm.opK hk.1.2⟩
  · exact ⟨hr _ hm.opJ hk.1.1, hr _ hm.opK hk.1.2⟩
  · exact hr _ hm.opJ hk.1.1

end Sys2Proof.Machine
end

