-- ==== Sys2Proof/Laws/Issue.lean ====
section
/-! SUPPORT. What the Issue phase's attempt of one instruction does: everything `State.issue` can change,
and the laws it keeps. -/

namespace Sys2Proof.Machine

/-- A full pool writes only `stall` (R92). -/
theorem State.issue_of_full {s : State} {o : Op} (h : s.findFree o.pool = none) (u : Slot)
    (d : Option RegIdx) : s.issue o u d = { s with stall := true } := by
  simp [State.issue, h]

/-! ### Fields no issue writes -/

theorem State.issue_keeps (s : State) (o : Op) (u : Slot) (d : Option RegIdx) :
    (s.issue o u d).env = s.env ∧ (s.issue o u d).fsm = s.fsm ∧ (s.issue o u d).vidx = s.vidx ∧
    (s.issue o u d).cycle = s.cycle ∧ (s.issue o u d).err = s.err ∧
    (s.issue o u d).errIndex = s.errIndex := by
  unfold State.issue
  split
  · exact ⟨rfl, rfl, rfl, rfl, rfl, rfl⟩
  · cases d <;> cases u.ready o.pool <;> simp

/-! ### A successful issue -/

/-- The slot as the Issue phase leaves it: its countdown loaded if it is ready when filled (R97). -/
def Slot.launch (cfg : Config) (p : Pool) (u : Slot) : Slot :=
  if u.ready p then u.start cfg else u

theorem State.issue_pc_stall {s : State} {o : Op} {i : Nat} (h : s.findFree o.pool = some i) (u : Slot)
    (d : Option RegIdx) : (s.issue o u d).pc = s.pc + 1 ∧ (s.issue o u d).stall = false := by
  cases d <;> cases hr : u.ready o.pool <;> simp [State.issue, h, hr]

theorem State.issue_rf {s : State} {o : Op} {i : Nat} (h : s.findFree o.pool = some i) (u : Slot)
    (d : Option RegIdx) :
    (s.issue o u d).rf =
      match d with
      | some r => s.rf.set r.toNat (.pending ⟨o.pool, i⟩)
      | none => s.rf := by
  cases d <;> cases hr : u.ready o.pool <;> simp [State.issue, h, hr]

theorem State.issue_slot? {s : State} {o : Op} {i : Nat} (h : s.findFree o.pool = some i) (u : Slot)
    (d : Option RegIdx) (t : Tag) :
    (s.issue o u d).slot? t =
      if t = ⟨o.pool, i⟩ then some (u.launch s.env.cfg o.pool) else s.slot? t := by
  obtain ⟨⟨u', hu', -⟩, -⟩ := (s.findFree_eq_some _ _).1 h
  simp only [State.slot?] at hu'
  cases d <;> cases hr : u.ready o.pool <;>
    simp only [State.issue, h, hr, State.slot?, Slot.launch, State.loadCountdown_pools,
      State.stampIssue_pools, State.rename_pools, State.setSlot_pools, slot?_modify_set,
      Bool.false_eq_true, if_false, if_true, State.setSlot_env, State.rename_env, State.stampIssue_env] <;>
    by_cases ht : t = ⟨o.pool, i⟩ <;> simp [ht, hu', Pools.get_modify] <;>
    exact ⟨u, by simp [(List.getElem?_eq_some_iff.1 hu').1]⟩

/-- The trace entry of the issued instruction gets its issue stamp, and its writeback stamp if the slot is
ready when filled; no other entry changes (R95, R97, R98). -/
theorem State.issue_trace {s : State} {o : Op} {i : Nat} (h : s.findFree o.pool = some i) {u : Slot}
    (d : Option RegIdx) (hu : u.instr = some s.pc) (a : Nat) :
    (s.issue o u d).trace[a]? =
      if a = s.pc then
        (s.trace[a]?).map fun st =>
          { issue := some s.cycle
            wb := if u.ready o.pool then u.wbStamp s.env.cfg s.cycle else st.wb }
      else s.trace[a]? := by
  cases d <;> cases hr : u.ready o.pool <;>
    simp only [State.issue, h, hr, Bool.false_eq_true, if_false, if_true, State.loadCountdown_trace,
      stampWb_getElem?, State.stampIssue_trace, State.rename_trace, State.setSlot_trace, hu,
      State.stampIssue_env, State.rename_env, State.setSlot_env, State.rename_pc, State.setSlot_pc,
      State.rename_cycle, State.setSlot_cycle, State.stampIssue_cycle, List.getElem?_modify,
      Option.some.injEq] <;>
    by_cases ha : s.pc = a <;>
    simp [ha, Function.comp_def] <;>
    (have ha' : ¬ a = s.pc := fun h' => ha h'.symm; simp [ha'])

/-! ### The meanings -/

theorem captures_of_shape {s : State} (h : s.shapeOk = true) {r : RegIdx}
    (hr : regInRange s.env.cfg r = true) :
    ∃ x, s.reg? r.toNat = some x ∧ s.capture r = some x.capture := by
  have hl := ((s.shapeOk_iff).1 h).1
  have hlt : r.toNat < s.rf.length := by simp [regInRange] at hr; omega
  exact ⟨_, List.getElem?_eq_getElem hlt, by simp [State.capture, State.reg?, List.getElem?_eq_getElem hlt]⟩

/-- What the issue of an arithmetic instruction answers, when it answers a next state. -/
theorem issueArith_next {o : ArithOp} {rd rs1 rs2 : RegIdx} {s s' : State}
    (h : issueArith o rd rs1 rs2 s = .next s') :
    (o.instr rd rs1 rs2).wf s.env.cfg = true ∧
    ∃ x y, s.reg? rs1.toNat = some x ∧ s.reg? rs2.toNat = some y ∧
      s' = s.issue (.arith o) (Slot.ofArith o x.capture y.capture s.pc) (some rd) := by
  unfold issueArith at h
  split at h
  · rename_i hw
    refine ⟨hw, ?_⟩
    cases hx : s.reg? rs1.toNat <;> cases hy : s.reg? rs2.toNat <;>
      simp [State.capture, hx, hy] at h
    exact ⟨_, _, rfl, rfl, h.symm⟩
  · cases h

theorem issueLoad_next {rt : RegIdx} {off : Offset} {base : Base} {s s' : State}
    (h : issueLoad rt off base s = .next s') :
    (Instr.load rt off base).wf s.env.cfg = true ∧
      s' = s.issue .load (Slot.ofLoad off base s.pc) (some rt) := by
  unfold issueLoad at h
  split at h
  · rename_i hw
    cases h
    exact ⟨hw, rfl⟩
  · cases h

theorem issueStore_next {rt : RegIdx} {off : Offset} {base : Base} {s s' : State}
    (h : issueStore rt off base s = .next s') :
    (Instr.store rt off base).wf s.env.cfg = true ∧
    ∃ x, s.reg? rt.toNat = some x ∧
      s' = s.issue .store (Slot.ofStore x.capture off base s.pc) none := by
  unfold issueStore at h
  split at h
  · rename_i hw
    refine ⟨hw, ?_⟩
    cases hx : s.reg? rt.toNat <;> simp [State.capture, hx] at h
    exact ⟨_, rfl, h.symm⟩
  · cases h

/-- The slot instruction `i` fills when its operands are captured as `oj` and `ok`. -/
def Slot.ofInstr (i : Instr) (oj ok : Opnd) (pc : Nat) : Slot where
  busy := true
  op := some i.op
  j := oj
  k := ok
  addr :=
    match i with
    | .load _ off base => some { off := off, base := base }
    | .store _ off base => some { off := off, base := base }
    | .add _ _ _ => none
    | .sub _ _ _ => none
    | .mul _ _ _ => none
    | .div _ _ _ => none
  cnt := .inf
  fresh := false
  instr := some pc

/-- What `capture` gives an operand field whose source register, if any, is `src`. -/
def State.Captured (s : State) (src : Option RegIdx) (o : Opnd) : Prop :=
  match src with
  | none => o = .empty
  | some r => ∃ x, s.reg? r.toNat = some x ∧ o = x.capture

/-- What `exec` does, for all six at once: an instruction in range issues (or stalls) with its operands
captured; an instruction out of range is a fault. -/
theorem exec_next {i : Instr} {s s' : State} (h : exec i s = .next s') :
    i.wf s.env.cfg = true ∧ ∃ oj ok, s.Captured i.srcJ oj ∧ s.Captured i.srcK ok ∧
      s' = s.issue i.op (Slot.ofInstr i oj ok s.pc) i.dest := by
  cases i with
  | add rd rs1 rs2 =>
    obtain ⟨hw, x, y, hx, hy, rfl⟩ := issueArith_next (o := .add) h
    exact ⟨hw, x.capture, y.capture, ⟨x, hx, rfl⟩, ⟨y, hy, rfl⟩, rfl⟩
  | sub rd rs1 rs2 =>
    obtain ⟨hw, x, y, hx, hy, rfl⟩ := issueArith_next (o := .sub) h
    exact ⟨hw, x.capture, y.capture, ⟨x, hx, rfl⟩, ⟨y, hy, rfl⟩, rfl⟩
  | mul rd rs1 rs2 =>
    obtain ⟨hw, x, y, hx, hy, rfl⟩ := issueArith_next (o := .mul) h
    exact ⟨hw, x.capture, y.capture, ⟨x, hx, rfl⟩, ⟨y, hy, rfl⟩, rfl⟩
  | div rd rs1 rs2 =>
    obtain ⟨hw, x, y, hx, hy, rfl⟩ := issueArith_next (o := .div) h
    exact ⟨hw, x.capture, y.capture, ⟨x, hx, rfl⟩, ⟨y, hy, rfl⟩, rfl⟩
  | load rt off base =>
    obtain ⟨hw, rfl⟩ := issueLoad_next h
    exact ⟨hw, .empty, .empty, rfl, rfl, rfl⟩
  | store rt off base =>
    obtain ⟨hw, x, hx, rfl⟩ := issueStore_next h
    exact ⟨hw, x.capture, .empty, ⟨x, hx, rfl⟩, rfl, rfl⟩

end Sys2Proof.Machine
end

