-- ==== Sys2Proof/Laws/Writeback.lean ====
section
/-! SUPPORT. What the Writeback phase does: one turn of its loop (`State.handle`), the laws it keeps, and
the induction over the list `C` of R80 packaged once. -/

namespace Sys2Proof.Machine

/-! ### One turn of the loop -/

theorem State.handle_of_result {s : State} {t : Tag} {u : Slot} {v : Val} (hu : s.slot? t = some u)
    (hr : u.result t.pool = some v) : s.handle t = (s.broadcast t v).release t := by
  simp [State.handle, hu, hr]

theorem State.handle_of_no_result {s : State} {t : Tag} {u : Slot} (hu : s.slot? t = some u)
    (hr : u.result t.pool = none) : s.handle t = s.release t := by
  simp [State.handle, hu, hr]

theorem State.handle_slot?_of_result {s : State} {t : Tag} {u : Slot} {v : Val}
    (hu : s.slot? t = some u) (hr : u.result t.pool = some v) (t' : Tag) :
    (s.handle t).slot? t' =
      if t' = t then some Slot.free
      else (s.slot? t').map (Slot.receive s.env.cfg t'.pool t v) := by
  rw [State.handle_of_result hu hr, State.release_slot?]
  by_cases h : t' = t
  · simp [h, State.broadcast_slot?, hu]
  · simp [h, State.broadcast_slot?]

theorem State.handle_slot?_of_no_result {s : State} {t : Tag} {u : Slot}
    (hu : s.slot? t = some u) (hr : u.result t.pool = none) (t' : Tag) :
    (s.handle t).slot? t' = if t' = t then some Slot.free else s.slot? t' := by
  rw [State.handle_of_no_result hu hr, State.release_slot?]
  by_cases h : t' = t <;> simp [h, hu]

theorem State.handle_reg?_of_result {s : State} {t : Tag} {u : Slot} {v : Val}
    (hu : s.slot? t = some u) (hr : u.result t.pool = some v) (r : Nat) :
    (s.handle t).reg? r = (s.reg? r).map fun x => if x = .pending t then .value v else x := by
  rw [State.handle_of_result hu hr]
  simp [State.reg?]

theorem State.handle_reg?_of_no_result {s : State} {t : Tag} {u : Slot}
    (hu : s.slot? t = some u) (hr : u.result t.pool = none) (r : Nat) :
    (s.handle t).reg? r = s.reg? r := by
  rw [State.handle_of_no_result hu hr]
  simp [State.reg?]

/-- The handled slot is free afterwards (R85). -/
theorem State.handle_slot?_self {s : State} {t : Tag} {u : Slot} (hu : s.slot? t = some u) :
    (s.handle t).slot? t = some Slot.free := by
  cases hr : u.result t.pool with
  | none => simp [State.handle_slot?_of_no_result hu hr]
  | some v => simp [State.handle_slot?_of_result hu hr]

/-- A slot other than the handled one keeps everything but its operands and its countdown. -/
theorem State.handle_slot?_other {s : State} {t t' : Tag} {u : Slot} (hu : s.slot? t = some u)
    (h : t' ≠ t) {w : Slot} (hw : (s.handle t).slot? t' = some w) :
    ∃ w0, s.slot? t' = some w0 ∧ w.busy = w0.busy ∧ w.op = w0.op ∧ w.addr = w0.addr ∧
      w.instr = w0.instr ∧ (w = w0 ∨ ∃ v, u.result t.pool = some v ∧
        w = w0.receive s.env.cfg t'.pool t v) := by
  cases hr : u.result t.pool with
  | none =>
    rw [State.handle_slot?_of_no_result hu hr, if_neg h] at hw
    exact ⟨w, hw, rfl, rfl, rfl, rfl, .inl rfl⟩
  | some v =>
    rw [State.handle_slot?_of_result hu hr, if_neg h] at hw
    cases hs : s.slot? t' with
    | none => simp [hs] at hw
    | some w0 =>
      simp only [hs, Option.map_some, Option.some.injEq] at hw
      subst hw
      exact ⟨w0, rfl, by simp, by simp, by simp, by simp, .inr ⟨v, rfl, rfl⟩⟩

/-- A ready slot is untouched while another slot is handled: its operands are resolved. -/
theorem State.Mid.handle_slot?_of_ready {s : State} (h : s.Mid) {t t' : Tag} {u u' : Slot}
    (hu : s.slot? t = some u) (hne : t' ≠ t) (hu' : s.slot? t' = some u')
    (hr : u'.ready t'.pool = true) : (s.handle t).slot? t' = some u' := by
  have hnw : u'.waitsOn t = false := by
    have hk := (h.busy_of_ready hu' hr).kind
    rcases t' with ⟨p, i⟩
    cases p <;> simp only [Slot.ready, Bool.and_eq_true, Opnd.isRdy_iff] at hr <;>
      simp only [Slot.kindOk, Bool.and_eq_true, beq_iff_eq] at hk
    · obtain ⟨⟨-, vj, hj⟩, vk, hk'⟩ := hr; simp [Slot.waitsOn, hj, hk']
    · obtain ⟨⟨-, vj, hj⟩, vk, hk'⟩ := hr; simp [Slot.waitsOn, hj, hk']
    · simp [Slot.waitsOn, hk.1.1, hk.1.2]
    · obtain ⟨-, vj, hj⟩ := hr; simp [Slot.waitsOn, hj, hk.1.2]
  cases hres : u.result t.pool with
  | none => rw [State.handle_slot?_of_no_result hu hres, if_neg hne, hu']
  | some v =>
    rw [State.handle_slot?_of_result hu hres, if_neg hne, hu', Option.map_some,
      Slot.receive_of_not_waitsOn hnw]

/-! ### The laws kept -/

/-- No operand waits on a Store tag (R149). -/
theorem State.Mid.not_wait_store {s : State} (h : s.Mid) {t t' : Tag} {u : Slot}
    (hu : s.slot? t' = some u) (ht : t.pool = .store) : u.j ≠ .wait t ∧ u.k ≠ .wait t := by
  cases hb : u.busy with
  | false =>
    rw [h.idle t' u hu hb]
    exact ⟨by simp [Slot.free], by simp [Slot.free]⟩
  | true =>
    have hm := h.busy t' u hu hb
    constructor <;> intro he
    · exact ((s.operandOk_wait _ _).1 (he ▸ hm.opJ)).1 ht
    · exact ((s.operandOk_wait _ _).1 (he ▸ hm.opK)).1 ht

/-- An operand that is well placed stays so when another slot is handled. -/
theorem State.operandOk_handle {s : State} {t : Tag} {u : Slot} (hu : s.slot? t = some u)
    {served : Option Nat} {o : Opnd} (ho : s.operandOk served o = true) (hne : o ≠ .wait t) :
    (s.handle t).operandOk served o = true := by
  cases o with
  | empty => rfl
  | rdy v => rfl
  | wait t' =>
    have hne' : t' ≠ t := fun h => hne (by rw [h])
    rw [State.operandOk_wait] at ho ⊢
    obtain ⟨hp, w, b, a, hw, hb, hi, ha, hlt⟩ := ho
    refine ⟨hp, ?_⟩
    cases hr : u.result t.pool with
    | none =>
      exact ⟨w, b, a, by rw [State.handle_slot?_of_no_result hu hr, if_neg hne', hw], hb, hi, ha, hlt⟩
    | some v =>
      exact ⟨w.receive s.env.cfg t'.pool t v, b, a,
        by rw [State.handle_slot?_of_result hu hr, if_neg hne', hw, Option.map_some],
        by simpa using hb, by simpa using hi, ha, hlt⟩

/-- The countdown law of a slot that receives a broadcast (R84). -/
theorem Slot.CountMid.receive {cfg : Config} {p : Pool} {t : Tag} {v : Val} {u : Slot} {o : Op}
    (ho : u.op = some o) (h : u.CountMid cfg p) : (u.receive cfg p t v).CountMid cfg p := by
  unfold Slot.CountMid at h ⊢
  cases hw : u.wakes p t v with
  | true =>
    rw [Slot.receive_of_wakes hw ho]
    have hready : (u.resolve t v).ready p = true := by
      simp only [Slot.wakes, Bool.and_eq_true] at hw; exact hw.1.2
    have : ({ u.resolve t v with cnt := .k (cfg.lat o), fresh := true } : Slot).ready p = true := by
      rw [← hready]; exact Slot.ready_congr p rfl rfl rfl
    rw [if_pos this]
    exact ⟨o, _, ho, rfl, le_refl _, fun _ => rfl⟩
  | false =>
    rw [Slot.receive_of_not_wakes hw]
    cases hr : u.ready p with
    | true =>
      rw [if_pos hr] at h
      rw [if_pos (Slot.ready_resolve_of_ready hr)]
      exact h
    | false =>
      rw [if_neg (by simp [hr])] at h
      have hnr : (u.resolve t v).ready p = false := by
        cases hwt : u.waitsOn t with
        | true => simpa [Slot.wakes, hwt, h.1] using hw
        | false =>
          have hn : u.j ≠ .wait t ∧ u.k ≠ .wait t := by
            simpa [Slot.waitsOn, Bool.or_eq_false_iff] using hwt
          rw [← hr]
          apply Slot.ready_congr <;> simp [Opnd.resolve_of_ne hn.1, Opnd.resolve_of_ne hn.2]
      rw [if_neg (by simp [hnr])]
      exact h

/-- One turn of the loop keeps the laws (R83, R84, R85, R150). -/
theorem State.Mid.handle {s : State} (h : s.Mid) {t : Tag} {u : Slot} (hu : s.slot? t = some u)
    (hr : u.ready t.pool = true) : (s.handle t).Mid := by
  have hbu := h.busy_of_ready hu hr
  -- no operand of the state after waits on the handled tag
  have hcases : ∀ t' w, (s.handle t).slot? t' = some w →
      w = Slot.free ∨ ∃ w0, t' ≠ t ∧ s.slot? t' = some w0 ∧ w.busy = w0.busy ∧ w.op = w0.op ∧
        w.addr = w0.addr ∧ w.instr = w0.instr ∧
        ((w = w0 ∧ w0.j ≠ .wait t ∧ w0.k ≠ .wait t) ∨ ∃ v, w = w0.receive s.env.cfg t'.pool t v) := by
    intro t' w hw
    by_cases hne : t' = t
    · subst hne
      rw [State.handle_slot?_self hu] at hw
      exact .inl (Option.some.inj hw).symm
    · obtain ⟨w0, h0, hb, ho, ha, hi, hcase⟩ := State.handle_slot?_other hu hne hw
      refine .inr ⟨w0, hne, h0, hb, ho, ha, hi, ?_⟩
      rcases hcase with rfl | ⟨v, -, rfl⟩
      · by_cases hp : t.pool = .store
        · exact .inl ⟨rfl, h.not_wait_store h0 hp⟩
        · obtain ⟨v, hv⟩ := hbu.result_isSome hr hp
          refine .inr ⟨v, ?_⟩
          rw [State.handle_slot?_of_result hu hv, if_neg hne, h0, Option.map_some] at hw
          exact (Option.some.inj hw).symm
      · exact .inr ⟨v, rfl⟩
  refine ⟨?_, by simpa using h.pcLe, ?_, ?_, ?_⟩
  · rw [State.shapeOk_iff]
    obtain ⟨h1, h2, h3⟩ := (s.shapeOk_iff).1 h.shape
    cases hres : u.result t.pool with
    | none =>
      rw [State.handle_of_no_result hu hres]
      refine ⟨by simpa using h1, fun p => ?_, by simpa using h3⟩
      rw [State.release_pools, Pools.get_modify]
      split
      · rename_i he; subst he; simpa using h2 t.pool
      · exact h2 p
    | some v =>
      rw [State.handle_of_result hu hres]
      refine ⟨by simpa using h1, fun p => ?_, by simpa using h3⟩
      rw [State.release_pools, Pools.get_modify]
      split
      · rename_i he; subst he; simpa using h2 t.pool
      · simpa using h2 p
  · intro t' w hw hb
    rcases hcases t' w hw with rfl | ⟨w0, -, h0, hb0, -, -, -, hc⟩
    · rfl
    · have hf := h.idle t' w0 h0 (by rw [← hb0]; exact hb)
      rcases hc with ⟨rfl, -⟩ | ⟨v, rfl⟩
      · exact hf
      · rw [hf]; simp
  · intro t' w hw hb
    rcases hcases t' w hw with rfl | ⟨w0, hne, h0, hb0, ho, ha, hi, hc⟩
    · simp [Slot.free] at hb
    · have hm := h.busy t' w0 h0 (by rw [← hb0]; exact hb)
      have hsv : (s.handle t).servesOk t'.pool w = true := by
        have := hm.serves
        rw [State.servesOk_iff] at this ⊢
        simpa [hi, ho] using this
      rcases hc with ⟨rfl, hj, hk⟩ | ⟨v, rfl⟩
      · exact ⟨hm.kind, hsv, State.operandOk_handle hu hm.opJ hj, State.operandOk_handle hu hm.opK hk,
          by simpa using hm.count⟩
      · have hop : ∀ o : Opnd, s.operandOk w0.instr o = true →
            (s.handle t).operandOk w0.instr (o.resolve t v) = true := by
          intro o ho'
          by_cases hq : o = .wait t
          · subst hq; simp; rfl
          · rw [Opnd.resolve_of_ne hq]; exact State.operandOk_handle hu ho' hq
        refine ⟨?_, hsv, ?_, ?_, ?_⟩
        · have hk := hm.kind
          revert hk
          cases t'.pool <;> simp [Slot.kindOk, Opnd.resolve_eq_empty, bne]
        · simpa using hop _ hm.opJ
        · simpa using hop _ hm.opK
        · obtain ⟨a, i, -, -, -, ho', -⟩ := (s.servesOk_iff _ _).1 hm.serves
          simpa using hm.count.receive ho'
  · intro r x hx
    cases hres : u.result t.pool with
    | none =>
      have hp : t.pool = .store := by
        by_contra hp
        obtain ⟨v, hv⟩ := hbu.result_isSome hr hp
        rw [hv] at hres; cases hres
      rw [State.handle_reg?_of_no_result hu hres] at hx
      have h0 := h.regs r x hx
      cases x with
      | value v => rfl
      | pending t' =>
        rw [State.regOk_pending] at h0 ⊢
        obtain ⟨hps, w, b, hw, hb, hi, hl⟩ := h0
        have hne : t' ≠ t := fun he => hps (he ▸ hp)
        exact ⟨hps, w, b, by rw [State.handle_slot?_of_no_result hu hres, if_neg hne, hw], hb, hi,
          by simpa using hl⟩
    | some v =>
      rw [State.handle_reg?_of_result hu hres] at hx
      cases h0 : s.reg? r with
      | none => simp [h0] at hx
      | some x0 =>
        simp only [h0, Option.map_some, Option.some.injEq] at hx
        split at hx
        · subst hx; rfl
        · rename_i hnp
          subst hx
          have hok := h.regs r x0 h0
          cases x0 with
          | value v => rfl
          | pending t' =>
            have hne : t' ≠ t := fun he => hnp (by rw [he])
            rw [State.regOk_pending] at hok ⊢
            obtain ⟨hps, w, b, hw, hb, hi, hl⟩ := hok
            exact ⟨hps, w.receive s.env.cfg t'.pool t v, b,
              by rw [State.handle_slot?_of_result hu hres, if_neg hne, hw, Option.map_some],
              by simpa using hb, by simpa using hi, by simpa using hl⟩

/-! ### The whole phase -/

/-- The list `C` names no slot twice. -/
theorem State.completeTags_nodup (s : State) : s.completeTags.Nodup := by
  have h1 : ∀ p, ((s.pools.taggedOf p).map fun x => x.1).Nodup := by
    intro p
    rw [Pools.taggedOf, List.map_map]
    have he : ((fun x : Tag × Slot => x.1) ∘ fun x : Slot × Nat => ((⟨p, x.2⟩ : Tag), x.1)) =
        (fun n : Nat => (⟨p, n⟩ : Tag)) ∘ Prod.snd := rfl
    rw [he, ← List.map_map, List.zipIdx_map_snd]
    exact List.Nodup.map (fun a b h => by simpa using h) List.nodup_range'
  have h2 : ∀ p t, t ∈ (s.pools.taggedOf p).map (fun x => x.1) → t.pool = p := by
    intro p t ht
    obtain ⟨x, hx, rfl⟩ := List.mem_map.1 ht
    exact ((Pools.mem_taggedOf _ _ _ _).1 hx).1
  have h3 : (s.pools.tagged.map fun x => x.1).Nodup := by
    simp only [Pools.tagged, List.map_append]
    refine List.Nodup.append (List.Nodup.append (List.Nodup.append (h1 _) (h1 _) ?_) (h1 _) ?_) (h1 _) ?_
    · intro t ha hb
      have := (h2 _ _ ha).symm.trans (h2 _ _ hb)
      cases this
    · intro t ha hb
      rcases List.mem_append.1 ha with ha | ha <;> have := (h2 _ _ ha).symm.trans (h2 _ _ hb) <;> cases this
    · intro t ha hb
      rcases List.mem_append.1 ha with ha | ha
      · rcases List.mem_append.1 ha with ha | ha <;> have := (h2 _ _ ha).symm.trans (h2 _ _ hb) <;> cases this
      · have := (h2 _ _ ha).symm.trans (h2 _ _ hb); cases this
  exact h3.sublist (List.Sublist.map _ List.filter_sublist)

/-- The induction over the list `C`, packaged once: what holds as the phase begins and is kept by
handling a complete slot of a state between phases holds as the phase ends, and so do the laws. -/
theorem handleAll_induct {P : State → Prop}
    (hstep : ∀ s t u, s.Mid → P s → s.slot? t = some u → u.complete t.pool = true → P (s.handle t)) :
    ∀ (ts : List Tag) (s : State), ts.Nodup → s.Mid →
      (∀ t ∈ ts, ∃ u, s.slot? t = some u ∧ u.complete t.pool = true) → P s →
      P (ts.foldl State.handle s) ∧ (ts.foldl State.handle s).Mid := by
  intro ts
  induction ts with
  | nil => intro s _ hm _ hp; exact ⟨hp, hm⟩
  | cons t ts ih =>
    intro s hn hm hc hp
    obtain ⟨u, hu, hcu⟩ := hc t (by simp)
    have hr := ((Slot.complete_iff _ _).1 hcu).1
    rw [List.foldl_cons]
    refine ih _ (List.nodup_cons.1 hn).2 (hm.handle hu hr) ?_ (hstep s t u hm hp hu hcu)
    intro t' ht'
    obtain ⟨u', hu', hcu'⟩ := hc t' (by simp [ht'])
    have hne : t' ≠ t := fun he => (List.nodup_cons.1 hn).1 (he ▸ ht')
    exact ⟨u', hm.handle_slot?_of_ready hu hne hu' ((Slot.complete_iff _ _).1 hcu').1, hcu'⟩

theorem State.writebackPhase_induct {P : State → Prop} {s : State} (hm : s.Mid) (hp : P s)
    (hstep : ∀ s t u, s.Mid → P s → s.slot? t = some u → u.complete t.pool = true → P (s.handle t)) :
    P s.writebackPhase ∧ s.writebackPhase.Mid :=
  handleAll_induct hstep _ _ s.completeTags_nodup hm (fun t ht => (s.mem_completeTags t).1 ht) hp

/-- The Writeback phase keeps the laws. -/
theorem State.Mid.writebackPhase {s : State} (hm : s.Mid) : s.writebackPhase.Mid :=
  (State.writebackPhase_induct (P := fun _ => True) hm trivial (fun _ _ _ _ _ _ _ => trivial)).2

end Sys2Proof.Machine
end

