-- ==== Sys2Proof/Laws/Cycle.lean ====
section
/-! SUPPORT. The Issue and Execute phases keep the laws, and what an executed cycle is made of. -/

namespace Sys2Proof.Machine

/-! ### The last writer -/

theorem Env.lastWriter_lt {e : Env} {r k b : Nat} (h : e.lastWriter r k = some b) : b < k := by
  induction k with
  | zero => simp [Env.lastWriter] at h
  | succ k ih =>
    unfold Env.lastWriter at h
    split at h
    · cases h; omega
    · have := ih h; omega

theorem Env.writes_iff {e : Env} {a : Nat} {i : Instr} (h : e.instrAt a = some i) (r : Nat) :
    e.writes a r = true ↔ ∃ d, i.dest = some d ∧ d.toNat = r := by
  unfold Env.writes
  rw [h]
  cases hd : i.dest <;> simp [hd]

theorem Env.lastWriter_succ_of_writes {e : Env} {r k : Nat} (h : e.writes k r = true) :
    e.lastWriter r (k + 1) = some k := by
  simp [Env.lastWriter, h]

theorem Env.lastWriter_succ_of_not_writes {e : Env} {r k : Nat} (h : e.writes k r = false) :
    e.lastWriter r (k + 1) = e.lastWriter r k := by
  simp [Env.lastWriter, h]

/-! ### The laws do not speak of `stall`, `cycle` and the trace -/

theorem State.Mid.congr {s s' : State} (h : s.Mid) (he : s'.env = s.env) (hp : s'.pc = s.pc)
    (hr : s'.rf = s.rf) (hq : s'.pools = s.pools) (ht : s'.trace.length = s.trace.length) : s'.Mid := by
  have hs : ∀ t, s'.slot? t = s.slot? t := fun t => State.slot?_congr hq t
  have hreg : ∀ r, s'.reg? r = s.reg? r := fun r => by simp [State.reg?, hr]
  have hop : ∀ a o, s'.operandOk a o = s.operandOk a o := by
    intro a o; cases o <;> simp [State.operandOk, hs]
  have hsv : ∀ p u, s'.servesOk p u = s.servesOk p u := by
    intro p u; simp [State.servesOk, hp, he]
  refine ⟨?_, by rw [hp, he]; exact h.pcLe, fun t u hu => h.idle t u (by rw [← hs]; exact hu), ?_, ?_⟩
  · have := h.shape
    simpa [State.shapeOk, he, hr, hq, ht] using this
  · intro t u hu hb
    have hm := h.busy t u (by rw [← hs]; exact hu) hb
    exact ⟨hm.kind, by rw [hsv]; exact hm.serves, by rw [hop]; exact hm.opJ, by rw [hop]; exact hm.opK,
      by rw [he]; exact hm.count⟩
  · intro r x hx
    have := h.regs r x (by rw [← hreg]; exact hx)
    cases x with
    | value v => rfl
    | pending t =>
      rw [State.regOk_pending] at this ⊢
      simpa [hs, he, hp] using this

/-! ### The Issue phase -/

/-- A captured operand is well placed for the instruction being issued (R94, R150). -/
theorem State.Mid.operandOk_captured {s : State} (h : s.Mid) {src : Option RegIdx} {o : Opnd}
    (hc : s.Captured src o) : s.operandOk (some s.pc) o = true := by
  cases src with
  | none => rw [show o = .empty from hc]; rfl
  | some r =>
    obtain ⟨x, hx, rfl⟩ := hc
    cases x with
    | value v => rfl
    | pending t =>
      have hok := h.regs _ _ hx
      rw [State.regOk_pending] at hok
      obtain ⟨hp, u, b, hu, hb, hi, hl⟩ := hok
      exact (State.operandOk_wait _ _ _).2 ⟨hp, u, b, s.pc, hu, hb, hi, rfl, Env.lastWriter_lt hl⟩

theorem State.Captured.ne_empty {s : State} {src : Option RegIdx} {o : Opnd} (hc : s.Captured src o) :
    (o = .empty ↔ src = none) := by
  cases src with
  | none => simpa [State.Captured] using hc
  | some r =>
    obtain ⟨x, -, rfl⟩ := hc
    cases x <;> simp [RegStatus.capture]

theorem kindOk_ofInstr {s : State} {i : Instr} {oj ok : Opnd} (hj : s.Captured i.srcJ oj)
    (hk : s.Captured i.srcK ok) (pc : Nat) : (Slot.ofInstr i oj ok pc).kindOk i.op.pool = true := by
  have hj := hj.ne_empty
  have hk := hk.ne_empty
  cases i <;> simp_all [Slot.kindOk, Slot.ofInstr, Instr.op, Op.pool, Instr.srcJ, Instr.srcK]

theorem countMid_launch_ofInstr (cfg : Config) (i : Instr) (oj ok : Opnd) (pc : Nat) :
    ((Slot.ofInstr i oj ok pc).launch cfg i.op.pool).CountMid cfg i.op.pool := by
  unfold Slot.launch
  cases hr : (Slot.ofInstr i oj ok pc).ready i.op.pool with
  | true =>
    rw [if_pos rfl]
    have ho : (Slot.ofInstr i oj ok pc).op = some i.op := rfl
    unfold Slot.CountMid
    rw [Slot.ready_start, if_pos hr, Slot.start_of_op ho]
    exact ⟨i.op, _, rfl, rfl, le_refl _, fun _ => rfl⟩
  | false =>
    rw [if_neg (by simp)]
    unfold Slot.CountMid
    rw [if_neg (by simp [hr])]
    exact ⟨rfl, rfl⟩

@[simp] theorem Slot.launch_instr (cfg : Config) (p : Pool) (u : Slot) :
    (u.launch cfg p).instr = u.instr := by unfold Slot.launch; split <;> simp
@[simp] theorem Slot.launch_busy (cfg : Config) (p : Pool) (u : Slot) :
    (u.launch cfg p).busy = u.busy := by unfold Slot.launch; split <;> simp
@[simp] theorem Slot.launch_op (cfg : Config) (p : Pool) (u : Slot) :
    (u.launch cfg p).op = u.op := by unfold Slot.launch; split <;> simp
@[simp] theorem Slot.launch_j (cfg : Config) (p : Pool) (u : Slot) :
    (u.launch cfg p).j = u.j := by unfold Slot.launch; split <;> simp
@[simp] theorem Slot.launch_k (cfg : Config) (p : Pool) (u : Slot) :
    (u.launch cfg p).k = u.k := by unfold Slot.launch; split <;> simp
@[simp] theorem Slot.launch_addr (cfg : Config) (p : Pool) (u : Slot) :
    (u.launch cfg p).addr = u.addr := by unfold Slot.launch; split <;> simp

/-- An operand that is well placed stays so when another instruction is issued: the allocated slot was
free, so nothing waited on it (R93). -/
theorem State.Mid.operandOk_issue {s : State} {o : Op} {n : Nat} (hf : s.findFree o.pool = some n)
    (w : Slot) (d : Option RegIdx) {a : Option Nat} {x : Opnd} (hx : s.operandOk a x = true) :
    (s.issue o w d).operandOk a x = true := by
  obtain ⟨⟨u0, hu0, hb0⟩, -⟩ := (s.findFree_eq_some _ _).1 hf
  cases x with
  | empty => rfl
  | rdy v => rfl
  | wait t =>
    rw [State.operandOk_wait] at hx ⊢
    obtain ⟨hp, u, b, a', hu, hb, hi, ha, hlt⟩ := hx
    have hne : t ≠ ⟨o.pool, n⟩ := by
      rintro rfl
      rw [hu0] at hu
      cases hu
      rw [hb0] at hb
      cases hb
    exact ⟨hp, u, b, a', by rw [State.issue_slot? hf, if_neg hne, hu], hb, hi, ha, hlt⟩

/-- The issue of the instruction at `pc` keeps the laws (R88–R97, R149–R151). -/
theorem State.Mid.issue {s : State} (h : s.Mid) {i : Instr} (hat : s.env.instrAt s.pc = some i)
    (hlt : s.pc < s.env.progLen) {oj ok : Opnd} (hj : s.Captured i.srcJ oj)
    (hk : s.Captured i.srcK ok) :
    (s.issue i.op (Slot.ofInstr i oj ok s.pc) i.dest).Mid := by
  cases hf : s.findFree i.op.pool with
  | none =>
    rw [State.issue_of_full hf]
    exact h.congr rfl rfl rfl rfl rfl
  | some n =>
    obtain ⟨⟨u0, hu0, hb0⟩, -⟩ := (s.findFree_eq_some _ _).1 hf
    obtain ⟨henv, -⟩ := s.issue_keeps i.op (Slot.ofInstr i oj ok s.pc) i.dest
    obtain ⟨hpc, -⟩ := State.issue_pc_stall hf (Slot.ofInstr i oj ok s.pc) i.dest
    have hslot := State.issue_slot? hf (Slot.ofInstr i oj ok s.pc) i.dest
    have hrf := State.issue_rf hf (Slot.ofInstr i oj ok s.pc) i.dest
    have hopk : ∀ {a : Option Nat} {x : Opnd}, s.operandOk a x = true →
        (s.issue i.op (Slot.ofInstr i oj ok s.pc) i.dest).operandOk a x = true :=
      fun hx => State.Mid.operandOk_issue hf _ _ hx
    generalize hs' : s.issue i.op (Slot.ofInstr i oj ok s.pc) i.dest = s' at *
    refine ⟨?_, by rw [hpc, henv]; omega, ?_, ?_, ?_⟩
    · obtain ⟨h1, h2, h3⟩ := (s.shapeOk_iff).1 h.shape
      rw [State.shapeOk_iff, henv]
      refine ⟨?_, ?_, ?_⟩
      · rw [hrf]; cases i.dest <;> simpa using h1
      · intro p
        rw [← h2 p, ← hs']
        cases hd : i.dest <;> cases hr : (Slot.ofInstr i oj ok s.pc).ready i.op.pool <;>
          simp only [State.issue, hf, hr, Bool.false_eq_true, if_false, if_true,
            State.loadCountdown_pools, State.stampIssue_pools, State.rename_pools, State.setSlot_pools,
            Pools.get_modify] <;> split <;> simp_all
      · rw [← h3, ← hs']
        cases hd : i.dest <;> cases hr : (Slot.ofInstr i oj ok s.pc).ready i.op.pool <;>
          simp [State.issue, hf, hr]
    · intro t u hu hb
      rw [hslot] at hu
      split at hu
      · cases hu; simp [Slot.ofInstr] at hb
      · exact h.idle t u hu hb
    · intro t u hu hb
      rw [hslot] at hu
      split at hu
      · rename_i ht
        cases hu
        subst ht
        refine ⟨?_, ?_, ?_, ?_, ?_⟩
        · have := kindOk_ofInstr hj hk s.pc
          cases i <;> simpa [Slot.kindOk] using this
        · rw [State.servesOk_iff]
          exact ⟨s.pc, i, by simp [Slot.ofInstr], by omega, by rw [henv]; exact hat,
            by simp [Slot.ofInstr], rfl⟩
        · simpa [Slot.ofInstr] using hopk (h.operandOk_captured hj)
        · simpa [Slot.ofInstr] using hopk (h.operandOk_captured hk)
        · rw [henv]; exact countMid_launch_ofInstr _ _ _ _ _
      · have hm := h.busy t u hu hb
        refine ⟨hm.kind, ?_, hopk hm.opJ, hopk hm.opK, by rw [henv]; exact hm.count⟩
        have := hm.serves
        rw [State.servesOk_iff] at this ⊢
        obtain ⟨a, i', ha, hal, hai, ho, hp⟩ := this
        exact ⟨a, i', ha, by omega, by rw [henv]; exact hai, ho, hp⟩
    · intro r x hx
      have hold : ∀ t, s.regOk r (.pending t) = true → s.env.writes s.pc r = false →
          s'.regOk r (.pending t) = true := by
        intro t hok hw
        rw [State.regOk_pending] at hok ⊢
        obtain ⟨hp, u, b, hu, hb, hi, hl⟩ := hok
        have hne : t ≠ ⟨i.op.pool, n⟩ := by
          rintro rfl
          rw [hu0] at hu
          cases hu
          rw [hb0] at hb
          cases hb
        exact ⟨hp, u, b, by rw [hslot, if_neg hne, hu], hb, hi,
          by rw [henv, hpc, Env.lastWriter_succ_of_not_writes hw, hl]⟩
      cases x with
      | value v => rfl
      | pending t =>
        simp only [State.reg?, hrf] at hx
        cases hd : i.dest with
        | none =>
          rw [hd] at hx
          refine hold t (h.regs r _ hx) ?_
          rw [← Bool.not_eq_true, Env.writes_iff hat, hd]
          simp
        | some d =>
          rw [hd] at hx
          rw [List.getElem?_set] at hx
          by_cases hdr : d.toNat = r
          · rw [if_pos hdr] at hx
            split at hx
            · cases hx
              rw [State.regOk_pending]
              refine ⟨?_, (Slot.ofInstr i oj ok s.pc).launch s.env.cfg i.op.pool, s.pc,
                by rw [hslot, if_pos rfl], by simp [Slot.ofInstr], by simp [Slot.ofInstr], ?_⟩
              · cases i <;> simp [Instr.dest, Instr.op, Op.pool] at hd ⊢
              · rw [henv, hpc]
                exact Env.lastWriter_succ_of_writes ((Env.writes_iff hat r).2 ⟨d, hd, hdr⟩)
            · cases hx
          · rw [if_neg hdr] at hx
            refine hold t (h.regs r _ hx) ?_
            rw [← Bool.not_eq_true, Env.writes_iff hat, hd]
            simpa using hdr

/-! ### The Execute phase -/

/-- The Execute phase clears every fresh bit, so it ends the cycle in a lawful state (R151 (d)). -/
theorem State.Mid.executePhase_lawful {s : State} (h : s.Mid) (hd : s.fsm ≠ .done) :
    s.executePhase.lawful = true := by
  have hslot := State.executePhase_slot? s
  have hop : ∀ a o, s.operandOk a o = true → s.executePhase.operandOk a o = true := by
    intro a o ho
    cases o with
    | empty => rfl
    | rdy v => rfl
    | wait t =>
      rw [State.operandOk_wait] at ho ⊢
      obtain ⟨hp, u, b, a', hu, hb, hi, ha, hlt⟩ := ho
      exact ⟨hp, u.tick t.pool, b, a', by rw [hslot, hu]; rfl, by simpa using hb, by simpa using hi, ha, hlt⟩
  -- the tick of a busy slot
  have htick : ∀ t u, s.slot? t = some u → u.busy = true →
      (u.tick t.pool).CountMid s.env.cfg t.pool ∧ (u.tick t.pool).fresh = false := by
    intro t u hu hb
    have hc := (h.busy t u hu hb).count
    unfold Slot.CountMid at hc
    cases hr : u.ready t.pool with
    | false =>
      rw [if_neg (by simp [hr])] at hc
      rw [Slot.tick_of_not_ready hr]
      unfold Slot.CountMid
      rw [if_neg (by simp [hr])]
      exact ⟨hc, hc.2⟩
    | true =>
      rw [if_pos hr] at hc
      obtain ⟨o, n, ho, hcn, hle, -⟩ := hc
      have hrt : (u.tick t.pool).ready t.pool = true := by simpa using hr
      unfold Slot.CountMid
      rw [if_pos hrt]
      cases hf : u.fresh with
      | true =>
        rw [Slot.tick_of_fresh hr hf]
        exact ⟨⟨o, n, ho, hcn, hle, fun h => by cases h⟩, rfl⟩
      | false =>
        cases n with
        | zero =>
          have : u.tick t.pool = u := by simp [Slot.tick, hr, hf, hcn]
          rw [this]
          exact ⟨⟨o, 0, ho, hcn, hle, fun h => by rw [hf] at h; cases h⟩, hf⟩
        | succ n =>
          rw [Slot.tick_of_count hr hf hcn]
          exact ⟨⟨o, n, ho, rfl, by omega, fun h => by simp [hf] at h⟩, hf⟩
  rw [State.lawful_iff_mid]
  refine ⟨⟨?_, by simpa using h.pcLe, ?_, ?_, ?_⟩, ?_, State.doneOk_of_ne hd⟩
  · obtain ⟨h1, h2, h3⟩ := (s.shapeOk_iff).1 h.shape
    rw [State.shapeOk_iff]
    exact ⟨by simpa using h1, fun p => by simpa using h2 p, by simpa using h3⟩
  · intro t u hu hb
    rw [hslot] at hu
    cases h0 : s.slot? t with
    | none => simp [h0] at hu
    | some u0 =>
      simp only [h0, Option.map_some, Option.some.injEq] at hu
      subst hu
      rw [h.idle t u0 h0 (by simpa using hb)]
      simp
  · intro t u hu hb
    rw [hslot] at hu
    cases h0 : s.slot? t with
    | none => simp [h0] at hu
    | some u0 =>
      simp only [h0, Option.map_some, Option.some.injEq] at hu
      subst hu
      have hb0 : u0.busy = true := by simpa using hb
      have hm := h.busy t u0 h0 hb0
      refine ⟨?_, ?_, by simpa using hop _ _ hm.opJ, by simpa using hop _ _ hm.opK,
        by simpa using (htick t u0 h0 hb0).1⟩
      · have := hm.kind
        revert this
        cases t.pool <;> simp [Slot.kindOk]
      · have := hm.serves
        rw [State.servesOk_iff] at this ⊢
        simpa using this
  · intro r x hx
    have := h.regs r x hx
    cases x with
    | value v => rfl
    | pending t =>
      rw [State.regOk_pending] at this ⊢
      obtain ⟨hp, u, b, hu, hb, hi, hl⟩ := this
      exact ⟨hp, u.tick t.pool, b, by rw [hslot, hu]; rfl, by simpa using hb, by simpa using hi,
        by simpa using hl⟩
  · intro t u hu
    rw [hslot] at hu
    cases h0 : s.slot? t with
    | none => simp [h0] at hu
    | some u0 =>
      simp only [h0, Option.map_some, Option.some.injEq] at hu
      subst hu
      cases hb0 : u0.busy with
      | true => exact (htick t u0 h0 hb0).2
      | false => rw [h.idle t u0 h0 hb0]; simp; rfl

end Sys2Proof.Machine
end

