-- ==== Sys2Proof/Laws/PerInstr.lean ====
section
/-! SUPPORT. A law said per instruction: the word of every instruction lies in its row of
spec/opcode_table.json, the row's mask and match taken from the table. -/

namespace Sys2Proof.Laws.TableRow

/-- The row's `mask`. -/
def mask : Instr → Word
  | .add _ _ _ => 0xE0003FFF
  | .sub _ _ _ => 0xE0003FFF
  | .mul _ _ _ => 0xE0003FFF
  | .div _ _ _ => 0xE0003FFF
  | .load _ _ _ => 0xE0030000
  | .store _ _ _ => 0xE0030000

/-- The row's `match`. -/
def pattern : Instr → Word
  | .add _ _ _ => 0x00000000
  | .sub _ _ _ => 0x20000000
  | .mul _ _ _ => 0x40000000
  | .div _ _ _ => 0x60000000
  | .load _ _ _ => 0x80000000
  | .store _ _ _ => 0xA0000000

/-- The instruction's word has its row's fixed bits. -/
def Statement (i : Instr) : Prop := encode i &&& mask i = pattern i

/-- The fixed bits of an R-format word, whatever its three indices. -/
theorem encodeR_masked (o : ArithOp) (rd rs1 rs2 : RegIdx) :
    encodeR o rd rs1 rs2 &&& 0xE0003FFF = o.code ++ 0#29 := by
  apply BitVec.eq_of_getLsbD_eq
  intro i hi
  simp only [encodeR, BitVec.getLsbD_and, BitVec.getLsbD_append]
  interval_cases i <;> simp

/-- The fixed bits of an M-format word, whatever its register, base and offset. -/
theorem encodeM_masked (o : Op) (rt : RegIdx) (off : Offset) (base : Base) :
    encodeM o rt off base &&& 0xE0030000 = o.code ++ 0#29 := by
  apply BitVec.eq_of_getLsbD_eq
  intro i hi
  simp only [encodeM, BitVec.getLsbD_and, BitVec.getLsbD_append]
  interval_cases i <;> simp

theorem add (rd rs1 rs2 : RegIdx) : Statement (.add rd rs1 rs2) := encodeR_masked .add rd rs1 rs2

theorem sub (rd rs1 rs2 : RegIdx) : Statement (.sub rd rs1 rs2) := encodeR_masked .sub rd rs1 rs2

theorem mul (rd rs1 rs2 : RegIdx) : Statement (.mul rd rs1 rs2) := encodeR_masked .mul rd rs1 rs2

theorem div (rd rs1 rs2 : RegIdx) : Statement (.div rd rs1 rs2) := encodeR_masked .div rd rs1 rs2

theorem load (rt : RegIdx) (off : Offset) (base : Base) : Statement (.load rt off base) :=
  encodeM_masked .load rt off base

theorem store (rt : RegIdx) (off : Offset) (base : Base) : Statement (.store rt off base) :=
  encodeM_masked .store rt off base

end Sys2Proof.Laws.TableRow
end

