-- ==== Sys2Proof/Laws/Sequencer.lean ====
section
/-! SUPPORT. Everything one step can do, said once: `step_cases` inverts a step that answers a next
state. -/

namespace Sys2Proof.Machine

/-! ### Fetch -/

theorem Env.instrAt_eq_some {e : Env} {a : Nat} {i : Instr} :
    e.instrAt a = some i ↔ ∃ w, e.word? a = some w ∧ decode e.cfg w = .ok i := by
  unfold Env.instrAt
  cases e.word? a with
  | none => simp
  | some w => cases hd : decode e.cfg w <;> simp [hd]

theorem Env.instrAt_lt {e : Env} {a : Nat} {i : Instr} (h : e.instrAt a = some i) : a < e.progLen := by
  obtain ⟨w, hw, -⟩ := Env.instrAt_eq_some.1 h
  exact (List.getElem?_eq_some_iff.1 hw).1

theorem decodeR_wf {c : Config} {o : ArithOp} {w : Word} {i : Instr} (h : decodeR c o w = .ok i) :
    i.wf c = true := by
  unfold decodeR at h
  split at h
  · cases h
  · split at h
    · cases h
    · rename_i hr
      cases h
      push Not at hr
      cases o <;> simp [ArithOp.instr, Instr.wf, regInRange, hr]

theorem decodeM_wf {c : Config} {mk : RegIdx → Offset → Base → Instr} {w : Word} {i : Instr}
    (hmk : ∀ rt off base, (mk rt off base).wf c = (regInRange c rt && base.wf c))
    (h : decodeM c mk w = .ok i) : i.wf c = true := by
  unfold decodeM at h
  split at h
  · cases h
  · split at h
    · cases h
    · split at h
      · cases h
      · split at h
        · cases h
        · rename_i hr hb
          cases h
          rw [hmk]
          by_cases hz : fieldBz w = 1
          · rw [if_pos hz]; simp [regInRange, Base.wf]; omega
          · have hz0 : fieldBz w = 0 := by
              generalize fieldBz w = b at hz
              revert hz; revert b; decide
            simp only [hz0, true_and] at hb
            rw [if_neg hz]
            simp [regInRange, Base.wf]
            omega

/-- Every word the decoder accepts has its operands in range (R67). -/
theorem decode_wf {c : Config} {w : Word} {i : Instr} (h : decode c w = .ok i) : i.wf c = true := by
  unfold decode at h
  split at h
  · exact decodeR_wf h
  · exact decodeR_wf h
  · exact decodeR_wf h
  · exact decodeR_wf h
  · exact decodeM_wf (fun _ _ _ => rfl) h
  · exact decodeM_wf (fun _ _ _ => rfl) h
  · cases h

theorem Env.wf_of_instrAt {e : Env} {a : Nat} {i : Instr} (h : e.instrAt a = some i) :
    i.wf e.cfg = true := by
  obtain ⟨w, -, hd⟩ := Env.instrAt_eq_some.1 h
  exact decode_wf hd

theorem Env.instrAt_of_validTo {e : Env} {k a : Nat} (h : e.validTo k = true) (ha : a < k) :
    ∃ i, e.instrAt a = some i := by
  simp only [Env.validTo, List.all_eq_true, List.mem_range] at h
  exact Option.isSome_iff_exists.1 (h a ha)

theorem Env.valid_iff (e : Env) :
    e.valid = true ↔ e.progLen ≤ e.cfg.progMax ∧ e.validTo e.progLen = true := by
  simp [Env.valid]

/-! ### Execution of an instruction in range always completes or stalls -/

/-- On a state of the right shape an instruction in range answers a next state. -/
theorem exec_of_wf {s : State} (hs : s.shapeOk = true) {i : Instr} (hw : i.wf s.env.cfg = true) :
    ∃ oj ok, s.Captured i.srcJ oj ∧ s.Captured i.srcK ok ∧
      exec i s = .next (s.issue i.op (Slot.ofInstr i oj ok s.pc) i.dest) := by
  cases i with
  | add rd rs1 rs2 =>
    have hw' := hw
    simp only [Instr.wf, Bool.and_eq_true] at hw
    obtain ⟨x, hx, hcx⟩ := captures_of_shape hs hw.1.2
    obtain ⟨y, hy, hcy⟩ := captures_of_shape hs hw.2
    refine ⟨x.capture, y.capture, ⟨x, hx, rfl⟩, ⟨y, hy, rfl⟩, ?_⟩
    simp only [exec, execAdd, issueArith, hcx, hcy]
    exact if_pos hw'
  | sub rd rs1 rs2 =>
    have hw' := hw
    simp only [Instr.wf, Bool.and_eq_true] at hw
    obtain ⟨x, hx, hcx⟩ := captures_of_shape hs hw.1.2
    obtain ⟨y, hy, hcy⟩ := captures_of_shape hs hw.2
    refine ⟨x.capture, y.capture, ⟨x, hx, rfl⟩, ⟨y, hy, rfl⟩, ?_⟩
    simp only [exec, execSub, issueArith, hcx, hcy]
    exact if_pos hw'
  | mul rd rs1 rs2 =>
    have hw' := hw
    simp only [Instr.wf, Bool.and_eq_true] at hw
    obtain ⟨x, hx, hcx⟩ := captures_of_shape hs hw.1.2
    obtain ⟨y, hy, hcy⟩ := captures_of_shape hs hw.2
    refine ⟨x.capture, y.capture, ⟨x, hx, rfl⟩, ⟨y, hy, rfl⟩, ?_⟩
    simp only [exec, execMul, issueArith, hcx, hcy]
    exact if_pos hw'
  | div rd rs1 rs2 =>
    have hw' := hw
    simp only [Instr.wf, Bool.and_eq_true] at hw
    obtain ⟨x, hx, hcx⟩ := captures_of_shape hs hw.1.2
    obtain ⟨y, hy, hcy⟩ := captures_of_shape hs hw.2
    refine ⟨x.capture, y.capture, ⟨x, hx, rfl⟩, ⟨y, hy, rfl⟩, ?_⟩
    simp only [exec, execDiv, issueArith, hcx, hcy]
    exact if_pos hw'
  | load rt off base =>
    refine ⟨.empty, .empty, rfl, rfl, ?_⟩
    simp only [exec, execLoad, issueLoad]
    exact if_pos hw
  | store rt off base =>
    have hw' := hw
    simp only [Instr.wf, Bool.and_eq_true] at hw
    obtain ⟨x, hx, hcx⟩ := captures_of_shape hs hw.1
    refine ⟨x.capture, .empty, ⟨x, hx, rfl⟩, rfl, ?_⟩
    simp only [exec, execStore, issueStore, hcx]
    exact if_pos hw'

/-! ### One step -/

/-- The ways a step can go from `s` to `s'` (R73, R74, R76, R77, R88, R111, R116, R119). -/
inductive StepCase (s s' : State) : Prop where
  | tooLong (hf : s.fsm = .validate) (hl : s.env.progLen > s.env.cfg.progMax)
      (he : s' = s.raise .parseError s.env.cfg.progMax)
  | accepted (hf : s.fsm = .validate) (hl : s.env.progLen ≤ s.env.cfg.progMax)
      (hv : s.vidx = s.env.progLen) (he : s' = { s with fsm := .run })
  | badWord (hf : s.fsm = .validate) (hl : s.env.progLen ≤ s.env.cfg.progMax)
      (hv : s.vidx ≠ s.env.progLen) (w : Word) (e : DecodeError) (hw : s.env.word? s.vidx = some w)
      (hd : decode s.env.cfg w = .err e) (he : s' = s.raise (errOf e) s.vidx)
  | goodWord (hf : s.fsm = .validate) (hl : s.env.progLen ≤ s.env.cfg.progMax)
      (hv : s.vidx ≠ s.env.progLen) (i : Instr) (hi : s.env.instrAt s.vidx = some i)
      (he : s' = { s with vidx := s.vidx + 1 })
  | finish (hf : s.fsm = .run) (ht : s.terminal = true) (he : s' = { s with fsm := .done })
  | overflow (hf : s.fsm = .run) (ht : s.terminal = false) (ho : s.overflows = true)
      (he : s' = s.raise .cycleOverflow s.pc)
  | drain (hf : s.fsm = .run) (ht : s.terminal = false) (ho : s.overflows = false)
      (hp : s.pc = s.env.progLen)
      (he : s' = ({ s.afterWriteback with stall := false } : State).executePhase)
  | attempt (hf : s.fsm = .run) (ht : s.terminal = false) (ho : s.overflows = false)
      (hp : s.pc ≠ s.env.progLen) (i : Instr) (u : State) (hi : s.env.instrAt s.pc = some i)
      (hx : exec i s.afterWriteback = .next u) (he : s' = u.executePhase)
  | done (hf : s.fsm = .done) (he : s' = s)
  | error (hf : s.fsm = .error) (he : s' = s)

/-- Everything a step that answers a next state can have done. -/
theorem step_cases {s s' : State} (h : step s = .next s') :
    s.env.cfg.wf = true ∧ s.lawful = true ∧ StepCase s s' := by
  unfold step sequencerStep at h
  split at h
  · rename_i hc
    split at h
    · rename_i hl
      refine ⟨hc, hl, ?_⟩
      unfold fsmStep at h
      split at h
      · rename_i hf
        unfold validateStep at h
        split at h
        · rename_i hg; cases h; exact .tooLong hf hg rfl
        · rename_i hg
          split at h
          · rename_i hv; cases h; exact .accepted hf (by omega) hv rfl
          · rename_i hv
            split at h
            · cases h
            · rename_i w hw
              split at h
              · rename_i e hd; cases h; exact .badWord hf (by omega) hv w e hw hd rfl
              · rename_i i hd
                cases h
                exact .goodWord hf (by omega) hv i (Env.instrAt_eq_some.2 ⟨w, hw, hd⟩) rfl
      · rename_i hf
        unfold runStep at h
        split at h
        · rename_i ht; cases h; exact .finish hf ht rfl
        · rename_i ht
          rw [Bool.not_eq_true] at ht
          split at h
          · rename_i ho; cases h; exact .overflow hf ht ho rfl
          · rename_i ho
            rw [Bool.not_eq_true] at ho
            unfold cycleStep at h
            split at h
            · rename_i u hu
              cases h
              unfold issuePhase at hu
              split at hu
              · rename_i hp; cases hu; exact .drain hf ht ho (by simpa using hp) rfl
              · rename_i hp
                split at hu
                · cases hu
                · rename_i w hw
                  split at hu
                  · cases hu
                  · rename_i i hd
                    exact .attempt hf ht ho (by simpa using hp) i u
                      (Env.instrAt_eq_some.2 ⟨w, by simpa using hw, by simpa using hd⟩) hu rfl
            · cases h
            · cases h
      · rename_i hf; cases h; exact .done hf rfl
      · rename_i hf; cases h; exact .error hf rfl
    · cases h
  · cases h

/-- An executed cycle of a lawful state: the state its Issue phase sees keeps the laws. -/
theorem State.mid_afterWriteback {s : State} (h : s.lawful = true) : s.afterWriteback.Mid :=
  State.Mid.writebackPhase (s := { s with cycle := s.cycle + 1 })
    ((State.mid_of_lawful h).congr rfl rfl rfl rfl rfl)

end Sys2Proof.Machine
end

