-- ==== Sys2Proof/Tests/Slice0.lean ====
section
/-! SUPPORT. The model's own tests. Expected results come from the spec's encodings and vectors
(30_encoding.md R72, 95_test_vectors.md), never from the model. Then a witness for each statement that has
hypotheses. -/

namespace Sys2Proof.Tests

open Sys2Proof.Machine Sys2Proof.Claims

/-! ### Helpers -/

/-- The state `k` steps after reset. -/
def after (k : Nat) (e : Env) : State :=
  match stepN k (State.resetOf e) with
  | .next s => s
  | .fault _ => State.resetOf e
  | .refused _ => State.resetOf e

/-- A small well-formed configuration. -/
def small : Config where
  nAdd := 2
  nMult := 1
  nLoad := 1
  nStore := 1
  latAdd := 2
  latSub := 1
  latMul := 3
  latDiv := 3
  latLoad := 1
  latStore := 1
  nReg := 4
  nBase := 2
  progMax := 4
  pcW := 3
  cycW := 6
  latW := 2

/-- A small configuration with registers F0 to F10, for the spec's own words; its latencies are those of
the example configuration E but for DIV. -/
def eleven : Config := { small with nReg := 11, nBase := 4, latSub := 2, latMul := 10, latDiv := 15,
                                    latLoad := 2, latStore := 2, latW := 4, nAdd := 3, nMult := 2,
                                    nLoad := 3, nStore := 3 }

/-! ### Ill-formed terms (WellFormed, Config) -/

theorem test_wf_refuses_rd : (Instr.add 4 0 0).wf small = false := by decide
theorem test_wf_refuses_rs1 : (Instr.sub 0 4 0).wf small = false := by decide
theorem test_wf_refuses_rs2 : (Instr.mul 0 0 31).wf small = false := by decide
theorem test_wf_refuses_div : (Instr.div 0 0 4).wf small = false := by decide
theorem test_wf_refuses_load_rt : (Instr.load 4 0 .zero).wf small = false := by decide
theorem test_wf_refuses_load_base : (Instr.load 0 0 (.reg 2)).wf small = false := by decide
theorem test_wf_refuses_store_rt : (Instr.store 4 0 .zero).wf small = false := by decide
theorem test_wf_refuses_store_base : (Instr.store 0 0 (.reg 2)).wf small = false := by decide
theorem test_wf_accepts : (Instr.store 3 65535 (.reg 1)).wf small = true := by decide
theorem test_cfg_accepts : Config.exampleE.wf = true ∧ small.wf = true ∧ eleven.wf = true := by decide
theorem test_cfg_refuses_empty_pool : ({ small with nStore := 0 } : Config).wf = false := by decide
theorem test_cfg_refuses_long_latency : ({ small with latDiv := 4 } : Config).wf = false := by decide
theorem test_cfg_refuses_prog_max : ({ small with progMax := 8 } : Config).wf = false := by decide

/-! ### Decoding words written out bit by bit (R60, R61) -/

theorem test_decode_add : decode Config.exampleE 0b000_00110_01000_01010_00000000000000 =
    .ok (.add 6 8 10) := by decide
theorem test_decode_sub : decode Config.exampleE 0b001_00100_00110_01000_00000000000000 =
    .ok (.sub 4 6 8) := by decide
theorem test_decode_mul : decode Config.exampleE 0b010_00000_00010_00100_00000000000000 =
    .ok (.mul 0 2 4) := by decide
theorem test_decode_div : decode Config.exampleE 0b011_01010_00000_00110_00000000000000 =
    .ok (.div 10 0 6) := by decide
theorem test_decode_load : decode Config.exampleE 0b100_00110_0_00010_00_0000000000100010 =
    .ok (.load 6 34 (.reg 2)) := by decide
theorem test_decode_store : decode Config.exampleE 0b101_00110_1_00000_00_0000000000000000 =
    .ok (.store 6 0 .zero) := by decide
/-- 95_test_vectors.md §2: the literal zero base and `R0` are different addresses. -/
theorem test_decode_zero_base : decode Config.exampleE 0x80800000 = .ok (.load 0 0 .zero) ∧
    decode Config.exampleE 0x80000000 = .ok (.load 0 0 (.reg 0)) := by decide
/-- 95_test_vectors.md §2, malformed words. -/
theorem test_decode_malformed :
    [0xC0000000, 0xE0000000, 0x00000001, 0x00002000, 0x80010000, 0x80020000, 0x80840000, 0x80FC0000,
      0xA7FC0000].all (fun w => decode Config.exampleE w == .err .parseError) = true := by decide
/-- 95_test_vectors.md §2 under D16: a malformed word with an operand out of range is a ParseError. -/
theorem test_decode_precedence :
    decode { Config.exampleE with nReg := 16, nBase := 8 } 0x1F000001 = .err .parseError ∧
    decode { Config.exampleE with nReg := 16, nBase := 8 } 0x9F840000 = .err .parseError := by decide
/-- 95_test_vectors.md §2 under D16, operands out of range. -/
theorem test_decode_out_of_range :
    [0x1F000000, 0x00F80000, 0x00078000, 0x90800000, 0x80200000, 0xA0200000, 0xBF80FFFF].all
      (fun w => decode { Config.exampleE with nReg := 16, nBase := 8 } w ==
        .err .invalidOperandError) = true := by decide
theorem test_encode_store : encode (.store 31 65535 .zero) = 0xBF80FFFF := by decide
theorem test_encode_load : encode (.load 0 65535 (.reg 31)) = 0x807CFFFF := by decide
theorem test_table_word : decodeTableWord 32 0x6A018000 = some (.div 10 0 6) := by decide

/-! ### One step of each instruction (95_test_vectors.md §§1, 3, 4) -/

/-- W1, end of cycle 1: `Mult0` holds the MUL with countdown 10, `F0` waits on it. -/
theorem test_mul_issues :
    let s := after 3 ⟨eleven, [0x40110000]⟩
    s.slot? ⟨.mult, 0⟩ = some { busy := true, op := some (.arith .mul), j := .rdy (.init 2),
                                k := .rdy (.init 4), addr := none, cnt := .k 10, fresh := false,
                                instr := some 0 } ∧
    s.reg? 0 = some (.pending ⟨.mult, 0⟩) ∧ s.trace[0]? = some ⟨some 1, some 12⟩ := by decide

/-- A6: an instruction whose destination is its source captures before it renames. -/
theorem test_add_captures_before_rename :
    let s := after 5 ⟨eleven, [0x00000000, 0x00000000]⟩
    (s.slot? ⟨.add, 1⟩).map (fun u => (u.j, u.k, u.cnt)) =
      some (.wait ⟨.add, 0⟩, .wait ⟨.add, 0⟩, .inf) ∧
    s.reg? 0 = some (.pending ⟨.add, 1⟩) := by decide

/-- A1: ADD alone is written back in cycle 4. -/
theorem test_add_written_back :
    (after 6 ⟨eleven, [0x06428000]⟩).reg? 6 =
      some (.value (.bin .add (.init 8) (.init 10))) := by decide

/-- A2: SUB keeps the order of its operands. -/
theorem test_sub_written_back :
    (after 6 ⟨eleven, [0x24320000]⟩).reg? 4 =
      some (.value (.bin .sub (.init 6) (.init 8))) := by decide

/-- A4: DIV issues into the Mult pool. -/
theorem test_div_issues :
    (after 3 ⟨eleven, [0x6A018000]⟩).reg? 10 = some (.pending ⟨.mult, 0⟩) := by decide

/-- W2: with one load slot the second LOAD stalls; `STATUS` at the end of cycle 2 is 0x11. -/
theorem test_load_stalls :
    (after 5 ⟨{ eleven with nLoad := 1 }, [0x86080022, 0x820C002D]⟩).status = 0x00000011 := by decide

/-- L1: LOAD alone is written back in cycle 4 as `M[34+R2]`. -/
theorem test_load_written_back :
    (after 6 ⟨eleven, [0x86080022]⟩).reg? 6 = some (.value (.mem 34 (.reg 2))) := by decide

/-- L2, end of cycle 4: the broadcast of `Load0` starts the STORE's countdown. -/
theorem test_store_wakes :
    let s := after 7 ⟨eleven, [0x86080022, 0xA6800000]⟩
    (s.slot? ⟨.store, 0⟩).map (fun u => (u.j, u.cnt)) = some (.rdy (.mem 34 (.reg 2)), .k 2) ∧
    s.slot? ⟨.load, 0⟩ = some Slot.free ∧ s.trace[1]? = some ⟨some 2, some 7⟩ := by decide

/-- L3: a STORE renames nothing. -/
theorem test_store_renames_nothing :
    (after 3 ⟨eleven, [0xA4040064]⟩).rf = (State.resetOf ⟨eleven, []⟩).rf := by decide

/-! ### The sequencer (95_test_vectors.md §5) -/

/-- Q1: the empty program ends in DONE after two steps. -/
theorem test_empty_program : (after 2 ⟨eleven, []⟩).status = 0x00000002 := by decide
/-- Q2: the lowest-index bad word is reported. -/
theorem test_parse_error :
    (after 2 ⟨eleven, [0x0110C000, 0xC0000000, 0x1F000000]⟩).status = 0x00010007 := by decide
/-- Q3. -/
theorem test_operand_error :
    (after 2 ⟨eleven, [0x0110C000, 0x1F000000]⟩).status = 0x0001000B := by decide
/-- Q6: `CYC_MAX` too small for the latency. -/
theorem test_cycle_overflow :
    (after 3 ⟨{ eleven with cycW := 4 }, [0x00110000]⟩).status = 0x0000000F := by decide
/-- Q7: a program longer than `PROG_MAX`. -/
theorem test_too_long :
    (after 1 ⟨{ eleven with pcW := 1, progMax := 1 }, [0, 0]⟩).status = 0x00010007 := by decide
/-- Q8: `rst = 1` in a run gives the reset state. -/
theorem test_reset_mid_run :
    let e : Env := ⟨eleven, [0x40110000, 0x06428000]⟩
    (match clockEdge true (after 5 e) with
      | .next s => s == State.resetOf e
      | .fault _ => false
      | .refused _ => false) = true := by decide
/-- R126: NONE shows as −1. -/
theorem test_snapshot_stamp :
    (State.resetOf ⟨small, []⟩).snapshot.stamps[0]? = some (-1, -1) := by decide
theorem test_tag_code : (Tag.mk .load 2).code = 0b100010 := by decide
/-- The word the host places is the one the next step runs. -/
theorem test_fetch_word :
    (match step (State.reset.withFetchWord 32 0x06428000) with
      | .next s => s.reg? 6 == some (.pending ⟨.add, 0⟩) && s.pc == 1
      | .fault _ => false
      | .refused _ => false) = true := by decide +kernel

/-! ### Witnesses: for each statement with hypotheses, values that meet all of them -/

/-- A program of three: `LOAD F0,0,0`, `ADD F1,F0,F0`, `STORE F1,0,0`. -/
def three : Env := ⟨small, [0x80800000, 0x01000000, 0xA1800000]⟩

/-- `three` at the end of cycle 2: the LOAD is complete, the ADD waits on it, the STORE has not issued. -/
def mid : State := after 6 three

/-- `three` at the end of cycle 1: the LOAD counts. -/
def early : State := after 5 three

/-- `LOAD F0,0,0` alone, in DONE. -/
def finished : State := after 6 ⟨small, [0x80800000]⟩

/-- A state of RUN in which the store slot is complete: `STORE F1,0,0` alone at the end of cycle 2. -/
def storing : State := after 4 ⟨small, [0xA1800000]⟩

/-- `mid` with a register that waits on a free slot, which no run reaches. -/
def broken : State := { mid with rf := mid.rf.set 3 (.pending ⟨.mult, 0⟩) }

theorem mid_inv : mid.Inv where
  cfgWf := by decide
  lawful := by decide
  fits := by decide
  errClear := by decide
  errSet := by decide
  validating := by decide
  running := by decide
  finished := by decide

theorem early_inv : early.Inv where
  cfgWf := by decide
  lawful := by decide
  fits := by decide
  errClear := by decide
  errSet := by decide
  validating := by decide
  running := by decide
  finished := by decide

theorem finished_inv : finished.Inv where
  cfgWf := by decide
  lawful := by decide
  fits := by decide
  errClear := by decide
  errSet := by decide
  validating := by decide
  running := by decide
  finished := by decide

/-- A claim about every slot, checked on the list of slots. -/
theorem forall_slots {s : State} {P : Tag → Slot → Prop} (h : ∀ x ∈ s.pools.tagged, P x.1 x.2) :
    ∀ t u, s.slot? t = some u → P t u :=
  fun t u hu => h (t, u) ((s.mem_tagged t u).2 hu)

/-- A claim about every trace entry, checked on the list of entries. -/
theorem forall_entries {s : State} {P : Nat → Stamp → Prop} (h : ∀ x ∈ s.trace.zipIdx, P x.2 x.1) :
    ∀ a st, s.trace[a]? = some st → P a st :=
  fun a st ha => h (st, a) (List.mem_zipIdx_iff_getElem?.2 ha)

theorem witness_DecodeOfEncode : (Instr.store 3 65535 (.reg 1)).wf small = true := by decide
theorem witness_EncodeOfDecode : decode small 0x80800000 = .ok (.load 0 0 .zero) := by decide
theorem witness_WordsOfTheSpecDecode : Config.exampleE.nReg = 32 ∧ Config.exampleE.nBase = 32 := by
  decide
/-- The state before validation's first word, a malformed one and one out of range. -/
theorem witness_ValidationRaises :
    [0xC0000000, 0x04000000].all (fun w =>
      let s := State.resetOf ⟨small, [w]⟩
      s.env.cfg == small && small.wf && s.lawful && s.fsm == .validate &&
      decide (s.env.progLen ≤ small.progMax) && s.env.word? s.vidx == some w) = true := by decide
/-- One word for each case of R66, the last bit of each reserved field. -/
theorem witness_MalformedWordsAreParseErrors :
    Malformed 0xC0000000 ∧ Malformed 0xE0000000 ∧ Malformed 0x00002000 ∧ Malformed 0x80020000 ∧
    Malformed 0x80FC0000 := by unfold Malformed bits; decide
/-- One word for each case of R67, at the first index out of range. -/
theorem witness_OutOfRangeWordsAreOperandErrors :
    (¬ Malformed 0x04000000 ∧ OutOfRange small 0x04000000) ∧
    (¬ Malformed 0x00200000 ∧ OutOfRange small 0x00200000) ∧
    (¬ Malformed 0x00010000 ∧ OutOfRange small 0x00010000) ∧
    (¬ Malformed 0x84800000 ∧ OutOfRange small 0x84800000) ∧
    (¬ Malformed 0xA0080000 ∧ OutOfRange small 0xA0080000) := by
  unfold Malformed OutOfRange bits; exact ⟨by decide, by decide, by decide, by decide, by decide⟩
theorem witness_TagCodesAreDistinct :
    let c : Config := { small with nStore := 16 }
    c.wf = true ∧ (Tag.mk .store 15).idx < c.cap .store ∧
      (Tag.mk .store 15).code = (Tag.mk .store 15).code := by decide
theorem witness_StepRunsTheDecodedInstruction :
    mid.env.cfg.wf = true ∧ mid.lawful = true ∧ mid.executes = true ∧
    mid.env.word? mid.pc = some 0xA1800000 ∧
    decode mid.env.cfg 0xA1800000 = .ok (.store 1 0 .zero) := by decide
theorem witness_DrainCycleIssuesNothing :
    storing.env.cfg.wf = true ∧ storing.lawful = true ∧ storing.executes = true ∧
    storing.pc = storing.env.progLen := by decide
theorem witness_TerminalStepEndsTheRun :
    let s := after 1 ⟨small, []⟩
    s.env.cfg.wf = true ∧ s.lawful = true ∧ s.fsm = .run ∧ s.pc = s.env.progLen ∧
    (∀ t u, s.slot? t = some u → u.busy = false) :=
  ⟨by decide, by decide, by decide, by decide, (State.allFree_iff _).1 (by decide)⟩
theorem witness_DoneIsFinal :
    finished.env.cfg.wf = true ∧ finished.lawful = true ∧ finished.fsm = .done := by decide
theorem witness_ErrorIsFinal :
    let s := after 1 ⟨small, [0xC0000000]⟩
    s.env.cfg.wf = true ∧ s.lawful = true ∧ s.fsm = .error := by decide
/-- A state for each clause: too long, the end, a malformed word, an operand out of range, a good word. -/
theorem witness_ValidateStepChecksOneWord :
    let s (p : List Word) := State.resetOf ⟨small, p⟩
    (s [0, 0, 0, 0, 0]).env.cfg.wf = true ∧ (s [0, 0, 0, 0, 0]).lawful = true ∧
    (s [0, 0, 0, 0, 0]).fsm = .validate ∧
    (s [0, 0, 0, 0, 0]).env.cfg.progMax < (s [0, 0, 0, 0, 0]).env.progLen ∧
    (s []).vidx = (s []).env.progLen ∧ (s [0, 0, 0, 0]).env.progLen ≤ (s []).env.cfg.progMax ∧
    decode small 0x00000001 = .err .parseError ∧
    decode small 0x04000000 = .err .invalidOperandError ∧
    decode small 0x03000000 = .ok (.add 3 0 0) := by decide
theorem witness_ValidProgramReachesRun : three.cfg.wf = true ∧ three.valid = true := by decide
theorem witness_FirstBadWordIsReported :
    let e : Env := ⟨small, [0x80800000, 0x04000000]⟩
    e.cfg.wf = true ∧ e.progLen ≤ e.cfg.progMax ∧ e.validTo 1 = true ∧
    e.word? 1 = some 0x04000000 ∧ decode e.cfg 0x04000000 = .err .invalidOperandError := by decide
/-- At the bound: `CYC_MAX = 7`, `LMAX = 3`, and `cycle = 3` is the least that overflows. -/
theorem witness_CycleOverflowIsRaised :
    let s := after 5 ⟨{ small with cycW := 3 }, [0x40000000]⟩
    s.env.cfg.wf = true ∧ s.lawful = true ∧ s.fsm = .run ∧ s.terminal = false ∧
    2 ^ s.env.cfg.cycW - 1 < s.cycle + s.env.cfg.lmax + 2 ∧ s.cycle = 3 := by decide
theorem witness_ResetTakesPriority : mid.env.cfg.wf = true := by decide
/-- A register, a slot and a trace entry at the top of their ranges. -/
theorem witness_ResetValues :
    3 < small.nReg ∧ (Tag.mk .add 1).idx < small.cap (Tag.mk .add 1).pool ∧ 3 < small.progMax := by
  decide
theorem witness_IllFormedConfigIsRefused :
    ({ small with nAdd := 0 } : Config).wf = false := by decide
theorem witness_IllFormedConfigHasNoMove :
    (State.resetOf ⟨{ small with nAdd := 0 }, []⟩).env.cfg.wf = false := by decide
/-- R150: at DONE a register that is still pending breaks the law, even on a busy slot. -/
theorem test_done_with_pending :
    let s : State := { mid with fsm := .done }
    mid.lawful = true ∧ s.lawful = false ∧ s.goodFinal = false ∧ s.isFault = true := by decide
theorem witness_BrokenLawIsAFault : broken.env.cfg.wf = true ∧ broken.lawful = false := by decide
/-- A pending register, an operand that waits, and a state of DONE with a register. -/
theorem witness_LawfulStatesHaveNoStaleTags :
    (mid.lawful = true ∧ mid.reg? 0 = some (.pending ⟨.load, 0⟩) ∧
      (mid.slot? ⟨.add, 0⟩).map (fun u => (u.j, u.k)) = some (.wait ⟨.load, 0⟩, .wait ⟨.load, 0⟩)) ∧
    finished.lawful = true ∧ finished.fsm = .done ∧ 3 < finished.env.cfg.nReg := by decide
/-- The issue of each arithmetic instruction, with one source pending and the other a value. -/
theorem witness_ArithmeticInstructionsIssue :
    mid.shapeOk = true ∧ mid.trace[mid.pc]? = some ⟨none, none⟩ ∧
    (Instr.add 2 0 3).wf small = true ∧ (Instr.sub 2 0 3).wf small = true ∧
    (Instr.mul 2 0 3).wf small = true ∧ (Instr.div 2 0 3).wf small = true ∧ mid.env.cfg = small ∧
    mid.reg? 0 = some (.pending ⟨.load, 0⟩) ∧ mid.reg? 3 = some (.value (.init 3)) ∧
    (Instr.add 0 2 3).wf small = true ∧ mid.reg? 2 = some (.value (.init 2)) ∧
    mid.findFree .add = some 1 ∧ mid.findFree .mult = some 0 := by decide
theorem witness_LoadIssues :
    storing.shapeOk = true ∧ storing.trace[storing.pc]? = some ⟨none, none⟩ ∧
    (Instr.load 3 65535 (.reg 1)).wf storing.env.cfg = true ∧ storing.findFree .load = some 0 := by
  decide
theorem witness_StoreIssues :
    mid.shapeOk = true ∧ mid.trace[mid.pc]? = some ⟨none, none⟩ ∧
    (Instr.store 1 0 .zero).wf mid.env.cfg = true ∧ mid.reg? 1 = some (.pending ⟨.add, 0⟩) ∧
    (Instr.store 2 0 .zero).wf mid.env.cfg = true ∧ mid.reg? 2 = some (.value (.init 2)) ∧
    mid.findFree .store = some 0 := by decide

/-- The outcome is a next state. -/
def goesOn : Host.Outcome State Fault Refusal → Bool
  | .next _ => true
  | .fault _ => false
  | .refused _ => false

theorem witness_RenamingInstructionsFrame :
    goesOn (exec (.add 2 0 3) mid) = true ∧ goesOn (exec (.sub 2 0 3) mid) = true ∧
    goesOn (exec (.mul 2 0 3) mid) = true ∧ goesOn (exec (.div 2 0 3) mid) = true ∧
    goesOn (exec (.load 2 0 .zero) mid) = true := by decide
/-- The LOAD of `storing` issues: `pc` advances. -/
theorem witness_RenamingInstructionsFrame_load :
    (match exec (.load 2 0 .zero) storing with
      | .next u => u.pc == storing.pc + 1 && u.reg? 2 == some (.pending ⟨.load, 0⟩)
      | .fault _ => false
      | .refused _ => false) = true := by decide
theorem witness_StoreFrame : goesOn (exec (.store 2 0 (.reg 1)) mid) = true := by decide
theorem witness_FullPoolOnlyStalls :
    mid.shapeOk = true ∧ (Instr.load 2 0 .zero).wf mid.env.cfg = true ∧
    (∀ n u, mid.slot? ⟨.load, n⟩ = some u → u.busy = true) :=
  ⟨by decide, by decide, (State.findFree_eq_none _ _).1 (by decide)⟩
theorem witness_OperandOutOfRangeFaults : (Instr.add 4 0 0).wf mid.env.cfg = false := by decide
theorem witness_StallMarksTheStructuralHazard :
    (mid.Inv ∧ mid.executes = true ∧ goesOn (step mid) = true) ∧
    finished.Inv ∧ finished.executes = false ∧ goesOn (step finished) = true :=
  ⟨⟨mid_inv, by decide, by decide⟩, finished_inv, by decide, by decide⟩
/-- Two LOADs and one load slot, at the end of cycle 1: the next cycle ends with `stall = 1`. -/
def full : State := after 4 ⟨small, [0x80800000, 0x81800000]⟩

theorem full_inv : full.Inv where
  cfgWf := by decide
  lawful := by decide
  fits := by decide
  errClear := by decide
  errSet := by decide
  validating := by decide
  running := by decide
  finished := by decide

theorem witness_StallMarksTheStructuralHazard_stalls :
    full.Inv ∧ full.executes = true ∧
    (match step full with
      | .next t => t.stall
      | .fault _ => false
      | .refused _ => false) = true := ⟨full_inv, by decide, by decide⟩
theorem witness_CompleteSlotsAreWrittenBack :
    mid.lawful = true ∧ ∃ u, mid.slot? ⟨.load, 0⟩ = some u ∧ u.complete .load = true ∧
      u.result .load = some (.mem 0 .zero) ∧ mid.reg? 0 = some (.pending ⟨.load, 0⟩) ∧
    ∃ w, mid.slot? ⟨.add, 0⟩ = some w ∧ w.complete .add = false ∧ w.j = .wait ⟨.load, 0⟩ ∧
      w.k = .wait ⟨.load, 0⟩ := by
  refine ⟨by decide, (mid.slot? ⟨.load, 0⟩).get (by decide), by decide, by decide, by decide,
    by decide, (mid.slot? ⟨.add, 0⟩).get (by decide), ?_, ?_, ?_, ?_⟩ <;> decide
theorem witness_OtherSlotsKeepServing :
    mid.lawful = true ∧ ∃ u, mid.slot? ⟨.add, 0⟩ = some u ∧ u.complete .add = false ∧
      u.busy = true := by
  refine ⟨by decide, (mid.slot? ⟨.add, 0⟩).get (by decide), ?_, ?_, ?_⟩ <;> decide
theorem witness_StoresCompleteSilently :
    storing.lawful = true ∧ ∃ u, storing.slot? ⟨.store, 0⟩ = some u ∧ u.complete .store = true := by
  refine ⟨by decide, (storing.slot? ⟨.store, 0⟩).get (by decide), ?_, ?_⟩ <;> decide

/-- Two slots complete in one cycle: with latencies 2 and 1, `ADD F0,F2,F2` then `SUB F1,F2,F2`. -/
def both : State := after 6 ⟨small, [0x00108000, 0x21108000]⟩

theorem witness_WritebackOrderIsUnobservable :
    both.lawful = true ∧ both.completeTags = [⟨.add, 0⟩, ⟨.add, 1⟩] ∧
    ([⟨.add, 1⟩, ⟨.add, 0⟩] : List Tag).Perm both.completeTags := by
  have h : both.completeTags = [⟨.add, 0⟩, ⟨.add, 1⟩] := by decide
  refine ⟨by decide, h, ?_⟩
  rw [h]
  exact List.Perm.swap _ _ _
theorem witness_ResultTerms :
    ∃ u : Slot, u.op = some (.arith .div) ∧ u.j = .rdy (.init 0) ∧ u.k = .rdy (.init 0) ∧
      u.addr = some ⟨0, .zero⟩ :=
  ⟨{ Slot.ofArith .div (.rdy (.init 0)) (.rdy (.init 0)) 0 with addr := some ⟨0, .zero⟩ }, rfl, rfl,
    rfl, rfl⟩
/-- A register for each clause. -/
theorem witness_BroadcastResolvesRegisters :
    mid.reg? 0 = some (.pending ⟨.load, 0⟩) ∧ mid.reg? 1 ≠ some (.pending ⟨.load, 0⟩) := by decide
/-- The broadcast of `Load0` in `mid` wakes the ADD, which alone serves instruction 1. -/
theorem witness_BroadcastResolvesOperands :
    ∃ u, mid.slot? ⟨.add, 0⟩ = some u ∧ u.j = .wait ⟨.load, 0⟩ ∧
      (u.resolve ⟨.load, 0⟩ (.mem 0 .zero)).ready .add = true ∧ u.cnt = .inf ∧ u.instr = some 1 ∧
      u.op = some (.arith .add) ∧ mid.trace[1]? = some ⟨some 2, none⟩ ∧
      ∀ q u', mid.slot? q = some u' → u'.instr = some 1 → q = ⟨.add, 0⟩ := by
  refine ⟨(mid.slot? ⟨.add, 0⟩).get (by decide), by decide, by decide, by decide, by decide,
    by decide, by decide, by decide, ?_⟩
  exact forall_slots (by decide)
theorem witness_ReadyAndComplete :
    let s : State := { mid with pools := { mid.pools with
      load := [{ Slot.ofLoad 0 .zero 0 with cnt := .k 0, fresh := true }] } }
    ∃ u, s.slot? ⟨.load, 0⟩ = some u ∧ u.ready .load = true ∧ u.cnt = .k 0 ∧ u.fresh = true :=
  ⟨{ Slot.ofLoad 0 .zero 0 with cnt := .k 0, fresh := true }, rfl, rfl, rfl, rfl⟩
/-- A slot for each clause: fresh, counting, not ready; and a cycle that issues. -/
theorem witness_ExecuteTicksReadySlots :
    (mid.lawful = true ∧ goesOn (issuePhase mid.afterWriteback) = true) ∧
    (∃ u, (after 5 three).slot? ⟨.load, 0⟩ = some u ∧ u.ready .load = true ∧ u.fresh = false ∧
      u.cnt = .k 1) ∧
    (∃ u, mid.slot? ⟨.load, 0⟩ = some u ∧ u.ready .load = true ∧ u.fresh = false ∧ u.cnt = .k 0) ∧
    (∃ u, mid.slot? ⟨.add, 0⟩ = some u ∧ u.ready .add = false) ∧
    (∃ u, mid.afterWriteback.slot? ⟨.add, 0⟩ = some u ∧ u.ready .add = true ∧ u.fresh = true) ∧
    mid.slot? ⟨.add, 2⟩ = none := by
  refine ⟨by decide, ⟨(early.slot? ⟨.load, 0⟩).get (by decide), by decide, by decide, by decide,
    by decide⟩, ⟨(mid.slot? ⟨.load, 0⟩).get (by decide), by decide, by decide, by decide, by decide⟩,
    ⟨(mid.slot? ⟨.add, 0⟩).get (by decide), by decide, by decide⟩,
    ⟨(mid.afterWriteback.slot? ⟨.add, 0⟩).get (by decide), by decide, by decide, by decide⟩,
    by decide⟩
theorem witness_CountingSlotCountsDown :
    early.Inv ∧ early.executes = true ∧
    (∃ u, early.slot? ⟨.load, 0⟩ = some u ∧ u.ready .load = true ∧ u.cnt = .k 1) ∧
    goesOn (step early) = true := by
  refine ⟨early_inv, by decide, ⟨(early.slot? ⟨.load, 0⟩).get (by decide), ?_, ?_, ?_⟩, ?_⟩ <;> decide
theorem witness_ResetMeetsTheInvariants : three.cfg.wf = true := by decide
theorem witness_EveryStepGoesOnAndKeepsInv : mid.Inv := mid_inv

theorem mid_traceLaw : mid.TraceLaw where
  issued := by
    intro a ha
    have h2 : mid.pc = 2 := by decide
    rw [h2] at ha
    interval_cases a
    · exact ⟨⟨some 1, some 3⟩, 1, by decide, rfl, by decide, by decide⟩
    · exact ⟨⟨some 2, none⟩, 2, by decide, rfl, by decide, by decide⟩
  notIssued := fun a st h ha =>
    forall_entries (s := mid) (P := fun a st => mid.pc ≤ a → st.issue = none ∧ st.wb = none)
      (by decide) a st ha h
  inOrder := by
    have hT : mid.trace = [⟨some 1, some 3⟩, ⟨some 2, none⟩, ⟨none, none⟩, ⟨none, none⟩] := by decide
    intro a b sa sb x y hab ha hb hx hy
    rw [hT] at ha hb
    rcases a with _ | _ | _ | _ | a <;> rcases b with _ | _ | _ | _ | b <;> simp at ha hb <;>
      subst ha <;> subst hb <;> simp at hx hy <;> omega
  waiting := by
    intro t u a st hu
    revert t u
    refine fun t u hu => ?_
    revert a st
    exact forall_slots (s := mid)
      (P := fun t u => ∀ a st, u.instr = some a → u.ready t.pool = false →
        mid.trace[a]? = some st → st.wb = none)
      (by
        have hq : mid.pools.tagged.filter (fun x => x.2.busy && !x.2.ready x.1.pool) =
            [(⟨.add, 0⟩, Slot.ofArith .add (.wait ⟨.load, 0⟩) (.wait ⟨.load, 0⟩) 1)] := by decide
        intro x hx a st hi hr hst
        have hb : x.2.busy = true := by
          have : ∀ x ∈ mid.pools.tagged, x.2.instr ≠ none → x.2.busy = true := by decide
          exact this x hx (by simp [hi])
        have hm : x ∈ mid.pools.tagged.filter (fun x => x.2.busy && !x.2.ready x.1.pool) := by
          simp [hx, hb, hr]
        rw [hq, List.mem_singleton] at hm
        subst hm
        cases hi
        have h1 : mid.trace[1]? = some ⟨some 2, none⟩ := by decide
        rw [h1] at hst
        cases hst
        rfl) t u hu
  counting := by
    intro t u a n st hu hi hr hc hst
    have hq : mid.pools.tagged.filter (fun x => x.2.ready x.1.pool) =
        [(⟨.load, 0⟩, { Slot.ofLoad 0 .zero 0 with cnt := .k 0 })] := by decide
    have hm : (t, u) ∈ mid.pools.tagged.filter (fun x => x.2.ready x.1.pool) := by
      simp [(mid.mem_tagged t u).2 hu, hr]
    rw [hq, List.mem_singleton] at hm
    cases hm
    cases hi
    cases hc
    have h0 : mid.trace[0]? = some ⟨some 1, some 3⟩ := by decide
    rw [h0] at hst
    cases hst
    decide
  gap := by
    have hT : mid.trace = [⟨some 1, some 3⟩, ⟨some 2, none⟩, ⟨none, none⟩, ⟨none, none⟩] := by decide
    intro a st x y i ha hx hy hi
    rw [hT] at ha
    rcases a with _ | _ | _ | _ | a <;> simp at ha <;> subst ha <;> simp at hx hy
    subst hx hy
    have : mid.env.instrAt 0 = some (.load 0 0 .zero) := by decide
    rw [this] at hi
    cases hi
    decide
  single := by
    intro t t' u u' a hu hu' hi hi'
    have := forall_slots (s := mid)
      (P := fun t u => ∀ x ∈ mid.pools.tagged, u.instr ≠ none → x.2.instr = u.instr → t = x.1)
      (by decide) t u hu (t', u') ((mid.mem_tagged t' u').2 hu') (by simp [hi]) (by rw [hi, hi'])
    exact this
  handled := by
    intro a st ha hst hn
    have h2 : mid.pc = 2 := by decide
    rw [h2] at ha
    interval_cases a
    · exact absurd rfl (hn ⟨.load, 0⟩ { Slot.ofLoad 0 .zero 0 with cnt := .k 0 } (by decide))
    · exact absurd rfl (hn ⟨.add, 0⟩ (Slot.ofArith .add (.wait ⟨.load, 0⟩) (.wait ⟨.load, 0⟩) 1)
        (by decide))

theorem witness_EveryStepKeepsTheTraceLaw : mid.Inv ∧ mid.TraceLaw ∧ goesOn (step mid) = true :=
  ⟨mid_inv, mid_traceLaw, by decide⟩

theorem witness_EveryStepKeepsTheDeadlines :
    mid.Inv ∧ mid.DeadlineLaw ∧ goesOn (step mid) = true := by
  refine ⟨mid_inv, ⟨?_, by decide, by decide⟩, by decide⟩
  intro t u a n hu hi hr hc
  have hq : mid.pools.tagged.filter (fun x => x.2.ready x.1.pool) =
      [(⟨.load, 0⟩, { Slot.ofLoad 0 .zero 0 with cnt := .k 0 })] := by decide
  have hm : (t, u) ∈ mid.pools.tagged.filter (fun x => x.2.ready x.1.pool) := by
    simp [(mid.mem_tagged t u).2 hu, hr]
  rw [hq, List.mem_singleton] at hm
  cases hm
  cases hi
  cases hc
  decide

theorem witness_EveryStepKeepsTheDataflow :
    mid.Inv ∧ mid.DataflowLaw ∧ goesOn (step mid) = true := by
  refine ⟨mid_inv, ⟨?_, ?_⟩, by decide⟩
  · have hR : mid.rf = [.pending ⟨.load, 0⟩, .pending ⟨.add, 0⟩, .value (.init 2), .value (.init 3)] := by
      decide
    intro r v hr
    simp only [State.reg?, hR] at hr
    rcases r with _ | _ | _ | _ | r <;> simp at hr <;> subst hr <;> decide
  · intro t u a i hu hi hat
    have hq : mid.pools.tagged.filter (fun x => x.2.instr.isSome) =
        [(⟨.load, 0⟩, { Slot.ofLoad 0 .zero 0 with cnt := .k 0 }),
          (⟨.add, 0⟩, Slot.ofArith .add (.wait ⟨.load, 0⟩) (.wait ⟨.load, 0⟩) 1)] := by decide
    have hm : (t, u) ∈ mid.pools.tagged.filter (fun x => x.2.instr.isSome) := by
      simp [(mid.mem_tagged t u).2 hu, hi]
    rw [hq, List.mem_cons, List.mem_singleton] at hm
    rcases hm with hm | hm <;> cases hm <;> cases hi
    · have : mid.env.instrAt 0 = some (.load 0 0 .zero) := by decide
      rw [this] at hat
      cases hat
      exact ⟨rfl, rfl, rfl⟩
    · have : mid.env.instrAt 1 = some (.add 1 0 0) := by decide
      rw [this] at hat
      cases hat
      exact ⟨⟨{ Slot.ofLoad 0 .zero 0 with cnt := .k 0 }, by decide, by decide⟩,
        ⟨{ Slot.ofLoad 0 .zero 0 with cnt := .k 0 }, by decide, by decide⟩, rfl⟩

theorem witness_DoneHoldsTheSequentialResult :
    small.wf = true ∧ goesOn (stepN 6 (State.resetOf ⟨small, [0x80800000]⟩)) = true ∧
    finished.fsm = .done := by decide
theorem witness_EveryValidRunEnds : three.cfg.wf = true ∧ three.valid = true ∧
    three.progLen * (three.cfg.lmax + 1) + three.cfg.lmax + 2 ≤ three.cfg.cycMax := by decide
/-- Two states that differ in a value alone. -/
theorem witness_ControlIgnoresValues :
    let t : State := { mid with rf := mid.rf.set 3 (.value (.init 2)) }
    t ≠ mid ∧ t.skeleton = mid.skeleton := by decide
/-- `MUL F0,F0,F0` in flight when the next cycle would overflow. -/
def overflowing : State := after 5 ⟨{ small with cycW := 3 }, [0x40000000]⟩

/-- `ADD F0,F0,F0` twice, at the end of cycle 1: the second issues in the next. -/
def twice : State := after 4 ⟨small, [0x00000000, 0x00000000]⟩

theorem overflowing_inv : overflowing.Inv where
  cfgWf := by decide
  lawful := by decide
  fits := by decide
  errClear := by decide
  errSet := by decide
  validating := by decide
  running := by decide
  finished := by decide

theorem twice_inv : twice.Inv where
  cfgWf := by decide
  lawful := by decide
  fits := by decide
  errClear := by decide
  errSet := by decide
  validating := by decide
  running := by decide
  finished := by decide

/-- The `pc` after a step. -/
def pcAfter (s : State) : Option Nat :=
  match step s with
  | .next t => some t.pc
  | .fault _ => none
  | .refused _ => none

/-- A register for each clause: no cycle, a writer that issues, a broadcast, and neither. -/
theorem witness_PendingIsReplacedInTwoWays :
    (overflowing.Inv ∧ goesOn (step overflowing) = true ∧ overflowing.executes = false ∧
      overflowing.reg? 0 = some (.pending ⟨.mult, 0⟩)) ∧
    (twice.Inv ∧ twice.executes = true ∧ twice.reg? 0 = some (.pending ⟨.add, 0⟩) ∧
      twice.env.writes twice.pc 0 = true ∧ pcAfter twice = some (twice.pc + 1)) ∧
    (mid.Inv ∧ mid.executes = true ∧ goesOn (step mid) = true ∧
      mid.env.writes mid.pc 0 = false ∧ mid.reg? 0 = some (.pending ⟨.load, 0⟩) ∧
      (mid.slot? ⟨.load, 0⟩).map (fun u => u.complete .load) = some true ∧
      mid.env.writes mid.pc 1 = false ∧ mid.reg? 1 = some (.pending ⟨.add, 0⟩) ∧
      (mid.slot? ⟨.add, 0⟩).map (fun u => u.complete .add) = some false) :=
  ⟨⟨overflowing_inv, by decide, by decide, by decide⟩,
    ⟨twice_inv, by decide, by decide, by decide, by decide⟩,
    ⟨mid_inv, by decide, by decide, by decide, by decide, by decide, by decide, by decide,
      by decide⟩⟩
theorem witness_StampIsTheHandlingCycle :
    mid.Inv ∧ mid.TraceLaw ∧
    (∃ u, mid.slot? ⟨.load, 0⟩ = some u ∧ u.instr = some 0 ∧ u.complete .load = true) ∧
    mid.trace[0]? = some ⟨some 1, some (mid.cycle + 1)⟩ := by
  refine ⟨mid_inv, mid_traceLaw, ⟨(mid.slot? ⟨.load, 0⟩).get (by decide), ?_, ?_, ?_⟩, ?_⟩ <;> decide
theorem finished_traceLaw : finished.TraceLaw where
  issued := by
    intro a ha
    have h1 : finished.pc = 1 := by decide
    rw [h1] at ha
    interval_cases a
    exact ⟨⟨some 1, some 3⟩, 1, by decide, rfl, by decide, by decide⟩
  notIssued := fun a st h ha =>
    forall_entries (s := finished) (P := fun a st => finished.pc ≤ a → st.issue = none ∧ st.wb = none)
      (by decide) a st ha h
  inOrder := by
    have hT : finished.trace = [⟨some 1, some 3⟩, ⟨none, none⟩, ⟨none, none⟩, ⟨none, none⟩] := by decide
    intro a b sa sb x y hab ha hb hx hy
    rw [hT] at ha hb
    rcases a with _ | _ | _ | _ | a <;> rcases b with _ | _ | _ | _ | b <;> simp at ha hb <;>
      subst ha <;> subst hb <;> simp at hx hy
    omega
  waiting := fun t u a st hu hi =>
    absurd hi (by
      have := forall_slots (s := finished) (P := fun _ u => u.instr = none) (by decide) t u hu
      simp [this])
  counting := fun t u a n st hu hi =>
    absurd hi (by
      have := forall_slots (s := finished) (P := fun _ u => u.instr = none) (by decide) t u hu
      simp [this])
  gap := by
    have hT : finished.trace = [⟨some 1, some 3⟩, ⟨none, none⟩, ⟨none, none⟩, ⟨none, none⟩] := by decide
    intro a st x y i ha hx hy hi
    rw [hT] at ha
    rcases a with _ | _ | _ | _ | a <;> simp at ha <;> subst ha <;> simp at hx hy
    subst hx hy
    have : finished.env.instrAt 0 = some (.load 0 0 .zero) := by decide
    rw [this] at hi
    cases hi
    decide
  single := fun t t' u u' a hu _ hi =>
    absurd hi (by
      have := forall_slots (s := finished) (P := fun _ u => u.instr = none) (by decide) t u hu
      simp [this])
  handled := by
    intro a st ha hst _
    have h1 : finished.pc = 1 := by decide
    rw [h1] at ha
    interval_cases a
    have h0 : finished.trace[0]? = some ⟨some 1, some 3⟩ := by decide
    rw [h0] at hst
    cases hst
    exact ⟨3, rfl, by decide⟩
theorem witness_DoneLeavesNothingPending :
    finished.Inv ∧ finished.TraceLaw ∧ finished.fsm = .done :=
  ⟨finished_inv, finished_traceLaw, by decide⟩
/-- The oldest busy slot of `mid` is `Load0`, which serves instruction 0. -/
theorem witness_SomeBusySlotIsReady :
    mid.lawful = true ∧ ∃ u, mid.slot? ⟨.load, 0⟩ = some u ∧ u.busy = true ∧ u.instr = some 0 ∧
      ∀ t' u' b, mid.slot? t' = some u' → u'.busy = true → u'.instr = some b → 0 ≤ b :=
  ⟨by decide, (mid.slot? ⟨.load, 0⟩).get (by decide), by decide, by decide, by decide,
    fun _ _ _ _ _ _ => Nat.zero_le _⟩
theorem witness_IssueIsInProgramOrder :
    mid.Inv ∧ mid.trace[2]? = some ⟨none, none⟩ ∧ pcAfter mid = some (mid.pc + 1) :=
  ⟨mid_inv, by decide, by decide⟩
theorem witness_ParametersNeverChange :
    goesOn (clockEdge false mid) = true ∧ goesOn (clockEdge true mid) = true := by decide
/-- The codes of R35 and R113 in STATUS, one state of each. -/
theorem test_status_codes :
    (State.resetOf three).status = 0x00000000 ∧ mid.status = 0x00000001 ∧
    finished.status = 0x00000002 ∧ (after 1 ⟨small, [0xC0000000]⟩).status = 0x00000007 ∧
    (after 1 ⟨small, [0x04000000]⟩).status = 0x0000000B := by decide
theorem witness_CycleAndPcRegisters : mid.Inv := mid_inv
/-- A state before validation's first word, and one in RUN before the end of the program. -/
theorem witness_PortsShowTheState :
    ((State.resetOf three).Inv ∧ (State.resetOf three).fsm = .validate ∧
      (State.resetOf three).vidx < (State.resetOf three).env.progLen) ∧
    mid.Inv ∧ mid.fsm = .run ∧ mid.pc < mid.env.progLen :=
  ⟨⟨⟨by decide, by decide, by decide, by decide, by decide, by decide, by decide, by decide⟩,
    by decide, by decide⟩, mid_inv, by decide, by decide⟩
theorem witness_StatusFields : (after 1 ⟨small, [0xC0000000]⟩).errIndex < 2 ^ 16 := by decide
theorem witness_SnapshotShowsTheWholeState :
    mid.env = (after 6 three).env ∧ mid.snapshot = (after 6 three).snapshot := ⟨rfl, rfl⟩

end Sys2Proof.Tests
end

section
/-! PROOFS. The scope's statement about configurations (00_scope.md R9, R11): the ranges of the
parameters, grouped as the table of R9 groups them, and the initial state they guard. -/

namespace Sys2Proof

/-- The table of R9 names the capacities in one group and the latencies in another; `Config.wf` lists
the same sixteen ranges one by one. -/
theorem Config.wf_iff_ranges (c : Config) :
    c.wf = true ↔
      (∀ n ∈ [c.nAdd, c.nMult, c.nLoad, c.nStore], 1 ≤ n ∧ n ≤ 16) ∧
      (∀ n ∈ [c.latAdd, c.latSub, c.latMul, c.latDiv, c.latLoad, c.latStore], n ≤ 2 ^ c.latW - 1) ∧
      (1 ≤ c.nReg ∧ c.nReg ≤ 32) ∧ (1 ≤ c.nBase ∧ c.nBase ≤ 32) ∧ c.progMax ≤ 2 ^ c.pcW - 1 ∧
      (1 ≤ c.pcW ∧ c.pcW ≤ 16) ∧ (2 ≤ c.cycW ∧ c.cycW ≤ 32) ∧ (1 ≤ c.latW ∧ c.latW ≤ 16) := by
  simp only [Config.wf, decide_eq_true_eq, List.forall_mem_cons, List.not_mem_nil,
    IsEmpty.forall_iff, implies_true, and_true]
  constructor
  · rintro ⟨pcW, cycW, latW, nAdd, nMult, nLoad, nStore, nReg, nBase, progMax, latencies⟩
    exact ⟨⟨nAdd, nMult, nLoad, nStore⟩, latencies, nReg, nBase, progMax, pcW, cycW, latW⟩
  · rintro ⟨⟨nAdd, nMult, nLoad, nStore⟩, latencies, nReg, nBase, progMax, pcW, cycW, latW⟩
    exact ⟨pcW, cycW, latW, nAdd, nMult, nLoad, nStore, nReg, nBase, progMax, latencies⟩

end Sys2Proof

namespace Sys2Proof.Machine

/-- R11: the ill-formed configurations are the only ones without an initial state. -/
theorem State.initial?_eq_none_iff (e : Env) : State.initial? e = none ↔ e.cfg.wf = false := by
  cases h : e.cfg.wf <;> simp [State.initial?, h]

/-- Settles O18: the sixteen ranges regrouped, and the guard of the initial state. -/
theorem illFormedConfigIsRefused : Obligations.IllFormedConfigIsRefused :=
  ⟨Config.wf_iff_ranges, fun e => (State.initial?_eq_none_iff e).2⟩

end Sys2Proof.Machine
end

section
/-! PROOFS. The scope's statements about the state (10_state.md): the reset values (R45), `stall` as the
mark of the structural hazard (R39), and the fields of STATUS (R42). -/

namespace Sys2Proof.Machine

/-! ### `stall` (R39) -/

/-- An attempt leaves `stall` at 1 exactly when its pool has no free slot (R88, R92). -/
theorem State.issue_stall_iff (s : State) (o : Op) (u : Slot) (d : Option RegIdx) :
    (s.issue o u d).stall = true ↔ s.findFree o.pool = none := by
  cases h : s.findFree o.pool with
  | none => simp [State.issue_of_full h]
  | some i => simp [(State.issue_pc_stall h u d).2]

/-- The same for every instruction, in terms of the slots of its pool (R91). -/
theorem exec_stall_iff {i : Instr} {s u : State} (h : exec i s = .next u) :
    u.stall = true ↔ ∀ n w, s.slot? ⟨i.op.pool, n⟩ = some w → w.busy = true := by
  obtain ⟨-, oj, ok, -, -, rfl⟩ := exec_next h
  rw [State.issue_stall_iff, State.findFree_eq_none]

theorem State.executes_iff (s : State) :
    s.executes = true ↔ s.fsm = .run ∧ s.terminal = false ∧ s.overflows = false := by
  simp [State.executes, and_assoc]

/-- A step that executes a cycle is a drain cycle or attempts the instruction at `pc` (R74, R88). -/
theorem StepCase.of_executes {s s' : State} (h : StepCase s s') (hx : s.executes = true) :
    (s.pc = s.env.progLen ∧ s' = ({ s.afterWriteback with stall := false } : State).executePhase) ∨
    ∃ i u, s.env.instrAt s.pc = some i ∧ exec i s.afterWriteback = .next u ∧ s' = u.executePhase := by
  obtain ⟨hrun, hterm, hover⟩ := s.executes_iff.1 hx
  cases h with
  | drain _ _ _ hp he => exact .inl ⟨hp, he⟩
  | attempt _ _ _ _ i u hi hx he => exact .inr ⟨i, u, hi, hx, he⟩
  | finish _ ht => simp [hterm] at ht
  | overflow _ _ ho => simp [hover] at ho
  | tooLong hf | accepted hf | badWord hf | goodWord hf | done hf | error hf => simp [hrun] at hf

/-- A step that executes no cycle does not write `stall` (R39). -/
theorem StepCase.stall_of_not_executes {s s' : State} (h : StepCase s s') (hx : s.executes = false) :
    s'.stall = s.stall := by
  cases h with
  | drain hf ht ho | attempt hf ht ho => simp [s.executes_iff.2 ⟨hf, ht, ho⟩] at hx
  | tooLong _ _ he | accepted _ _ _ he | badWord _ _ _ _ _ _ _ he | goodWord _ _ _ _ _ he
  | finish _ _ he | overflow _ _ _ he | done _ he | error _ he => subst he; rfl

/-- Settles O27: a drain cycle clears `stall` and has no instruction at `pc`; an attempt sets it when the
pool has no free slot; Execute keeps it. -/
theorem stallMarksTheStructuralHazard : Obligations.StallMarksTheStructuralHazard := by
  intro s t _ hstep
  obtain ⟨-, -, hcase⟩ := step_cases hstep
  refine ⟨fun hx => ?_, hcase.stall_of_not_executes⟩
  obtain ⟨hpc, rfl⟩ | ⟨i, u, hi, hu, rfl⟩ := hcase.of_executes hx
  · simp [hpc]
  · rw [State.executePhase_stall, exec_stall_iff hu]
    simp [hi, Env.instrAt_lt hi]

/-! ### The reset values (R45) -/

theorem State.resetOf_status (e : Env) : (State.resetOf e).status = 0 := by
  simp [State.status, Err.code, Fsm.code]

theorem State.resetOf_reg? {e : Env} {r : Nat} (h : r < e.cfg.nReg) :
    (State.resetOf e).reg? r = some (.value (.init r)) := by
  simp [State.reg?, h]

theorem State.resetOf_trace_getElem? {e : Env} {a : Nat} (h : a < e.cfg.progMax) :
    (State.resetOf e).trace[a]? = some { issue := none, wb := none } := by
  simp [h]

/-- Settles O17: the sequencer registers by definition, the three arrays by their entries. -/
theorem resetValues : Obligations.ResetValues :=
  ⟨⟨_, rfl⟩, fun e => ⟨rfl, rfl, rfl, rfl, rfl, rfl, rfl, State.resetOf_status e,
    fun _ => State.resetOf_reg?,
    fun t ht => (State.resetOf_slot? e t _).2 ⟨ht, rfl⟩,
    fun _ => State.resetOf_trace_getElem?⟩⟩

/-! ### STATUS (R42) -/

/-- STATUS as a number, each field at the weight of its lowest bit. -/
theorem State.status_toNat (s : State) :
    s.status.toNat = s.errIndex % 2 ^ 16 * 2 ^ 16 + s.stall.toNat * 2 ^ 4 +
      s.err.code.toNat * 2 ^ 2 + s.fsm.code.toNat := by
  have hf := s.fsm.code.isLt
  have he := s.err.code.isLt
  have hs := s.stall.toNat_lt
  simp only [State.status, BitVec.toNat_append, BitVec.toNat_ofNat, BitVec.toNat_ofBool]
  rw [← Nat.shiftLeft_add_eq_or_of_lt hf, ← Nat.shiftLeft_add_eq_or_of_lt he,
    ← Nat.shiftLeft_add_eq_or_of_lt hs, ← Nat.shiftLeft_add_eq_or_of_lt (by decide)]
  simp only [Nat.shiftLeft_eq]
  omega

/-- The numbers of R35. -/
theorem Fsm.eq_iff_code_toNat (f : Fsm) :
    (f = .validate ↔ f.code.toNat = 0) ∧ (f = .run ↔ f.code.toNat = 1) ∧
    (f = .done ↔ f.code.toNat = 2) ∧ (f = .error ↔ f.code.toNat = 3) := by
  cases f <;> decide

/-- The numbers of R113. -/
theorem Err.eq_iff_code_toNat (e : Err) :
    (e = .none ↔ e.code.toNat = 0) ∧ (e = .parseError ↔ e.code.toNat = 1) ∧
    (e = .invalidOperandError ↔ e.code.toNat = 2) ∧ (e = .cycleOverflow ↔ e.code.toNat = 3) := by
  cases e <;> decide

/-- What each field of STATUS holds; ERR_INDEX holds the low 16 bits of `err_index`. -/
theorem State.status_bits (s : State) :
    Claims.bits s.status 1 0 = s.fsm.code.toNat ∧ Claims.bits s.status 3 2 = s.err.code.toNat ∧
    Claims.bits s.status 4 4 = s.stall.toNat ∧ Claims.bits s.status 15 5 = 0 ∧
    Claims.bits s.status 31 16 = s.errIndex % 2 ^ 16 := by
  have hf := s.fsm.code.isLt
  have he := s.err.code.isLt
  have hs := s.stall.toNat_lt
  simp only [Claims.bits, s.status_toNat]
  omega

/-- Settles O52: the fields of STATUS, and the number of each state and each error. -/
theorem statusFields : Obligations.StatusFields := by
  intro s hidx
  obtain ⟨hfsm, herr, hstall, hzero, hindex⟩ := s.status_bits
  rw [hfsm, herr, hstall, hzero, hindex, Nat.mod_eq_of_lt hidx]
  exact ⟨s.fsm.eq_iff_code_toNat, s.err.eq_iff_code_toNat, by simp, by simp, rfl, rfl⟩

end Sys2Proof.Machine
end

section
/-! PROOFS. The statements about the decoder (30_encoding.md): the words of R72, the malformed words (R66,
R68) and the operands out of range (R67), and the validation step that refuses a word (R114). -/

namespace Sys2Proof

open Claims

/-! ### The fields as bits of the word (R12, R60, R61) -/

/-- A field of `n + 1` bits is `w[lo+n:lo]` of R12, which the statements read by arithmetic. -/
theorem toNat_extractLsb'_eq_bits (w : Word) (lo n : Nat) :
    (w.extractLsb' lo (n + 1)).toNat = bits w (lo + n) lo := by
  simp [bits, BitVec.extractLsb'_toNat, Nat.shiftRight_eq_div_pow]

theorem fieldOp_toNat (w : Word) : (fieldOp w).toNat = bits w 31 29 :=
  toNat_extractLsb'_eq_bits w 29 2

theorem fieldRd_toNat (w : Word) : (fieldRd w).toNat = bits w 28 24 :=
  toNat_extractLsb'_eq_bits w 24 4

theorem fieldRs1_toNat (w : Word) : (fieldRs1 w).toNat = bits w 23 19 :=
  toNat_extractLsb'_eq_bits w 19 4

theorem fieldRs2_toNat (w : Word) : (fieldRs2 w).toNat = bits w 18 14 :=
  toNat_extractLsb'_eq_bits w 14 4

theorem fieldRb_toNat (w : Word) : (fieldRb w).toNat = bits w 22 18 :=
  toNat_extractLsb'_eq_bits w 18 4

theorem fieldZR_eq_zero_iff (w : Word) : fieldZR w = 0 ↔ bits w 13 0 = 0 := by
  rw [← BitVec.toNat_inj, ← toNat_extractLsb'_eq_bits w 0 13]; rfl

theorem fieldZM_eq_zero_iff (w : Word) : fieldZM w = 0 ↔ bits w 17 16 = 0 := by
  rw [← BitVec.toNat_inj, ← toNat_extractLsb'_eq_bits w 16 1]; rfl

theorem fieldRb_eq_zero_iff (w : Word) : fieldRb w = 0 ↔ bits w 22 18 = 0 := by
  rw [← BitVec.toNat_inj, fieldRb_toNat]; rfl

theorem fieldBz_eq_zero_iff (w : Word) : fieldBz w = 0 ↔ bits w 23 23 = 0 := by
  rw [← BitVec.toNat_inj, ← toNat_extractLsb'_eq_bits w 23 0]; rfl

theorem fieldBz_eq_one_iff (w : Word) : fieldBz w = 1 ↔ bits w 23 23 = 1 := by
  rw [← BitVec.toNat_inj, ← toNat_extractLsb'_eq_bits w 23 0]; rfl

/-! ### When each half of the decoder refuses a word -/

theorem decodeR_eq_parseError_iff (c : Config) (o : ArithOp) (w : Word) :
    decodeR c o w = .err .parseError ↔ bits w 13 0 ≠ 0 := by
  simp only [decodeR, ne_eq, fieldZR_eq_zero_iff]
  split_ifs <;> simp [*]

theorem decodeR_eq_invalidOperandError_iff (c : Config) (o : ArithOp) (w : Word) :
    decodeR c o w = .err .invalidOperandError ↔ bits w 13 0 = 0 ∧
      (bits w 28 24 ≥ c.nReg ∨ bits w 23 19 ≥ c.nReg ∨ bits w 18 14 ≥ c.nReg) := by
  simp only [decodeR, ne_eq, fieldZR_eq_zero_iff, fieldRd_toNat, fieldRs1_toNat, fieldRs2_toNat]
  split_ifs <;> simp [*]

theorem decodeM_eq_parseError_iff (c : Config) (mk : RegIdx → Offset → Base → Instr) (w : Word) :
    decodeM c mk w = .err .parseError ↔
      bits w 17 16 ≠ 0 ∨ (bits w 23 23 = 1 ∧ bits w 22 18 ≠ 0) := by
  simp only [decodeM, ne_eq, fieldZM_eq_zero_iff, fieldBz_eq_one_iff, fieldRb_eq_zero_iff]
  split_ifs <;> simp [*]

theorem decodeM_eq_invalidOperandError_iff (c : Config) (mk : RegIdx → Offset → Base → Instr)
    (w : Word) :
    decodeM c mk w = .err .invalidOperandError ↔
      ¬ (bits w 17 16 ≠ 0 ∨ (bits w 23 23 = 1 ∧ bits w 22 18 ≠ 0)) ∧
      (bits w 28 24 ≥ c.nReg ∨ (bits w 23 23 = 0 ∧ bits w 22 18 ≥ c.nBase)) := by
  simp only [decodeM, ne_eq, fieldZM_eq_zero_iff, fieldBz_eq_one_iff, fieldBz_eq_zero_iff,
    fieldRb_eq_zero_iff, fieldRd_toNat, fieldRb_toNat]
  split_ifs <;> simp [*]

/-- The decoder tells the format from `op` alone (R59). -/
theorem decode_cases (c : Config) (w : Word) :
    (bits w 31 29 ≤ 3 ∧ ∃ o, decode c w = decodeR c o w) ∨
    ((bits w 31 29 = 4 ∨ bits w 31 29 = 5) ∧ ∃ mk, decode c w = decodeM c mk w) ∨
    ((bits w 31 29 = 6 ∨ bits w 31 29 = 7) ∧ decode c w = .err .parseError) := by
  have hlt : bits w 31 29 < 8 := Nat.mod_lt _ (by decide)
  unfold decode
  rw [fieldOp_toNat]
  split
  · exact .inl ⟨by omega, .add, rfl⟩
  · exact .inl ⟨by omega, .sub, rfl⟩
  · exact .inl ⟨by omega, .mul, rfl⟩
  · exact .inl ⟨by omega, .div, rfl⟩
  · exact .inr (.inl ⟨by omega, .load, rfl⟩)
  · exact .inr (.inl ⟨by omega, .store, rfl⟩)
  · refine .inr (.inr ⟨?_, rfl⟩)
    simp only [imp_false] at *
    omega

/-! ### Malformed words and operands out of range (R66–R68) -/

theorem decode_eq_parseError_iff (c : Config) (w : Word) :
    decode c w = .err .parseError ↔ Malformed w := by
  unfold Malformed
  obtain ⟨hop, o, hd⟩ | ⟨hop, mk, hd⟩ | ⟨hop, hd⟩ := decode_cases c w
  · rw [hd, decodeR_eq_parseError_iff]; omega
  · rw [hd, decodeM_eq_parseError_iff]; omega
  · simp only [hd, true_iff]; omega

theorem decode_eq_invalidOperandError_iff (c : Config) (w : Word) :
    decode c w = .err .invalidOperandError ↔ ¬ Malformed w ∧ OutOfRange c w := by
  unfold Malformed OutOfRange
  obtain ⟨hop, o, hd⟩ | ⟨hop, mk, hd⟩ | ⟨hop, hd⟩ := decode_cases c w
  · rw [hd, decodeR_eq_invalidOperandError_iff]; omega
  · rw [hd, decodeM_eq_invalidOperandError_iff]; omega
  · simp only [hd, DecodeResult.err.injEq, reduceCtorEq, false_iff]; omega

/-! ### The words of the spec (R72) -/

/-- `NREG` and `NBASE` are the only parameters the decoder reads (R67). -/
theorem decode_congr {c c' : Config} (hr : c.nReg = c'.nReg) (hb : c.nBase = c'.nBase) (w : Word) :
    decode c w = decode c' w := by
  simp only [decode, decodeR, decodeM, hr, hb]

/-- Settles O3: the decoder answers as under the example configuration, where both bounds are 32. -/
theorem wordsOfTheSpecDecode : Obligations.WordsOfTheSpecDecode := by
  intro c hr hb
  simp only [decode_congr (c' := Config.exampleE) hr hb]
  decide

end Sys2Proof

namespace Sys2Proof.Machine

open Claims

/-! ### Validation of a refused word (R111, R114) -/

/-- A step in VALIDATE is one `validate_step()` (R73). -/
theorem step_of_validate {s : State} (hc : s.env.cfg.wf = true) (hl : s.lawful = true)
    (hf : s.fsm = .validate) : step s = validateStep s := by
  simp [step, sequencerStep, fsmStep, hc, hl, hf]

theorem validateStep_of_badWord {s : State} {w : Word} {d : DecodeError}
    (hlen : s.env.progLen ≤ s.env.cfg.progMax) (hw : s.env.word? s.vidx = some w)
    (hd : decode s.env.cfg w = .err d) : validateStep s = .next (s.raise (errOf d) s.vidx) := by
  have hidx : s.vidx < s.env.progLen := (List.getElem?_eq_some_iff.1 hw).1
  simp [validateStep, hw, hd, hlen.not_gt, hidx.ne]

/-- Validation raises what the decoder answers, at the index it has reached. -/
theorem validationRaises_of_decode {c : Config} {w : Word} {d : DecodeError}
    (hd : decode c w = .err d) : ValidationRaises c w (errOf d) := by
  rintro s rfl hc hl hf hlen hw
  rw [step_of_validate hc hl hf, validateStep_of_badWord hlen hw hd]
  rfl

/-- Settles O4: the decoder's refusals format by format, and what validation makes of them. -/
theorem malformedWordsAreParseErrors : Obligations.MalformedWordsAreParseErrors := fun c w =>
  ⟨decode_eq_parseError_iff c w,
    fun h => validationRaises_of_decode ((decode_eq_parseError_iff c w).2 h)⟩

/-- Settles O5: in the same way, for the words that pass the tests of R66. -/
theorem outOfRangeWordsAreOperandErrors : Obligations.OutOfRangeWordsAreOperandErrors := fun c w =>
  ⟨decode_eq_invalidOperandError_iff c w,
    fun hm ho => validationRaises_of_decode ((decode_eq_invalidOperandError_iff c w).2 ⟨hm, ho⟩)⟩

end Sys2Proof.Machine
end

section
/-! PROOFS. The statements about the sequencer (40_sequencer.md): DONE is final (R77), when a slot is ready
and complete (R78, R79), what a broadcast makes of registers and operands (R81–R84), the silent release
of a store (R86), the Issue phase (R89, R92) and the Execute phase (R100). -/

namespace Sys2Proof.Machine

/-! ### DONE (R77) -/

/-- Settles O10: `step` answers the state itself, `clockEdge` with reset the reset state. -/
theorem doneIsFinal : Obligations.DoneIsFinal := by
  intro s hcfg hlawful hdone
  constructor
  · simp [clockEdge, sequencerStep, fsmStep, hcfg, hlawful, hdone]
  · simp [clockEdge, hcfg]

/-! ### Ready, complete and the result (R78, R79, R81) -/

/-- `ready` with its operands named: a load slot has none, a store slot one, the others two. -/
theorem Slot.ready_iff (u : Slot) (p : Pool) :
    u.ready p = true ↔
      u.busy = true ∧ (p = .load ∨ ((∃ v, u.j = .rdy v) ∧ (p = .store ∨ ∃ v, u.k = .rdy v))) := by
  cases p <;> simp [Slot.ready, Opnd.isRdy_iff, and_assoc]

/-- A slot just loaded with `K(0)` is complete after one tick. -/
theorem Slot.complete_tick_of_fresh {p : Pool} {u : Slot} (hr : u.ready p = true) (hc : u.cnt = .k 0)
    (hf : u.fresh = true) : (u.tick p).complete p = true := by
  rw [Slot.complete_iff, Slot.ready_tick, Slot.tick_of_fresh hr hf]
  exact ⟨hr, hc, rfl⟩

/-- Settles O29: the two predicates read off, and the tick that clears `fresh`. -/
theorem readyAndComplete : Obligations.ReadyAndComplete := by
  refine ⟨Slot.ready_iff, fun u p => Slot.complete_iff p u, fun s t u hu hr hc hf => ?_⟩
  exact ⟨u.tick t.pool, by rw [State.executePhase_slot?, hu, Option.map_some],
    Slot.complete_tick_of_fresh hr hc hf⟩

/-- Settles O28: `result` pool by pool. -/
theorem resultTerms : Obligations.ResultTerms := by
  refine ⟨fun u o a b hop hj hk => ⟨?_, ?_⟩, fun u d haddr => ?_, Slot.result_store⟩
  · simp [Slot.result, hop, hj, hk]
  · simp [Slot.result, hop, hj, hk]
  · simp [Slot.result, haddr]

/-! ### The broadcast (R83, R84) -/

theorem State.broadcast_reg? (s : State) (t : Tag) (v : Val) (r : Nat) :
    (s.broadcast t v).reg? r = (s.reg? r).map fun x => if x = .pending t then .value v else x := by
  simp [State.reg?]

/-- Settles O30: the broadcast acts on the registers one by one. -/
theorem broadcastResolvesRegisters : Obligations.BroadcastResolvesRegisters := by
  intro s t v r
  rw [State.broadcast_reg?]
  refine ⟨fun hpending => by simp [hpending], fun hother => ?_⟩
  cases hr : s.reg? r with
  | none => rfl
  | some x =>
    have hx : x ≠ .pending t := fun h => hother (by rw [hr, h])
    simp [hx]

/-- When a broadcast starts a slot's countdown (R84). -/
theorem Slot.wakes_iff (p : Pool) (t : Tag) (v : Val) (u : Slot) :
    u.wakes p t v = true ↔
      (u.j = .wait t ∨ u.k = .wait t) ∧ (u.resolve t v).ready p = true ∧ u.cnt = .inf := by
  simp [Slot.wakes, Slot.waitsOn_iff, and_assoc]

/-- The broadcast at the trace entry of an instruction that one slot alone serves, which it wakes (R99). -/
theorem State.broadcast_trace_of_wakes {s : State} {t q : Tag} {v : Val} {u : Slot} {a : Nat} {o : Op}
    (hu : s.slot? q = some u) (hw : u.wakes q.pool t v = true) (ha : u.instr = some a)
    (ho : u.op = some o) (hsingle : ∀ q' u', s.slot? q' = some u' → u'.instr = some a → q' = q) :
    (s.broadcast t v).trace[a]? =
      (s.trace[a]?).map fun st => { st with wb := some (s.cycle + s.env.cfg.lat o + 1) } := by
  have hsame : ∀ u' ∈ s.woken t v, u'.instr = some a → u'.op = u.op := by
    intro u' hu' ha'
    obtain ⟨q', hq', -⟩ := (s.mem_woken t v u').1 hu'
    obtain rfl := hsingle q' u' hq' ha'
    rw [Option.some.inj (hq'.symm.trans hu)]
  rw [State.broadcast_trace, stampWoken_of_served ((s.mem_woken t v u).2 ⟨q, hu, hw⟩) ha hsame]
  simp [Slot.wbStamp, ho]

/-- Settles O31: each slot receives the broadcast on its own, and the trace changes where a woken slot
serves. -/
theorem broadcastResolvesOperands : Obligations.BroadcastResolvesOperands := by
  intro s t v
  dsimp only
  simp only [← Slot.wakes_iff]
  refine ⟨fun q u hu => ?_, fun q u a o old hu hw ha ho hsingle hold => ?_, fun a hnone => ?_⟩
  · refine ⟨u.receive s.env.cfg q.pool t v, by rw [State.broadcast_slot?, hu, Option.map_some],
      fun hj => by simp [hj], fun hj => by simp [Opnd.resolve_of_ne hj],
      fun hk => by simp [hk], fun hk => by simp [Opnd.resolve_of_ne hk],
      by simp, by simp, by simp, by simp, fun o hw ho => ?_, fun hw => ?_⟩
    · rw [Slot.receive_of_wakes hw ho]
      exact ⟨rfl, rfl⟩
    · rw [Slot.receive_of_not_wakes (by simpa using hw)]
      exact ⟨rfl, rfl⟩
  · rw [State.broadcast_trace_of_wakes hu hw ha ho hsingle, hold]
    rfl
  · rw [State.broadcast_trace]
    refine stampWoken_of_not_served fun u hu => ?_
    obtain ⟨q, hq, hw⟩ := (s.mem_woken t v u).1 hu
    exact hnone q u hq hw

/-! ### The release of a store (R86) -/

/-- No register waits on a Store tag (R149). -/
theorem State.Mid.reg?_ne_pending_store {s : State} (h : s.Mid) {t : Tag} (ht : t.pool = .store)
    (r : Nat) : s.reg? r ≠ some (.pending t) := fun hr =>
  ((s.regOk_pending r t).1 (h.regs r _ hr)).1 ht

/-- Settles O34: a store has no result, so it is only released, and nothing waits on its tag. -/
theorem storesCompleteSilently : Obligations.StoresCompleteSilently := by
  intro s n u hlawful hu _
  have hmid := State.mid_of_lawful hlawful
  have hrelease : s.handle ⟨.store, n⟩ = s.release ⟨.store, n⟩ :=
    State.handle_of_no_result hu u.result_store
  refine ⟨by rw [hrelease, State.release_rf], by rw [hrelease, State.release_trace],
    State.handle_slot?_self hu, fun t ht => ?_, hmid.reg?_ne_pending_store rfl,
    fun t w hw => hmid.not_wait_store hw rfl⟩
  rw [State.handle_slot?_of_no_result hu u.result_store, if_neg ht]

/-! ### The Issue phase (R88, R92) -/

/-- Settles O25: an instruction in range comes as far as `find_free`, which finds no slot. -/
theorem fullPoolOnlyStalls : Obligations.FullPoolOnlyStalls := by
  intro i s hshape hwf hfull
  obtain ⟨oj, ok, -, -, hexec⟩ := exec_of_wf hshape hwf
  rw [hexec, State.issue_of_full ((s.findFree_eq_none _).2 hfull)]

/-- The Issue phase clears `stall` in the drain phase, and attempts one instruction otherwise (R75, R88). -/
theorem issuePhase_next {s u : State} (h : issuePhase s = .next u) :
    u = { s with stall := false } ∨ ∃ i, exec i s = .next u := by
  unfold issuePhase at h
  split at h
  · cases h; exact .inl rfl
  · split at h
    · cases h
    · split at h
      · cases h
      · exact .inr ⟨_, h⟩

/-! ### Issue order (R89) -/

/-- The issue stamps, entry by entry. -/
def State.issueStamps (s : State) : List (Option Nat) := s.trace.map Stamp.issue

theorem State.issueStamps_getElem? (s : State) (a : Nat) :
    s.issueStamps[a]? = (s.trace[a]?).map Stamp.issue := List.getElem?_map

/-- A broadcast writes writeback stamps alone (R84, R99). -/
theorem State.broadcast_issueStamps (s : State) (t : Tag) (v : Val) :
    (s.broadcast t v).issueStamps = s.issueStamps := by
  refine List.ext_getElem? fun a => ?_
  rw [State.issueStamps_getElem?, State.issueStamps_getElem?, State.broadcast_trace,
    stampWoken_getElem?, Option.map_map]
  congr 1
  funext st
  dsimp only [Function.comp_apply]
  split <;> rfl

theorem State.handle_issueStamps (s : State) (t : Tag) : (s.handle t).issueStamps = s.issueStamps := by
  unfold State.handle
  split
  · exact s.broadcast_issueStamps t _
  · rfl

theorem foldl_handle_issueStamps (ts : List Tag) (s : State) :
    (ts.foldl State.handle s).issueStamps = s.issueStamps := by
  induction ts generalizing s with
  | nil => rfl
  | cons t ts ih => rw [List.foldl_cons, ih, State.handle_issueStamps]

/-- The Writeback phase writes no issue stamp (R80). -/
theorem State.afterWriteback_issueStamps (s : State) : s.afterWriteback.issueStamps = s.issueStamps :=
  foldl_handle_issueStamps _ _

/-- What an attempt does to `pc` and the issue stamps: nothing when it stalls (R92); otherwise it stamps
the entry of `pc` with the current cycle and advances (R95, R88). -/
theorem exec_issueStamps {i : Instr} {s u : State} (h : exec i s = .next u) :
    (u.pc = s.pc ∧ u.issueStamps = s.issueStamps) ∨
    (u.pc = s.pc + 1 ∧ u.issueStamps = s.issueStamps.set s.pc (some s.cycle)) := by
  obtain ⟨-, oj, ok, -, -, rfl⟩ := exec_next h
  cases hfree : s.findFree i.op.pool with
  | none =>
    rw [State.issue_of_full hfree]
    exact .inl ⟨rfl, rfl⟩
  | some n =>
    refine .inr ⟨(State.issue_pc_stall hfree _ _).1, List.ext_getElem? fun a => ?_⟩
    rw [State.issueStamps_getElem?, State.issue_trace hfree i.dest rfl, List.getElem?_set,
      State.issueStamps_getElem?]
    by_cases ha : s.pc = a
    · subst ha
      rw [if_pos rfl, if_pos rfl]
      by_cases hlt : s.pc < s.trace.length <;> simp [State.issueStamps, hlt]
    · rw [if_neg ha, if_neg (Ne.symm ha)]

/-- What a step does to `pc` and the issue stamps. -/
theorem StepCase.issueStamps {s s' : State} (h : StepCase s s') :
    (s'.pc = s.pc ∧ s'.issueStamps = s.issueStamps) ∨
    (s.fsm = .run ∧ s.pc < s.env.progLen ∧ s'.pc = s.pc + 1 ∧
      s'.issueStamps = s.issueStamps.set s.pc (some s'.cycle)) := by
  cases h with
  | drain _ _ _ _ he =>
    subst he
    exact .inl ⟨s.afterWriteback_pc, s.afterWriteback_issueStamps⟩
  | attempt hf _ _ _ i u hi hx he =>
    subst he
    have hcycle : u.cycle = s.afterWriteback.cycle := by
      obtain ⟨-, oj, ok, -, -, rfl⟩ := exec_next hx
      obtain ⟨-, -, -, hcycle, -⟩ := s.afterWriteback.issue_keeps i.op
        (Slot.ofInstr i oj ok s.afterWriteback.pc) i.dest
      exact hcycle
    have hstamps := exec_issueStamps hx
    rw [s.afterWriteback_issueStamps, s.afterWriteback_pc, ← hcycle] at hstamps
    exact hstamps.imp id fun hissued => ⟨hf, Env.instrAt_lt hi, hissued⟩
  | tooLong _ _ he | accepted _ _ _ he | badWord _ _ _ _ _ _ _ he | goodWord _ _ _ _ _ he
  | finish _ _ he | overflow _ _ _ he | done _ he | error _ he => subst he; exact .inl ⟨rfl, rfl⟩

/-- In a RUN state of every run the trace has an entry for each instruction of the program (R111). -/
theorem State.Inv.lt_trace_length {s : State} (h : s.Inv) (hf : s.fsm = .run) {a : Nat}
    (ha : a < s.env.progLen) : a < s.trace.length := by
  have hlen := (s.env.valid_iff.1 (h.running hf)).1
  have htrace := (s.shapeOk_iff.1 ((s.lawful_iff.1 h.lawful).1)).2.2
  omega

/-- Settles O50: a step that does not advance `pc` keeps all issue stamps; one that does sets that of
`pc` alone, which the trace has. -/
theorem issueIsInProgramOrder : Obligations.IssueIsInProgramOrder := by
  intro s t hinv hstep
  obtain ⟨-, -, hcase⟩ := step_cases hstep
  have hentry : ∀ {w : State} {a : Nat} {x : Stamp}, w.trace[a]? = some x →
      w.issueStamps[a]? = some x.issue := fun {w a x} h => by
    rw [State.issueStamps_getElem?, h, Option.map_some]
  obtain ⟨hpc, hstamps⟩ | ⟨hrun, hlt, hpc, hstamps⟩ := hcase.issueStamps
  · refine ⟨.inl hpc, fun a x y hx hy hne => absurd ?_ hne, fun hadvance => by omega⟩
    have hy := hentry hy
    rw [hstamps, hentry hx] at hy
    exact Option.some.inj hy
  · refine ⟨.inr hpc, fun a x y hx hy hne => ⟨?_, hpc⟩, fun _ => ?_⟩
    · by_contra ha
      have hy := hentry hy
      rw [hstamps, List.getElem?_set_ne (Ne.symm ha), hentry hx] at hy
      exact hne (Option.some.inj hy)
    · have hstamp : t.issueStamps[s.pc]? = some (some t.cycle) := by
        rw [hstamps]
        exact List.getElem?_set_self (by simpa [State.issueStamps] using hinv.lt_trace_length hrun hlt)
      rw [State.issueStamps_getElem?] at hstamp
      exact Option.map_eq_some_iff.1 hstamp

/-! ### The Execute phase (R80, R100) -/

/-- A slot that is complete when it has received a broadcast was complete before: one the broadcast
wakes is fresh, and any other that waited counts from INF (R33, R84). -/
theorem State.Mid.complete_of_complete_receive {s : State} (h : s.Mid) {t q : Tag} {v : Val} {u : Slot}
    (hu : s.slot? q = some u) (hc : (u.receive s.env.cfg q.pool t v).complete q.pool = true) :
    u.complete q.pool = true := by
  rw [Slot.complete_iff] at hc ⊢
  obtain ⟨hready, hcnt, hfresh⟩ := hc
  have hm := h.busy q u hu (by simpa using Slot.busy_of_ready hready)
  obtain ⟨-, i, -, -, -, hop, -⟩ := (s.servesOk_iff _ _).1 hm.serves
  cases hw : u.wakes q.pool t v with
  | true => simp [Slot.receive_of_wakes hw hop] at hfresh
  | false =>
    rw [Slot.receive_of_not_wakes hw] at hcnt hfresh
    refine ⟨?_, hcnt, hfresh⟩
    by_contra hr
    have hinf := hm.count
    rw [Slot.CountMid, if_neg hr] at hinf
    simp [hinf.1] at hcnt

/-- One turn of the loop takes the handled slot off the complete ones, and changes no other of them. -/
theorem State.Mid.mem_completeTags_handle {s : State} (h : s.Mid) {t : Tag} (ht : t ∈ s.completeTags)
    (q : Tag) : q ∈ (s.handle t).completeTags ↔ q ∈ s.completeTags ∧ q ≠ t := by
  obtain ⟨u, hu, hcu⟩ := (s.mem_completeTags t).1 ht
  simp only [State.mem_completeTags]
  constructor
  · rintro ⟨w, hw, hcw⟩
    have hne : q ≠ t := by
      rintro rfl
      rw [State.handle_slot?_self hu] at hw
      obtain rfl := Option.some.inj hw
      simp at hcw
    obtain ⟨w0, hw0, -, -, -, -, rfl | ⟨v, -, rfl⟩⟩ := State.handle_slot?_other hu hne hw
    · exact ⟨⟨w, hw0, hcw⟩, hne⟩
    · exact ⟨⟨w0, hw0, h.complete_of_complete_receive hw0 hcw⟩, hne⟩
  · rintro ⟨⟨w, hw, hcw⟩, hne⟩
    exact ⟨w, h.handle_slot?_of_ready hu hne hw ((Slot.complete_iff _ _).1 hcw).1, hcw⟩

/-- Handling the complete slots one after the other leaves none. -/
theorem completeTags_foldl_handle (ts : List Tag) {s : State} (hnodup : ts.Nodup) (hm : s.Mid)
    (hts : ∀ q, q ∈ s.completeTags ↔ q ∈ ts) : (ts.foldl State.handle s).completeTags = [] := by
  induction ts generalizing s with
  | nil => exact List.eq_nil_iff_forall_not_mem.2 fun q hq => by simpa using (hts q).1 hq
  | cons t ts ih =>
    obtain ⟨hnew, hnodup⟩ := List.nodup_cons.1 hnodup
    have ht : t ∈ s.completeTags := (hts t).2 List.mem_cons_self
    obtain ⟨u, hu, hcu⟩ := (s.mem_completeTags t).1 ht
    refine ih hnodup (hm.handle hu ((Slot.complete_iff _ _).1 hcu).1) fun q => ?_
    rw [hm.mem_completeTags_handle ht, hts, List.mem_cons]
    constructor
    · rintro ⟨rfl | hq, hne⟩
      · exact absurd rfl hne
      · exact hq
    · exact fun hq => ⟨.inr hq, fun he => hnew (he ▸ hq)⟩

/-- The Writeback phase leaves no complete slot (R80). -/
theorem State.Mid.completeTags_writebackPhase {s : State} (h : s.Mid) :
    s.writebackPhase.completeTags = [] :=
  completeTags_foldl_handle _ s.completeTags_nodup h fun _ => Iff.rfl

theorem State.completeTags_eq_nil_iff (s : State) :
    s.completeTags = [] ↔ ∀ t u, s.slot? t = some u → u.complete t.pool = false := by
  simp only [List.eq_nil_iff_forall_not_mem, State.mem_completeTags, not_exists, not_and,
    Bool.not_eq_true]

/-- A slot just filled is not complete: its countdown is fresh if it is ready at all (R97, R33). -/
theorem Slot.complete_launch_ofInstr (cfg : Config) (i : Instr) (oj ok : Opnd) (pc : Nat) (p : Pool) :
    ((Slot.ofInstr i oj ok pc).launch cfg p).complete p = false := by
  have hop : (Slot.ofInstr i oj ok pc).op = some i.op := rfl
  cases hr : (Slot.ofInstr i oj ok pc).ready p <;>
    simp [Slot.launch, Slot.complete, hr, Slot.start_of_op hop]

/-- An attempt makes no slot complete. -/
theorem exec_completeTags_eq_nil {i : Instr} {s u : State} (h : exec i s = .next u)
    (hs : s.completeTags = []) : u.completeTags = [] := by
  obtain ⟨-, oj, ok, -, -, rfl⟩ := exec_next h
  rw [State.completeTags_eq_nil_iff] at hs ⊢
  cases hfree : s.findFree i.op.pool with
  | none => rw [State.issue_of_full hfree]; exact hs
  | some n =>
    intro t w hw
    rw [State.issue_slot? hfree] at hw
    split at hw
    · rename_i ht
      subst ht
      obtain rfl := Option.some.inj hw
      exact Slot.complete_launch_ofInstr _ _ _ _ _ _
    · exact hs t w hw

/-- No slot is complete when the Execute phase of a cycle begins. -/
theorem issuePhase_completeTags_eq_nil {s u : State} (hlawful : s.lawful = true)
    (h : issuePhase s.afterWriteback = .next u) : u.completeTags = [] := by
  have hs : s.afterWriteback.completeTags = [] :=
    State.Mid.completeTags_writebackPhase (s := { s with cycle := s.cycle + 1 })
      ((State.mid_of_lawful hlawful).congr rfl rfl rfl rfl rfl)
  obtain rfl | ⟨i, hexec⟩ := issuePhase_next h
  · exact hs
  · exact exec_completeTags_eq_nil hexec hs

/-- The tick leaves a slot that counts no further. -/
theorem Slot.tick_of_not_counting {p : Pool} {u : Slot} (hf : u.fresh = false)
    (hc : u.cnt = .k 0 ∨ u.cnt = .inf) : u.tick p = u := by
  rcases hc with hc | hc <;> simp [Slot.tick, hf, hc]

/-- Settles O36: Writeback and Issue leave no complete slot, and the tick slot by slot. -/
theorem executeTicksReadySlots : Obligations.ExecuteTicksReadySlots := by
  refine ⟨fun s u hlawful hissue =>
    u.completeTags_eq_nil_iff.1 (issuePhase_completeTags_eq_nil hlawful hissue), fun s => ?_⟩
  refine ⟨fun t u hu => ?_, fun t ht => by rw [State.executePhase_slot?, ht, Option.map_none], rfl⟩
  rw [State.executePhase_slot?, hu, Option.map_some]
  exact ⟨fun hr hf => by rw [Slot.tick_of_fresh hr hf],
    fun n hr hf hc => by rw [Slot.tick_of_count hr hf hc],
    fun _ hf hc => by rw [Slot.tick_of_not_counting hf hc],
    fun hr => by rw [Slot.tick_of_not_ready hr]⟩

end Sys2Proof.Machine
end

section
/-! PROOFS. The statement about exceptions (60_exceptions.md): ERROR is final and a fault (R119). -/

namespace Sys2Proof.Machine

/-! ### One clock edge (R73, R133) -/

/-- Reset takes priority over the step, whatever `fsm` holds (R133). -/
theorem clockEdge_reset {s : State} (hcfg : s.env.cfg.wf = true) :
    clockEdge true s = .next (State.resetOf s.env) := by
  simp [clockEdge, hcfg]

/-- An edge without reset is one `step()` (R73). -/
theorem clockEdge_noReset (s : State) : clockEdge false s = step s := rfl

/-! ### ERROR (R119) -/

/-- A step in ERROR is `skip` (R73). -/
theorem step_of_error {s : State} (hcfg : s.env.cfg.wf = true) (hlawful : s.lawful = true)
    (herror : s.fsm = .error) : step s = .next s := by
  simp [step, sequencerStep, fsmStep, hcfg, hlawful, herror]

/-- A state in ERROR is a fault, lawful or not. -/
theorem State.isFault_of_error {s : State} (herror : s.fsm = .error) : s.isFault = true := by
  simp [State.isFault, herror]

/-- No fault is a good final state: that is lawful and in DONE (R128). -/
theorem State.goodFinal_of_isFault {s : State} (hfault : s.isFault = true) :
    s.goodFinal = false := by
  simp only [State.isFault, Bool.or_eq_true, beq_iff_eq, Bool.not_eq_true'] at hfault
  obtain herror | hunlawful := hfault
  · simp [State.goodFinal, herror]
  · simp [State.goodFinal, hunlawful]

/-- Settles O11: without reset the edge is a step in ERROR, with reset R133 applies; as a fault the state
is not good. -/
theorem errorIsFinal : Obligations.ErrorIsFinal := by
  intro s hcfg hlawful herror
  have hfault : s.isFault = true := State.isFault_of_error herror
  refine ⟨?_, clockEdge_reset hcfg, hfault, State.goodFinal_of_isFault hfault⟩
  rw [clockEdge_noReset]
  exact step_of_error hcfg hlawful herror

end Sys2Proof.Machine
end

section
/-! PROOFS. Reset takes priority over the step (70_reset_and_hazards.md R133). -/

namespace Sys2Proof.Machine

/-- A register of the reset state holds its initial content (R45). -/
theorem State.eq_init_of_resetOf_reg? {e : Env} {r : Nat} {x : RegStatus}
    (hx : (State.resetOf e).reg? r = some x) : x = .value (.init r) := by
  obtain ⟨hr, -⟩ := List.getElem?_eq_some_iff.1 hx
  rw [State.resetOf_reg? (by simpa using hr)] at hx
  exact (Option.some.inj hx).symm

/-- The reset state breaks no law: every slot is free and every register a value (R45, R149–R151). -/
theorem State.resetOf_lawful (e : Env) : (State.resetOf e).lawful = true := by
  refine (State.lawful_iff _).2 ⟨?_, fun t u hu => ?_, fun r x hx => ?_, Nat.zero_le _,
    State.doneOk_of_ne (by simp)⟩
  · simp [State.shapeOk, State.resetOf]
  · obtain ⟨-, rfl⟩ := (State.resetOf_slot? e t u).1 hu
    rfl
  · rw [State.eq_init_of_resetOf_reg? hx]
    rfl

/-- Settles O16: the reset edge reads no state element, and the reset state, lawful and in VALIDATE, takes
a `validate_step()`. -/
theorem resetTakesPriority : Obligations.ResetTakesPriority := by
  intro s hcfg
  refine ⟨clockEdge_reset hcfg, clockEdge_reset (s := State.resetOf s.env) hcfg,
    clockEdge_noReset s, ?_⟩
  rw [clockEdge_noReset]
  exact step_of_validate hcfg (State.resetOf_lawful s.env) rfl

end Sys2Proof.Machine
end

section
/-! PROOFS. The writeback stamp is the number of the handling cycle (70_reset_and_hazards.md R152). -/

namespace Sys2Proof.Machine

/-- A slot that serves an instruction is busy: a free slot serves none (R32). -/
theorem State.Mid.busy_of_instr {s : State} (h : s.Mid) {t : Tag} {u : Slot} {a : Nat}
    (hu : s.slot? t = some u) (ha : u.instr = some a) : u.busy = true := by
  by_contra hb
  rw [h.idle t u hu (by simpa using hb)] at ha
  cases ha

/-- A ready slot counts (R151 (c)). -/
theorem Slot.CountMid.cnt_of_ready {cfg : Config} {p : Pool} {u : Slot} (h : u.CountMid cfg p)
    (hr : u.ready p = true) : ∃ n, u.cnt = .k n := by
  rw [Slot.CountMid, if_pos hr] at h
  obtain ⟨-, n, -, hcnt, -⟩ := h
  exact ⟨n, hcnt⟩

/-- Settles O47: a waiting slot is not complete and its instruction has no stamp; a slot that counts `K(n)`
has the stamp `cycle + n + 1`, and is complete when `n` is 0. -/
theorem stampIsTheHandlingCycle : Obligations.StampIsTheHandlingCycle := by
  intro s t u a st hinv htrace hu ha hst
  have hmid := State.mid_of_lawful hinv.lawful
  cases hr : u.ready t.pool with
  | false =>
    rw [Slot.complete_iff, hr, htrace.waiting t u a st hu ha hr hst]
    simp
  | true =>
    obtain ⟨n, hcnt⟩ := (hmid.busy_of_ready hu hr).count.cnt_of_ready hr
    rw [Slot.complete_iff, htrace.counting t u a n st hu ha hr hcnt hst, hcnt]
    simp [hr, State.not_fresh_of_lawful hinv.lawful hu]

end Sys2Proof.Machine
end

section
/-! PROOFS. The order of Writeback cannot be observed (70_reset_and_hazards.md R156): handling two complete
slots commutes, by the registers, the slots and the trace entries, and so does every permutation of `C`. -/

namespace Sys2Proof.Machine

/-! ### States by what can be read of them -/

theorem Pools.ext_get {q q' : Pools} (h : ∀ (p : Pool) (i : Nat), (q.get p)[i]? = (q'.get p)[i]?) : q = q' := by
  have hget : ∀ p, q.get p = q'.get p := fun p => List.ext_getElem? (h p)
  obtain ⟨add, mult, load, store⟩ := q
  obtain ⟨add', mult', load', store'⟩ := q'
  obtain rfl : add = add' := hget .add
  obtain rfl : mult = mult' := hget .mult
  obtain rfl : load = load' := hget .load
  obtain rfl : store = store' := hget .store
  rfl

/-- States that agree in every register, slot and trace entry, and in the other fields, are equal. -/
theorem State.eq_of_views {s u : State}
    (hrest : { s with rf := u.rf, pools := u.pools, trace := u.trace } = u)
    (hreg : ∀ r, s.reg? r = u.reg? r) (hslot : ∀ t, s.slot? t = u.slot? t)
    (htrace : ∀ a : Nat, s.trace[a]? = u.trace[a]?) : s = u := by
  have hrf : s.rf = u.rf := List.ext_getElem? hreg
  have hpools : s.pools = u.pools := Pools.ext_get fun p i => hslot ⟨p, i⟩
  have htr : s.trace = u.trace := List.ext_getElem? htrace
  rw [← hrest, ← hrf, ← hpools, ← htr]

/-! ### One slot that receives two broadcasts (R84) -/

theorem Opnd.resolve_comm {t t' : Tag} (hne : t ≠ t') (v v' : Val) (o : Opnd) :
    (o.resolve t v).resolve t' v' = (o.resolve t' v').resolve t v := by
  cases o with
  | empty => rfl
  | rdy w => rfl
  | wait q =>
    by_cases h : q = t
    · subst h
      simp [Opnd.resolve_wait, hne]
    · by_cases h' : q = t'
      · subst h'
        simp [Opnd.resolve_wait, h]
      · simp [Opnd.resolve_wait, h, h']

theorem Slot.resolve_comm {t t' : Tag} (hne : t ≠ t') (v v' : Val) (u : Slot) :
    (u.resolve t v).resolve t' v' = (u.resolve t' v').resolve t v := by
  simp only [Slot.resolve, Opnd.resolve_comm hne v v']

theorem Slot.resolve_of_not_waitsOn {t : Tag} {v : Val} {u : Slot} (h : u.waitsOn t = false) :
    u.resolve t v = u := by
  obtain ⟨hj, hk⟩ : u.j ≠ .wait t ∧ u.k ≠ .wait t := by
    simpa [Slot.waitsOn, Bool.or_eq_false_iff] using h
  simp only [Slot.resolve, Opnd.resolve_of_ne hj, Opnd.resolve_of_ne hk]

theorem Slot.waitsOn_resolve {t t' : Tag} (hne : t ≠ t') (v : Val) (u : Slot) :
    (u.resolve t v).waitsOn t' = u.waitsOn t' := by
  rw [Bool.eq_iff_iff, Slot.waitsOn_iff, Slot.waitsOn_iff]
  simp [Opnd.resolve_eq_wait, Ne.symm hne]

theorem Slot.start_resolve (cfg : Config) (t : Tag) (v : Val) (u : Slot) :
    (u.start cfg).resolve t v = (u.resolve t v).start cfg := by
  cases hop : u.op <;> simp [Slot.start, Slot.resolve, hop]

theorem Slot.start_start (cfg : Config) (u : Slot) : (u.start cfg).start cfg = u.start cfg := by
  cases hop : u.op <;> simp [Slot.start, hop]

/-- A broadcast gives a started slot its value and changes nothing else of it. -/
theorem Slot.receive_start (cfg : Config) (p : Pool) (t : Tag) (v : Val) (u : Slot) :
    (u.start cfg).receive cfg p t v = (u.resolve t v).start cfg := by
  rw [Slot.receive, Slot.start_resolve]
  split
  · exact Slot.start_start cfg _
  · rfl

/-- One of the broadcasts of `t` and `t'` starts the slot's countdown: it waits on one of the two, it is
ready with both, and its countdown is INF. This does not speak of their order. -/
def Slot.WakesEither (p : Pool) (t : Tag) (v : Val) (t' : Tag) (v' : Val) (u : Slot) : Prop :=
  (u.waitsOn t = true ∨ u.waitsOn t' = true) ∧ ((u.resolve t v).resolve t' v').ready p = true ∧
    u.cnt = .inf

theorem Slot.wakesEither_comm {t t' : Tag} (hne : t ≠ t') (p : Pool) (v v' : Val) (u : Slot) :
    u.WakesEither p t v t' v' ↔ u.WakesEither p t' v' t v := by
  rw [Slot.WakesEither, Slot.WakesEither, Slot.resolve_comm hne, or_comm]

theorem Slot.wakes_iff_waitsOn (p : Pool) (t : Tag) (v : Val) (u : Slot) :
    u.wakes p t v = true ↔
      u.waitsOn t = true ∧ (u.resolve t v).ready p = true ∧ u.cnt = .inf := by
  rw [Slot.wakes_iff, Slot.waitsOn_iff]

/-- The first of two broadcasts wakes the slot, or the second does when the first has not. -/
theorem Slot.wakesEither_iff {t t' : Tag} (hne : t ≠ t') (p : Pool) (v v' : Val) (u : Slot) :
    u.WakesEither p t v t' v' ↔
      u.wakes p t v = true ∨ (u.wakes p t v = false ∧ (u.resolve t v).wakes p t' v' = true) := by
  simp only [← Bool.not_eq_true, Slot.wakes_iff_waitsOn, Slot.waitsOn_resolve hne, Slot.resolve_cnt]
  constructor
  · rintro ⟨hwait, hready, hinf⟩
    by_cases hfirst : u.waitsOn t = true ∧ (u.resolve t v).ready p = true ∧ u.cnt = .inf
    · exact .inl hfirst
    refine .inr ⟨hfirst, ?_, hready, hinf⟩
    by_contra hnot
    have hid : (u.resolve t v).resolve t' v' = u.resolve t v :=
      Slot.resolve_of_not_waitsOn (by rw [Slot.waitsOn_resolve hne]; simpa using hnot)
    rw [hid] at hready
    exact hfirst ⟨hwait.resolve_right hnot, hready, hinf⟩
  · rintro (⟨hwait, hready, hinf⟩ | ⟨-, hwait, hready, hinf⟩)
    · exact ⟨.inl hwait, Slot.ready_resolve_of_ready hready, hinf⟩
    · exact ⟨.inr hwait, hready, hinf⟩

/-- The countdown is loaded once, whichever of the two broadcasts makes the slot ready (R156). -/
theorem Slot.receive_receive {t t' : Tag} (hne : t ≠ t') (cfg : Config) (p : Pool) (v v' : Val)
    (u : Slot) [Decidable (u.WakesEither p t v t' v')] :
    (u.receive cfg p t v).receive cfg p t' v' =
      if u.WakesEither p t v t' v' then ((u.resolve t v).resolve t' v').start cfg
      else (u.resolve t v).resolve t' v' := by
  rw [if_congr (Slot.wakesEither_iff hne p v v' u) rfl rfl]
  cases hfirst : u.wakes p t v with
  | true =>
    have hstart : u.receive cfg p t v = (u.resolve t v).start cfg := if_pos hfirst
    rw [hstart, Slot.receive_start, if_pos (.inl rfl)]
  | false =>
    rw [Slot.receive_of_not_wakes hfirst]
    simp [Slot.receive]

theorem Slot.receive_comm {t t' : Tag} (hne : t ≠ t') (cfg : Config) (p : Pool) (v v' : Val) (u : Slot) :
    (u.receive cfg p t v).receive cfg p t' v' = (u.receive cfg p t' v').receive cfg p t v := by
  classical
  rw [Slot.receive_receive hne, Slot.receive_receive hne.symm, Slot.resolve_comm hne,
    if_congr (Slot.wakesEither_comm hne p v v' u) rfl rfl]

/-! ### Two turns of the loop -/

/-- The broadcast of `t` with `v` and the release of the slot: what `handle` does to a slot with the
result `v` (R80, R82, R85). -/
def State.retire (s : State) (t : Tag) (v : Val) : State := (s.broadcast t v).release t

@[simp] theorem State.retire_env (s : State) (t : Tag) (v : Val) : (s.retire t v).env = s.env := rfl

/-- The broadcast of `t` starts the countdown of a slot that serves instruction `a` (R84). -/
def State.Wakes (s : State) (t : Tag) (v : Val) (a : Nat) : Prop :=
  ∃ q w, s.slot? q = some w ∧ w.instr = some a ∧ w.wakes q.pool t v = true

/-- The stamp that a countdown loaded in the current cycle gives instruction `a` (R99). -/
def State.stampAt (s : State) (a : Nat) : Option Nat :=
  (s.env.instrAt a).map fun i => s.cycle + s.env.cfg.lat i.op + 1

@[simp] theorem State.retire_stampAt (s : State) (t : Tag) (v : Val) (a : Nat) :
    (s.retire t v).stampAt a = s.stampAt a := rfl

/-- The trace after one turn of the loop: slots that serve one instruction agree on its stamp. -/
theorem State.Mid.retire_trace_getElem? {s : State} (h : s.Mid) (t : Tag) (v : Val) (a : Nat)
    [Decidable (s.Wakes t v a)] :
    (s.retire t v).trace[a]? =
      (s.trace[a]?).map fun st => if s.Wakes t v a then { st with wb := s.stampAt a } else st := by
  have hop : ∀ w ∈ s.woken t v, w.instr = some a → w.op = (s.env.instrAt a).map Instr.op := by
    intro w hw ha
    obtain ⟨q, hq, hwakes⟩ := (s.mem_woken t v w).1 hw
    obtain ⟨-, hready, -⟩ := (Slot.wakes_iff_waitsOn _ _ _ _).1 hwakes
    have hbusy : w.busy = true := by simpa using Slot.busy_of_ready hready
    obtain ⟨b, i, hb, -, hi, hwop, -⟩ := (s.servesOk_iff _ _).1 (h.busy q w hq hbusy).serves
    obtain rfl := Option.some.inj (ha.symm.trans hb)
    rw [hi, hwop, Option.map_some]
  rw [State.retire, State.release_trace, State.broadcast_trace]
  split_ifs with hwake
  · obtain ⟨q, w, hq, ha, hw⟩ := hwake
    have hmem := (s.mem_woken t v w).2 ⟨q, hq, hw⟩
    rw [stampWoken_of_served hmem ha fun w' hw' ha' => (hop w' hw' ha').trans (hop w hmem ha).symm]
    simp [Slot.wbStamp, State.stampAt, hop w hmem ha, Function.comp_def]
  · rw [stampWoken_of_not_served, Option.map_id']
    intro w hw ha
    obtain ⟨q, hq, hwakes⟩ := (s.mem_woken t v w).1 hw
    exact hwake ⟨q, w, hq, ha, hwakes⟩

theorem State.retire_slot? (s : State) (t q : Tag) (v : Val) :
    (s.retire t v).slot? q =
      (s.slot? q).map fun w => if q = t then Slot.free else w.receive s.env.cfg q.pool t v := by
  rw [State.retire, State.release_slot?]
  by_cases hq : q = t
  · subst hq; simp [State.broadcast_slot?, Function.comp_def]
  · simp only [hq, if_false, State.broadcast_slot?]

theorem State.retire_reg? (s : State) (t : Tag) (v : Val) (r : Nat) :
    (s.retire t v).reg? r = (s.reg? r).map fun x => if x = .pending t then .value v else x :=
  s.broadcast_reg? t v r

/-- A broadcast on which nothing waits changes nothing. -/
theorem State.broadcast_of_not_awaited {s : State} {t : Tag} (v : Val)
    (hreg : ∀ r, s.reg? r ≠ some (.pending t)) (hslot : ∀ q w, s.slot? q = some w → w.waitsOn t = false) :
    s.broadcast t v = s := by
  refine State.eq_of_views rfl (fun r => ?_) (fun q => ?_) fun a => ?_
  · rw [State.broadcast_reg?]
    cases hx : s.reg? r with
    | none => rfl
    | some x =>
      have hne : x ≠ .pending t := fun he => hreg r (by rw [hx, he])
      simp [hne]
  · rw [State.broadcast_slot?]
    cases hw : s.slot? q with
    | none => rfl
    | some w => rw [Option.map_some, Slot.receive_of_not_waitsOn (hslot q w hw)]
  · rw [State.broadcast_trace, stampWoken_of_not_served]
    intro w hw
    obtain ⟨q, hq, hwakes⟩ := (s.mem_woken t v w).1 hw
    simp [Slot.wakes, hslot q w hq] at hwakes

/-- The value of a slot's broadcast; a slot without a result, on which nothing waits, has any (R81, R86). -/
def Slot.broadcastValue (p : Pool) (u : Slot) : Val := (u.result p).getD (.init 0)

/-- A store is handled as if it broadcast: nothing waits on its tag (R86, R149). -/
theorem State.Mid.handle_eq_retire {s : State} (h : s.Mid) {t : Tag} {u : Slot} (hu : s.slot? t = some u)
    (hr : u.ready t.pool = true) : s.handle t = s.retire t (u.broadcastValue t.pool) := by
  cases hres : u.result t.pool with
  | some v => rw [State.handle_of_result hu hres, Slot.broadcastValue, hres]; rfl
  | none =>
    have hstore : t.pool = .store := by
      by_contra hp
      obtain ⟨v, hv⟩ := (h.busy_of_ready hu hr).result_isSome hr hp
      simp [hres] at hv
    rw [State.handle_of_no_result hu hres, State.retire, State.broadcast_of_not_awaited _
      (h.reg?_ne_pending_store hstore) fun q w hw => ?_]
    obtain ⟨hj, hk⟩ := h.not_wait_store hw hstore
    simp [Slot.waitsOn, hj, hk]

/-- A complete slot, whose countdown is not INF, is woken by nothing. -/
theorem Slot.not_wakesEither_of_complete {p : Pool} {t t' : Tag} {v v' : Val} {u : Slot}
    (hc : u.complete p = true) : ¬ u.WakesEither p t v t' v' := by
  rintro ⟨-, -, hinf⟩
  obtain ⟨-, hzero, -⟩ := (Slot.complete_iff _ _).1 hc
  rw [hzero] at hinf
  cases hinf

/-- Two turns of the loop wake the slots that one of the two broadcasts wakes. -/
theorem State.wakes_or_wakes_retire_iff {s : State} {t t' : Tag} (hne : t ≠ t') (v v' : Val) {u : Slot}
    (hu : s.slot? t = some u) (hc : u.complete t.pool = true) (a : Nat) :
    (s.Wakes t v a ∨ (s.retire t v).Wakes t' v' a) ↔
      ∃ q w, s.slot? q = some w ∧ w.instr = some a ∧ w.WakesEither q.pool t v t' v' := by
  constructor
  · rintro (⟨q, w, hw, ha, hwakes⟩ | ⟨q, w', hw', ha, hwakes⟩)
    · exact ⟨q, w, hw, ha, (Slot.wakesEither_iff hne _ _ _ _).2 (.inl hwakes)⟩
    · rw [State.retire_slot?, Option.map_eq_some_iff] at hw'
      obtain ⟨w, hw, rfl⟩ := hw'
      split_ifs at ha hwakes with hq
      · cases ha
      refine ⟨q, w, hw, by simpa using ha, (Slot.wakesEither_iff hne _ _ _ _).2 ?_⟩
      cases hfirst : w.wakes q.pool t v with
      | true => exact .inl rfl
      | false => exact .inr ⟨rfl, by rwa [Slot.receive_of_not_wakes hfirst] at hwakes⟩
  · rintro ⟨q, w, hw, ha, hwakes⟩
    have hq : q ≠ t := by
      rintro rfl
      obtain rfl := Option.some.inj (hw.symm.trans hu)
      exact Slot.not_wakesEither_of_complete hc hwakes
    obtain hfirst | ⟨hfirst, hsecond⟩ := (Slot.wakesEither_iff hne _ _ _ _).1 hwakes
    · exact .inl ⟨q, w, hw, ha, hfirst⟩
    · refine .inr ⟨q, w.receive s.env.cfg q.pool t v, ?_, by simpa using ha, ?_⟩
      · rw [State.retire_slot?, hw, Option.map_some, if_neg hq]
      · rwa [Slot.receive_of_not_wakes hfirst]

/-- The trace after two turns of the loop: the instructions that either wakes are stamped. -/
theorem State.Mid.retire_retire_trace {s : State} (h : s.Mid) {t t' : Tag} (hne : t ≠ t') {u : Slot}
    (hu : s.slot? t = some u) (hc : u.complete t.pool = true) {v : Val} (h' : (s.retire t v).Mid)
    (v' : Val) (a : Nat)
    [Decidable (∃ q w, s.slot? q = some w ∧ w.instr = some a ∧ w.WakesEither q.pool t v t' v')] :
    ((s.retire t v).retire t' v').trace[a]? = (s.trace[a]?).map fun st =>
      if ∃ q w, s.slot? q = some w ∧ w.instr = some a ∧ w.WakesEither q.pool t v t' v' then
        { st with wb := s.stampAt a } else st := by
  classical
  rw [h'.retire_trace_getElem?, h.retire_trace_getElem?, Option.map_map]
  congr 1
  funext st
  simp only [← State.wakes_or_wakes_retire_iff hne v v' hu hc a, Function.comp_apply,
    State.retire_stampAt]
  by_cases hw : s.Wakes t v a <;> by_cases hw' : (s.retire t v).Wakes t' v' a <;> simp [hw, hw']

/-- Two complete slots may be handled in either order. -/
theorem State.Mid.handle_comm {s : State} (h : s.Mid) {t t' : Tag} (hne : t ≠ t')
    (ht : t ∈ s.completeTags) (ht' : t' ∈ s.completeTags) :
    (s.handle t).handle t' = (s.handle t').handle t := by
  classical
  obtain ⟨u, hu, hc⟩ := (s.mem_completeTags t).1 ht
  obtain ⟨u', hu', hc'⟩ := (s.mem_completeTags t').1 ht'
  have hr := ((Slot.complete_iff _ _).1 hc).1
  have hr' := ((Slot.complete_iff _ _).1 hc').1
  have hm := h.handle hu hr
  have hm' := h.handle hu' hr'
  rw [hm.handle_eq_retire (h.handle_slot?_of_ready hu hne.symm hu' hr') hr',
    hm'.handle_eq_retire (h.handle_slot?_of_ready hu' hne hu hr) hr]
  rw [h.handle_eq_retire hu hr] at hm ⊢
  rw [h.handle_eq_retire hu' hr'] at hm' ⊢
  generalize u.broadcastValue t.pool = v at *
  generalize u'.broadcastValue t'.pool = v' at *
  refine State.eq_of_views rfl (fun r => ?_) (fun q => ?_) fun a => ?_
  · simp only [State.retire_reg?, Option.map_map]
    congr 1
    funext x
    by_cases hx : x = .pending t
    · subst hx; simp [hne]
    · by_cases hx' : x = .pending t'
      · subst hx'; simp [hx]
      · simp [hx, hx']
  · simp only [State.retire_slot?, Option.map_map]
    congr 1
    funext w
    by_cases hq : q = t
    · subst hq; simp [hne]
    · by_cases hq' : q = t'
      · subst hq'; simp [hq]
      · simpa [hq, hq'] using Slot.receive_comm hne _ _ _ _ w
  · rw [h.retire_retire_trace hne hu hc hm, h.retire_retire_trace hne.symm hu' hc' hm']
    simp only [Slot.wakesEither_comm hne]

/-! ### Every order -/

/-- Permuted lists of complete slots are handled alike: neighbours are swapped one pair at a time. -/
theorem foldl_handle_perm {l l' : List Tag} (hperm : l.Perm l') {s : State} (hm : s.Mid) (hnodup : l.Nodup)
    (hl : ∀ t ∈ l, t ∈ s.completeTags) : l.foldl State.handle s = l'.foldl State.handle s := by
  induction hperm generalizing s with
  | nil => rfl
  | cons t _ ih =>
    obtain ⟨hnew, hnodup⟩ := List.nodup_cons.1 hnodup
    have ht := hl t List.mem_cons_self
    obtain ⟨u, hu, hc⟩ := (s.mem_completeTags t).1 ht
    refine ih (hm.handle hu ((Slot.complete_iff _ _).1 hc).1) hnodup fun q hq => ?_
    exact (hm.mem_completeTags_handle ht q).2
      ⟨hl q (List.mem_cons_of_mem _ hq), fun he => hnew (he ▸ hq)⟩
  | swap t t' l =>
    have hne : t' ≠ t := fun he => by simp [he] at hnodup
    simp only [List.foldl_cons]
    rw [hm.handle_comm hne (hl t' (by simp)) (hl t (by simp))]
  | trans hfirst _ ih ih' =>
    rw [ih hm hnodup hl]
    exact ih' hm (hfirst.nodup_iff.1 hnodup) fun t ht => hl t (hfirst.mem_iff.2 ht)

/-- Settles O35: `C` names no slot twice, and its slots are complete. -/
theorem writebackOrderIsUnobservable : Obligations.WritebackOrderIsUnobservable := by
  intro s order hlawful hperm
  exact foldl_handle_perm hperm (State.mid_of_lawful hlawful)
    (hperm.nodup_iff.2 s.completeTags_nodup) fun _ ht => hperm.mem_iff.1 ht

end Sys2Proof.Machine
end

section
/-! PROOFS. At DONE the registers hold the sequential result (70_reset_and_hazards.md R155): every step keeps
the dataflow law (R137–R139), phase by phase, and the step into DONE leaves no register pending. -/

namespace Sys2Proof.Machine

/-! ### The sequential execution (R155) -/

theorem Env.writes_of_lastWriter {e : Env} {r k b : Nat} (h : e.lastWriter r k = some b) :
    e.writes b r = true := by
  induction k with
  | zero => cases h
  | succ k ih =>
    by_cases hw : e.writes k r = true
    · rw [Env.lastWriter_succ_of_writes hw] at h
      obtain rfl := Option.some.inj h
      exact hw
    · rw [Env.lastWriter_succ_of_not_writes (by simpa using hw)] at h
      exact ih h

/-- The register `writesValue` names is the instruction's destination (R27). -/
theorem writesValue_fst (ρ : Nat → Val) (i : Instr) :
    (writesValue ρ i).map Prod.fst = i.dest.map BitVec.toNat := by
  cases i <;> rfl

theorem seqReg_succ_of_not_writes {e : Env} {r k : Nat} (h : e.writes k r = false) :
    seqReg e (k + 1) r = seqReg e k r := by
  rw [seqReg]
  cases hi : e.instrAt k with
  | none => rfl
  | some i =>
    have hdest := writesValue_fst (seqReg e k) i
    rw [← Bool.not_eq_true, Env.writes_iff hi] at h
    cases hv : writesValue (seqReg e k) i with
    | none => simp [hv]
    | some dv =>
      obtain ⟨d, v⟩ := dv
      have hd : d ≠ r := by
        rintro rfl
        rw [hv, Option.map_some, eq_comm, Option.map_eq_some_iff] at hdest
        exact h hdest
      simp [hv, hd]

theorem seqReg_succ_of_writes {e : Env} {r k d : Nat} {i : Instr} {v : Val} (hi : e.instrAt k = some i)
    (hw : e.writes k r = true) (hv : writesValue (seqReg e k) i = some (d, v)) :
    seqReg e (k + 1) r = v := by
  obtain ⟨x, hx, rfl⟩ := (Env.writes_iff hi r).1 hw
  have hdest := writesValue_fst (seqReg e k) i
  rw [hv, hx] at hdest
  obtain rfl : d = x.toNat := Option.some.inj hdest
  simp [seqReg, hi, hv]

/-- A register keeps what its last writer left in it. -/
theorem seqReg_of_lastWriter {e : Env} {r k b : Nat} (h : e.lastWriter r k = some b) :
    seqReg e k r = seqReg e (b + 1) r := by
  induction k with
  | zero => cases h
  | succ k ih =>
    by_cases hw : e.writes k r = true
    · rw [Env.lastWriter_succ_of_writes hw] at h
      rw [Option.some.inj h]
    · rw [Bool.not_eq_true] at hw
      rw [Env.lastWriter_succ_of_not_writes hw] at h
      rw [seqReg_succ_of_not_writes hw, ih h]

/-! ### What a slot broadcasts (R81) -/

theorem Slot.result_of_arith {u : Slot} {o : ArithOp} {v : Val} (hop : u.op = some (.arith o))
    (hv : u.result (Op.arith o).pool = some v) :
    ∃ x y, u.j = .rdy x ∧ u.k = .rdy y ∧ v = .bin o x y := by
  have hpool : (Op.arith o).pool = .add ∨ (Op.arith o).pool = .mult := by cases o <;> simp [Op.pool]
  cases hj : u.j <;> cases hk : u.k <;> obtain hp | hp := hpool <;>
    simp [Slot.result, hp, hop, hj, hk] at hv ⊢ <;> exact hv.symm

/-- A slot whose operands hold the values of `ρ` broadcasts what its instruction writes. -/
theorem Slot.writesValue_of_result {u : Slot} {i : Instr} {v : Val} {ρ : Nat → Val} (hop : u.op = some i.op)
    (hj : ∀ r x, i.srcJ = some r → u.j = .rdy x → x = ρ r.toNat)
    (hk : ∀ r x, i.srcK = some r → u.k = .rdy x → x = ρ r.toNat) (haddr : u.addr = instrAddr? i)
    (hv : u.result i.op.pool = some v) : ∃ d, writesValue ρ i = some (d, v) := by
  cases i with
  | add rd rs1 rs2 | sub rd rs1 rs2 | mul rd rs1 rs2 | div rd rs1 rs2 =>
    obtain ⟨x, y, hx, hy, rfl⟩ := Slot.result_of_arith hop hv
    rw [hj rs1 x rfl hx, hk rs2 y rfl hy]
    exact ⟨_, rfl⟩
  | load rt off base =>
    simp only [Slot.result, Instr.op, Op.pool, haddr, instrAddr?, Option.some.injEq] at hv
    exact ⟨rt.toNat, by rw [← hv]; rfl⟩
  | store rt off base => simp [Instr.op, Op.pool] at hv

theorem State.operandFlows_rdy {s : State} {a : Nat} {src : Option RegIdx} {o : Opnd} {r : RegIdx} {x : Val}
    (h : s.operandFlows a src o) (hr : src = some r) (hx : o = .rdy x) : x = seqReg s.env a r.toNat := by
  subst hr hx
  exact h

/-- A ready slot broadcasts the value that program order gives each register its instruction writes. -/
theorem State.DataflowLaw.broadcastValue_eq {s : State} (h : s.DataflowLaw) (hm : s.Mid) {t : Tag} {u : Slot}
    (hu : s.slot? t = some u) (hr : u.ready t.pool = true) (ht : t.pool ≠ .store) {a r : Nat}
    (ha : u.instr = some a) (hw : s.env.writes a r = true) :
    u.broadcastValue t.pool = seqReg s.env (a + 1) r := by
  have hbusy := hm.busy_of_ready hu hr
  obtain ⟨v, hv⟩ := hbusy.result_isSome hr ht
  obtain ⟨a', i, ha', -, hi, hop, hpool⟩ := (s.servesOk_iff _ _).1 hbusy.serves
  obtain rfl := Option.some.inj (ha.symm.trans ha')
  obtain ⟨hj, hk, haddr⟩ := h.slots t u a i hu ha hi
  obtain ⟨d, hd⟩ := Slot.writesValue_of_result (ρ := seqReg s.env a) hop
    (fun _ _ => State.operandFlows_rdy hj) (fun _ _ => State.operandFlows_rdy hk) haddr (hpool ▸ hv)
  rw [Slot.broadcastValue, hv, seqReg_succ_of_writes hi hw hd]
  rfl

/-! ### Writeback -/

/-- An operand stays well placed in program order while the slot it waits on serves on. -/
theorem State.operandFlows.congr {s s' : State} {a : Nat} {src : Option RegIdx} {o : Opnd}
    (h : s.operandFlows a src o) (henv : s'.env = s.env)
    (hslot : ∀ t u, o = .wait t → s.slot? t = some u → ∃ u', s'.slot? t = some u' ∧ u'.instr = u.instr) :
    s'.operandFlows a src o := by
  cases src with
  | none => exact h
  | some r =>
    cases o with
    | empty => exact h
    | rdy v => simpa [State.operandFlows, henv] using h
    | wait t =>
      obtain ⟨u, hu, hlast⟩ := h
      obtain ⟨u', hu', hinstr⟩ := hslot t u rfl hu
      exact ⟨u', hu', by rw [hinstr, hlast, henv]⟩

/-- The broadcast gives an operand the value of program order (R137). -/
theorem State.DataflowLaw.operandFlows_retire {s : State} (h : s.DataflowLaw) (hm : s.Mid) {t : Tag}
    {u : Slot} (hu : s.slot? t = some u) (hr : u.ready t.pool = true) {a : Nat} {src : Option RegIdx}
    {o : Opnd} (ho : s.operandFlows a src o) (hstore : t.pool = .store → o ≠ .wait t) :
    (s.retire t (u.broadcastValue t.pool)).operandFlows a src (o.resolve t (u.broadcastValue t.pool)) := by
  by_cases hwait : o = .wait t
  · subst hwait
    rw [Opnd.resolve_wait_self]
    cases src with
    | none => cases ho
    | some r =>
      obtain ⟨u', hu', hlast⟩ := ho
      obtain rfl := Option.some.inj (hu.symm.trans hu')
      obtain ⟨b, -, hb, -⟩ := (s.servesOk_iff _ _).1 (hm.busy_of_ready hu hr).serves
      rw [hb, eq_comm] at hlast
      exact (h.broadcastValue_eq hm hu hr (fun hp => hstore hp rfl) hb
        (Env.writes_of_lastWriter hlast)).trans (seqReg_of_lastWriter hlast).symm
  · rw [Opnd.resolve_of_ne hwait]
    refine ho.congr rfl fun q w hq hw => ?_
    have hne : q ≠ t := fun he => hwait (he ▸ hq)
    exact ⟨_, by rw [State.retire_slot?, hw, Option.map_some, if_neg hne], by simp⟩

/-- One turn of the Writeback loop keeps the dataflow law (R138: a register renamed since is not written). -/
theorem State.DataflowLaw.handle {s : State} (h : s.DataflowLaw) (hm : s.Mid) {t : Tag} {u : Slot}
    (hu : s.slot? t = some u) (hr : u.ready t.pool = true) : (s.handle t).DataflowLaw := by
  rw [hm.handle_eq_retire hu hr]
  constructor
  · intro r v hv
    rw [State.retire_reg?, Option.map_eq_some_iff] at hv
    obtain ⟨x, hx, hv⟩ := hv
    split_ifs at hv with hpending
    · subst hpending
      obtain rfl := RegStatus.value.inj hv
      obtain ⟨hstore, u', b, hu', -, hb, hlast⟩ := (s.regOk_pending r t).1 (hm.regs r _ hx)
      obtain rfl := Option.some.inj (hu.symm.trans hu')
      exact (h.broadcastValue_eq hm hu hr hstore hb (Env.writes_of_lastWriter hlast)).trans
        (seqReg_of_lastWriter hlast).symm
    · exact h.regs r v (hv ▸ hx)
  · intro q w' a i hw' ha hi
    rw [State.retire_slot?, Option.map_eq_some_iff] at hw'
    obtain ⟨w, hw, rfl⟩ := hw'
    split_ifs at ha ⊢ with hq
    · cases ha
    rw [Slot.receive_instr] at ha
    obtain ⟨hj, hk, haddr⟩ := h.slots q w a i hw ha hi
    rw [Slot.receive_j, Slot.receive_k, Slot.receive_addr]
    exact ⟨h.operandFlows_retire hm hu hr hj fun hp => (hm.not_wait_store hw hp).1,
      h.operandFlows_retire hm hu hr hk fun hp => (hm.not_wait_store hw hp).2, haddr⟩

theorem State.DataflowLaw.afterWriteback {s : State} (h : s.DataflowLaw) (hlawful : s.lawful = true) :
    s.afterWriteback.DataflowLaw := by
  have hm : ({ s with cycle := s.cycle + 1 } : State).Mid :=
    (State.mid_of_lawful hlawful).congr rfl rfl rfl rfl rfl
  refine (State.writebackPhase_induct hm ⟨h.regs, h.slots⟩ fun w t u hw hd hu hc => ?_).1
  exact hd.handle hw hu ((Slot.complete_iff _ _).1 hc).1

/-! ### Issue and Execute -/

/-- A captured operand holds the value of its register, or waits on the register's last writer (R94). -/
theorem State.DataflowLaw.operandFlows_captured {s : State} (h : s.DataflowLaw) (hm : s.Mid)
    {src : Option RegIdx} {o : Opnd} (hc : s.Captured src o) : s.operandFlows s.pc src o := by
  cases src with
  | none => exact hc
  | some r =>
    obtain ⟨x, hx, rfl⟩ := hc
    cases x with
    | value v => exact h.regs _ _ hx
    | pending t =>
      obtain ⟨-, u, b, hu, -, hb, hlast⟩ := (s.regOk_pending _ t).1 (hm.regs _ _ hx)
      exact ⟨u, hu, hb.trans hlast.symm⟩

/-- The issue fills a free slot, so the busy slots that operands wait on serve on (R93). -/
theorem State.operandFlows.issue {s : State} {o : Op} {n : Nat} (hfree : s.findFree o.pool = some n)
    (w : Slot) (d : Option RegIdx) {a : Nat} {src : Option RegIdx} {served : Option Nat} {x : Opnd}
    (h : s.operandFlows a src x) (hok : s.operandOk served x = true) :
    (s.issue o w d).operandFlows a src x := by
  refine h.congr (s.issue_keeps o w d).1 fun t u ht hu => ⟨u, ?_, rfl⟩
  subst ht
  obtain ⟨-, u', -, -, hu', hbusy, -⟩ := (s.operandOk_wait _ _).1 hok
  obtain ⟨⟨w', hw', hidle⟩, -⟩ := (s.findFree_eq_some _ _).1 hfree
  have hne : t ≠ ⟨o.pool, n⟩ := by
    rintro rfl
    obtain rfl := Option.some.inj (hu'.symm.trans hw')
    simp [hidle] at hbusy
  rw [State.issue_slot? hfree, if_neg hne, hu]

/-- A register that holds a value after an issue held it before, and is not the destination (R94). -/
theorem State.reg?_of_issue_value {s : State} {o : Op} {n : Nat} (hfree : s.findFree o.pool = some n)
    {w : Slot} {d : Option RegIdx} {r : Nat} {v : Val} (h : (s.issue o w d).reg? r = some (.value v)) :
    s.reg? r = some (.value v) ∧ ∀ x, d = some x → x.toNat ≠ r := by
  rw [State.reg?, State.issue_rf hfree] at h
  cases d with
  | none => exact ⟨h, fun x hx => by cases hx⟩
  | some x =>
    rw [List.getElem?_set] at h
    split_ifs at h with hx
    · cases h
    · exact ⟨h, fun y hy => Option.some.inj hy ▸ hx⟩

theorem Slot.ofInstr_addr (i : Instr) (oj ok : Opnd) (pc : Nat) :
    (Slot.ofInstr i oj ok pc).addr = instrAddr? i := by
  cases i <;> rfl

/-- The issue of the instruction at `pc` keeps the dataflow law (R94, R139). -/
theorem State.DataflowLaw.issue {s : State} (h : s.DataflowLaw) (hm : s.Mid) {i : Instr}
    (hi : s.env.instrAt s.pc = some i) {oj ok : Opnd} (hj : s.Captured i.srcJ oj)
    (hk : s.Captured i.srcK ok) :
    (s.issue i.op (Slot.ofInstr i oj ok s.pc) i.dest).DataflowLaw := by
  cases hfree : s.findFree i.op.pool with
  | none =>
    rw [State.issue_of_full hfree]
    exact ⟨h.regs, h.slots⟩
  | some n =>
    obtain ⟨henv, -⟩ := s.issue_keeps i.op (Slot.ofInstr i oj ok s.pc) i.dest
    obtain ⟨hpc, -⟩ := State.issue_pc_stall hfree (Slot.ofInstr i oj ok s.pc) i.dest
    constructor
    · intro r v hv
      obtain ⟨hold, hdest⟩ := State.reg?_of_issue_value hfree hv
      have hw : s.env.writes s.pc r = false := by
        rw [← Bool.not_eq_true, Env.writes_iff hi]
        rintro ⟨d, hd, hdr⟩
        exact hdest d hd hdr
      rw [henv, hpc, seqReg_succ_of_not_writes hw]
      exact h.regs r v hold
    · intro t u a i' hu ha hi'
      rw [henv] at hi'
      rw [State.issue_slot? hfree] at hu
      split_ifs at hu with ht
      · obtain rfl := Option.some.inj hu
        rw [Slot.launch_instr] at ha
        obtain rfl : s.pc = a := Option.some.inj ha
        obtain rfl := Option.some.inj (hi.symm.trans hi')
        rw [Slot.launch_j, Slot.launch_k, Slot.launch_addr, Slot.ofInstr_addr]
        exact ⟨(h.operandFlows_captured hm hj).issue hfree _ _ (hm.operandOk_captured hj),
          (h.operandFlows_captured hm hk).issue hfree _ _ (hm.operandOk_captured hk), rfl⟩
      · have hbusy := hm.busy t u hu (hm.busy_of_instr hu ha)
        obtain ⟨hj', hk', haddr⟩ := h.slots t u a i' hu ha hi'
        exact ⟨hj'.issue hfree _ _ hbusy.opJ, hk'.issue hfree _ _ hbusy.opK, haddr⟩

/-- The Execute phase writes countdowns alone (R100). -/
theorem State.DataflowLaw.executePhase {s : State} (h : s.DataflowLaw) : s.executePhase.DataflowLaw := by
  have hflows : ∀ {a src o}, s.operandFlows a src o → s.executePhase.operandFlows a src o := fun ho =>
    ho.congr rfl fun t u _ hu =>
      ⟨u.tick t.pool, by rw [State.executePhase_slot?, hu, Option.map_some], Slot.tick_instr _ _⟩
  refine ⟨h.regs, fun t u' a i hu' ha hi => ?_⟩
  rw [State.executePhase_slot?, Option.map_eq_some_iff] at hu'
  obtain ⟨u, hu, rfl⟩ := hu'
  rw [Slot.tick_instr] at ha
  obtain ⟨hj, hk, haddr⟩ := h.slots t u a i hu ha hi
  rw [Slot.tick_j, Slot.tick_k, Slot.tick_addr]
  exact ⟨hflows hj, hflows hk, haddr⟩

/-! ### The run -/

/-- Every step of a lawful state keeps the dataflow law. -/
theorem StepCase.dataflow {s s' : State} (hcase : StepCase s s') (hlawful : s.lawful = true)
    (h : s.DataflowLaw) : s'.DataflowLaw := by
  have hwb := h.afterWriteback hlawful
  cases hcase with
  | drain _ _ _ _ he =>
    subst he
    exact State.DataflowLaw.executePhase ⟨hwb.regs, hwb.slots⟩
  | attempt _ _ _ _ i u hi hx he =>
    subst he
    obtain ⟨-, oj, ok, hj, hk, rfl⟩ := exec_next hx
    exact (hwb.issue (State.mid_afterWriteback hlawful) (by simpa using hi) hj hk).executePhase
  | tooLong _ _ he | accepted _ _ _ he | badWord _ _ _ _ _ _ _ he | goodWord _ _ _ _ _ he
  | finish _ _ he | overflow _ _ _ he | done _ he | error _ he => subst he; exact ⟨h.regs, h.slots⟩

theorem exec_env_fsm {i : Instr} {s u : State} (h : exec i s = .next u) :
    u.env = s.env ∧ u.fsm = s.fsm := by
  obtain ⟨-, oj, ok, -, -, rfl⟩ := exec_next h
  obtain ⟨henv, hfsm, -⟩ := s.issue_keeps i.op (Slot.ofInstr i oj ok s.pc) i.dest
  exact ⟨henv, hfsm⟩

/-- No step writes the parameters (R20). -/
theorem StepCase.env {s s' : State} (hcase : StepCase s s') : s'.env = s.env := by
  cases hcase with
  | drain _ _ _ _ he => subst he; exact s.afterWriteback_env
  | attempt _ _ _ _ i u _ hx he => subst he; exact (exec_env_fsm hx).1.trans s.afterWriteback_env
  | tooLong _ _ he | accepted _ _ _ he | badWord _ _ _ _ _ _ _ he | goodWord _ _ _ _ _ he
  | finish _ _ he | overflow _ _ _ he | done _ he | error _ he => subst he; rfl

/-- A step that ends in DONE finds the terminal condition, or finds the block in DONE (R74, R77). -/
theorem StepCase.of_done {s s' : State} (hcase : StepCase s s') (hdone : s'.fsm = .done) :
    (s.terminal = true ∧ s' = { s with fsm := .done }) ∨ (s.fsm = .done ∧ s' = s) := by
  cases hcase with
  | finish _ ht he => exact .inl ⟨ht, he⟩
  | done hf he => exact .inr ⟨hf, he⟩
  | drain hf _ _ _ he =>
    subst he; simp [hf] at hdone
  | attempt hf _ _ _ i u _ hx he =>
    subst he; simp [(exec_env_fsm hx).2, hf] at hdone
  | tooLong _ _ he | accepted _ _ _ he | badWord _ _ _ _ _ _ _ he | overflow _ _ _ he =>
    subst he; cases hdone
  | goodWord hf _ _ _ _ he | error hf he => subst he; simp [hf] at hdone

/-- What every state of a run with parameters `e` meets: the dataflow law, and at DONE the laws between
two phases with the terminal condition. -/
structure State.ResultLaw (e : Env) (s : State) : Prop where
  env : s.env = e
  dataflow : s.DataflowLaw
  finished : s.fsm = .done → s.Mid ∧ s.terminal = true

theorem State.resetOf_dataflow (e : Env) : (State.resetOf e).DataflowLaw := by
  constructor
  · intro r v hv
    exact RegStatus.value.inj (State.eq_init_of_resetOf_reg? hv)
  · intro t u a i hu ha
    obtain ⟨-, rfl⟩ := (State.resetOf_slot? e t u).1 hu
    cases ha

theorem State.resetOf_resultLaw (e : Env) : (State.resetOf e).ResultLaw e :=
  ⟨rfl, State.resetOf_dataflow e, fun hdone => by cases hdone⟩

theorem State.ResultLaw.step {e : Env} {s t : State} (h : s.ResultLaw e) (hstep : step s = .next t) :
    t.ResultLaw e := by
  obtain ⟨-, hlawful, hcase⟩ := step_cases hstep
  refine ⟨hcase.env.trans h.env, hcase.dataflow hlawful h.dataflow, fun hdone => ?_⟩
  obtain ⟨hterm, rfl⟩ | ⟨hf, rfl⟩ := hcase.of_done hdone
  · exact ⟨(State.mid_of_lawful hlawful).congr rfl rfl rfl rfl rfl, hterm⟩
  · exact h.finished hf

/-- The induction over a run, packaged once: what every step keeps holds of every state of the run. -/
theorem stepN_induct {P : State → Prop} (hstep : ∀ s t, P s → step s = .next t → P t) :
    ∀ (k : Nat) {s t : State}, P s → stepN k s = .next t → P t := by
  intro k
  induction k with
  | zero =>
    intro s t hs hrun
    cases hrun
    exact hs
  | succ k ih =>
    intro s t hs hrun
    rw [stepN] at hrun
    split at hrun
    · exact ih (hstep _ _ hs ‹_›) hrun
    · cases hrun
    · cases hrun

/-- At DONE every register holds what the whole program leaves in it. -/
theorem State.ResultLaw.reg?_of_done {e : Env} {s : State} (h : s.ResultLaw e) (hdone : s.fsm = .done)
    {r : Nat} (hr : r < e.cfg.nReg) : s.reg? r = some (.value (seqReg e e.progLen r)) := by
  obtain ⟨hm, hterm⟩ := h.finished hdone
  obtain ⟨hpc, hidle⟩ := s.terminal_iff.1 hterm
  obtain rfl := h.env
  have hlt : r < s.rf.length := by rwa [(s.shapeOk_iff.1 hm.shape).1]
  have hx : s.reg? r = some s.rf[r] := List.getElem?_eq_getElem hlt
  obtain ⟨v, hv⟩ := hm.value_of_allFree hidle hx
  rw [hx, hv, h.dataflow.regs r v (hx.trans (congrArg some hv)), hpc]

/-- Settles O43: every state of the run meets the law of the result, by induction over its steps. -/
theorem doneHoldsTheSequentialResult : Obligations.DoneHoldsTheSequentialResult := by
  intro e k t _ hrun hdone r hr
  have hresult : t.ResultLaw e :=
    stepN_induct (fun _ _ => State.ResultLaw.step) k (State.resetOf_resultLaw e) hrun
  exact hresult.reg?_of_done hdone hr

end Sys2Proof.Machine
end

section
/-! PROOFS. One step of the sequencer, case by case (40_sequencer.md R73, R74, R76, 60_exceptions.md R111,
R116), what stops a clock edge (R11, R112, R150), and what no edge writes (R20, R57). -/

namespace Sys2Proof.Machine

/-! ### The step of a lawful state (R73) -/

theorem step_of_lawful {s : State} (hcfg : s.env.cfg.wf = true) (hlawful : s.lawful = true) :
    step s = fsmStep s := by
  simp [step, sequencerStep, hcfg, hlawful]

theorem step_of_run {s : State} (hcfg : s.env.cfg.wf = true) (hlawful : s.lawful = true)
    (hrun : s.fsm = .run) : step s = runStep s := by
  simp [step_of_lawful hcfg hlawful, fsmStep, hrun]

/-- A RUN step that is neither terminal nor stopped by the overflow test is one cycle (R74). -/
theorem step_of_executes {s : State} (hcfg : s.env.cfg.wf = true) (hlawful : s.lawful = true)
    (hexec : s.executes = true) : step s = cycleStep s := by
  obtain ⟨hrun, hterm, hover⟩ := s.executes_iff.1 hexec
  simp [step_of_run hcfg hlawful hrun, runStep, hterm, hover]

/-! ### A cycle (R74, R75, R76, R88, R90) -/

/-- The Issue phase attempts the instruction it fetches (R90). -/
theorem issuePhase_of_decode {s : State} {w : Word} {i : Instr} (hw : s.env.word? s.pc = some w)
    (hd : decode s.env.cfg w = .ok i) : issuePhase s = exec i s := by
  have hlt : s.pc < s.env.progLen := (List.getElem?_eq_some_iff.1 hw).1
  simp [issuePhase, hlt.ne, hw, hd]

theorem issuePhase_of_drain {s : State} (hpc : s.pc = s.env.progLen) :
    issuePhase s = .next { s with stall := false } := by
  simp [issuePhase, hpc]

theorem issuePhase_of_noWord {s : State} (hpc : s.pc ≠ s.env.progLen) (hw : s.env.word? s.pc = none) :
    issuePhase s = .fault .progIndexOutOfStore := by
  simp [issuePhase, hpc, hw]

theorem issuePhase_of_badWord {s : State} {w : Word} {d : DecodeError} (hw : s.env.word? s.pc = some w)
    (hd : decode s.env.cfg w = .err d) : issuePhase s = .refused .unvalidatedWord := by
  have hlt : s.pc < s.env.progLen := (List.getElem?_eq_some_iff.1 hw).1
  simp [issuePhase, hlt.ne, hw, hd]

/-- Settles O7: Writeback writes neither `pc` nor the program, so the Issue phase fetches the same word. -/
theorem stepRunsTheDecodedInstruction : Obligations.StepRunsTheDecodedInstruction := by
  intro s w i hcfg hlawful hexec hw hd
  have hissue : issuePhase s.afterWriteback = exec i s.afterWriteback :=
    issuePhase_of_decode (by simpa using hw) (by simpa using hd)
  rw [step_of_executes hcfg hlawful hexec, cycleStep, hissue]
  exact ⟨fun u hu => by rw [hu], fun r hr => by rw [hr], fun r hr => by rw [hr]⟩

/-- Settles O8: in the drain phase the Issue phase only clears `stall`. -/
theorem drainCycleIssuesNothing : Obligations.DrainCycleIssuesNothing := by
  intro s hcfg hlawful hexec hpc
  rw [step_of_executes hcfg hlawful hexec, cycleStep, issuePhase_of_drain (by simpa using hpc)]

/-- Settles O9: the terminal test comes first. -/
theorem terminalStepEndsTheRun : Obligations.TerminalStepEndsTheRun := by
  intro s hcfg hlawful hrun hpc hidle
  rw [step_of_run hcfg hlawful hrun, runStep, if_pos (s.terminal_iff.2 ⟨hpc, hidle⟩)]

/-- Settles O15: the overflow test comes next, before any phase. -/
theorem cycleOverflowIsRaised : Obligations.CycleOverflowIsRaised := by
  intro s hcfg hlawful hrun hterm hover
  have hoverflows : s.overflows = true := decide_eq_true hover
  rw [step_of_run hcfg hlawful hrun, runStep, if_neg (by simp [hterm]), if_pos hoverflows]
  rfl

/-! ### VALIDATE (R111) -/

theorem validateStep_of_tooLong {s : State} (hlen : s.env.cfg.progMax < s.env.progLen) :
    validateStep s = .next (s.raise .parseError s.env.cfg.progMax) := by
  simp [validateStep, hlen]

theorem validateStep_of_end {s : State} (hlen : s.env.progLen ≤ s.env.cfg.progMax)
    (hend : s.vidx = s.env.progLen) : validateStep s = .next { s with fsm := .run } := by
  simp [validateStep, hlen.not_gt, hend]

theorem validateStep_of_goodWord {s : State} {i : Instr} (hlen : s.env.progLen ≤ s.env.cfg.progMax)
    (hi : s.env.instrAt s.vidx = some i) : validateStep s = .next { s with vidx := s.vidx + 1 } := by
  obtain ⟨w, hw, hd⟩ := Env.instrAt_eq_some.1 hi
  simp [validateStep, hlen.not_gt, (Env.instrAt_lt hi).ne, hw, hd]

theorem validateStep_of_noWord {s : State} (hlen : s.env.progLen ≤ s.env.cfg.progMax)
    (hend : s.vidx ≠ s.env.progLen) (hw : s.env.word? s.vidx = none) :
    validateStep s = .fault .progIndexOutOfStore := by
  simp [validateStep, hlen.not_gt, hend, hw]

/-- Settles O12: the three tests of R111 in their order. -/
theorem validateStepChecksOneWord : Obligations.ValidateStepChecksOneWord := by
  intro s hcfg hlawful hvalidate
  rw [step_of_validate hcfg hlawful hvalidate]
  refine ⟨validateStep_of_tooLong, validateStep_of_end, fun w hlen hw => ⟨?_, ?_, ?_⟩⟩
  · exact validateStep_of_badWord hlen hw
  · exact validateStep_of_badWord hlen hw
  · exact fun i hd => validateStep_of_goodWord hlen (Env.instrAt_eq_some.2 ⟨w, hw, hd⟩)

/-! ### What stops an edge (R11, R112, R150) -/

/-- Settles O19: the step looks for the laws before it looks at `fsm`. -/
theorem brokenLawIsAFault : Obligations.BrokenLawIsAFault := by
  intro s hcfg hbroken
  have hfault : s.isFault = true := by simp [State.isFault, hbroken]
  exact ⟨by simp [step, sequencerStep, hcfg, hbroken], hfault, State.goodFinal_of_isFault hfault⟩

/-- Settles O54: both branches of the edge test the configuration first. -/
theorem illFormedConfigHasNoMove : Obligations.IllFormedConfigHasNoMove := by
  intro s rst hcfg
  cases rst with
  | true => simp [clockEdge, hcfg]
  | false => simp [clockEdge, sequencerStep, hcfg]

theorem issueArith_of_not_wf {o : ArithOp} {rd rs1 rs2 : RegIdx} {s : State}
    (h : (o.instr rd rs1 rs2).wf s.env.cfg = false) :
    issueArith o rd rs1 rs2 s = .fault .invalidOperand := by
  simp [issueArith, h]

/-- Settles O26: each of the three issues tests the operands first. -/
theorem operandOutOfRangeFaults : Obligations.OperandOutOfRangeFaults := by
  intro i s h
  cases i with
  | add rd rs1 rs2 => exact issueArith_of_not_wf (o := .add) h
  | sub rd rs1 rs2 => exact issueArith_of_not_wf (o := .sub) h
  | mul rd rs1 rs2 => exact issueArith_of_not_wf (o := .mul) h
  | div rd rs1 rs2 => exact issueArith_of_not_wf (o := .div) h
  | load rt off base => simp [exec, execLoad, issueLoad, h]
  | store rt off base => simp [exec, execStore, issueStore, h]

/-! ### What no edge writes (R20, R57) -/

/-- Settles O51: reset keeps the parameters by definition, and so does each case of a step. -/
theorem parametersNeverChange : Obligations.ParametersNeverChange := by
  intro rst s t hedge
  cases rst with
  | true =>
    simp only [clockEdge, if_true] at hedge
    split at hedge
    · cases hedge; rfl
    · cases hedge
  | false =>
    rw [clockEdge_noReset] at hedge
    obtain ⟨-, -, hcase⟩ := step_cases hedge
    exact hcase.env

/-! ### The dataflow law (R137, R138, R139, R155) -/

/-- Settles O42: the case of the step keeps the law, as the proof of R155 needs it. -/
theorem everyStepKeepsTheDataflow : Obligations.EveryStepKeepsTheDataflow := by
  intro s t hinv hflow hstep
  obtain ⟨-, -, hcase⟩ := step_cases hstep
  exact hcase.dataflow hinv.lawful hflow

end Sys2Proof.Machine
end

section
/-! PROOFS. Decoder and encoder undo each other (30_encoding.md R59–R70), and six bits tell a tag
(10_state.md R22). -/

namespace Sys2Proof

open Claims

/-! ### The word of an instruction as a number (R60, R61) -/

/-- An R-format word as a number, each field at the weight of its lowest bit. -/
theorem encodeR_toNat (o : ArithOp) (rd rs1 rs2 : RegIdx) :
    (encodeR o rd rs1 rs2).toNat =
      o.code.toNat * 2 ^ 29 + rd.toNat * 2 ^ 24 + rs1.toNat * 2 ^ 19 + rs2.toNat * 2 ^ 14 := by
  have hrd := rd.isLt
  have hrs1 := rs1.isLt
  have hrs2 := rs2.isLt
  simp only [encodeR, BitVec.toNat_append, BitVec.toNat_ofNat]
  rw [← Nat.shiftLeft_add_eq_or_of_lt hrd, ← Nat.shiftLeft_add_eq_or_of_lt hrs1,
    ← Nat.shiftLeft_add_eq_or_of_lt hrs2, ← Nat.shiftLeft_add_eq_or_of_lt (by decide)]
  simp only [Nat.shiftLeft_eq]
  omega

/-- An M-format word as a number; `bz` and `rb` together are the base's code. -/
theorem encodeM_toNat (o : Op) (rt : RegIdx) (off : Offset) (base : Base) :
    (encodeM o rt off base).toNat =
      o.code.toNat * 2 ^ 29 + rt.toNat * 2 ^ 24 + base.code.toNat * 2 ^ 18 + off.toNat := by
  have hrt := rt.isLt
  have hbase := base.code.isLt
  have hoff := off.isLt
  simp only [encodeM, BitVec.toNat_append, BitVec.toNat_ofNat]
  rw [← Nat.shiftLeft_add_eq_or_of_lt hrt, ← Nat.shiftLeft_add_eq_or_of_lt hbase,
    ← Nat.shiftLeft_add_eq_or_of_lt (i := 2) (by decide), ← Nat.shiftLeft_add_eq_or_of_lt hoff]
  simp only [Nat.shiftLeft_eq]
  omega

/-- The literal zero sets `bz` alone (R64). -/
theorem Base.code_zero_toNat : Base.zero.code.toNat = 2 ^ 5 := rfl

/-- A base register sets `rb` alone (R64). -/
theorem Base.code_reg_toNat (j : RegIdx) : (Base.reg j).code.toNat = j.toNat := by
  have hj := j.isLt
  rw [Base.code, BitVec.toNat_append, ← Nat.shiftLeft_add_eq_or_of_lt hj]
  simp

/-! ### Decoding an encoded word -/

theorem decodeR_encodeR {c : Config} {rd rs1 rs2 : RegIdx} (o o' : ArithOp)
    (hrd : regInRange c rd = true) (hrs1 : regInRange c rs1 = true) (hrs2 : regInRange c rs2 = true) :
    decodeR c o (encodeR o' rd rs1 rs2) = .ok (o.instr rd rs1 rs2) := by
  have hrdlt := rd.isLt
  have hrs1lt := rs1.isLt
  have hrs2lt := rs2.isLt
  have hzero : fieldZR (encodeR o' rd rs1 rs2) = 0 := by
    rw [fieldZR_eq_zero_iff, bits, encodeR_toNat]; omega
  have h1 : fieldRd (encodeR o' rd rs1 rs2) = rd := by
    apply BitVec.eq_of_toNat_eq; rw [fieldRd_toNat, bits, encodeR_toNat]; omega
  have h2 : fieldRs1 (encodeR o' rd rs1 rs2) = rs1 := by
    apply BitVec.eq_of_toNat_eq; rw [fieldRs1_toNat, bits, encodeR_toNat]; omega
  have h3 : fieldRs2 (encodeR o' rd rs1 rs2) = rs2 := by
    apply BitVec.eq_of_toNat_eq; rw [fieldRs2_toNat, bits, encodeR_toNat]; omega
  simp only [regInRange, decide_eq_true_eq] at hrd hrs1 hrs2
  simp [decodeR, hzero, h1, h2, h3, hrd.not_ge, hrs1.not_ge, hrs2.not_ge]

theorem decodeM_encodeM {c : Config} {rt : RegIdx} {base : Base} (mk : RegIdx → Offset → Base → Instr)
    (o : Op) (off : Offset) (hrt : regInRange c rt = true) (hbase : base.wf c = true) :
    decodeM c mk (encodeM o rt off base) = .ok (mk rt off base) := by
  have hrtlt := rt.isLt
  have hofflt := off.isLt
  have hcode := base.code.isLt
  have hzero : fieldZM (encodeM o rt off base) = 0 := by
    rw [fieldZM_eq_zero_iff, bits, encodeM_toNat]; omega
  have h1 : fieldRd (encodeM o rt off base) = rt := by
    apply BitVec.eq_of_toNat_eq; rw [fieldRd_toNat, bits, encodeM_toNat]; omega
  have h2 : fieldOff (encodeM o rt off base) = off := by
    apply BitVec.eq_of_toNat_eq
    rw [fieldOff, toNat_extractLsb'_eq_bits _ 0 15, bits, encodeM_toNat]; omega
  simp only [regInRange, decide_eq_true_eq] at hrt
  cases base with
  | zero =>
    have hbz : fieldBz (encodeM o rt off .zero) = 1 := by
      rw [fieldBz_eq_one_iff, bits, encodeM_toNat, Base.code_zero_toNat]; omega
    have hrb : fieldRb (encodeM o rt off .zero) = 0 := by
      rw [fieldRb_eq_zero_iff, bits, encodeM_toNat, Base.code_zero_toNat]; omega
    simp [decodeM, hzero, h1, h2, hbz, hrb, hrt.not_ge]
  | reg j =>
    have hjlt := j.isLt
    have hbz : fieldBz (encodeM o rt off (.reg j)) = 0 := by
      rw [fieldBz_eq_zero_iff, bits, encodeM_toNat, Base.code_reg_toNat]; omega
    have hrb : fieldRb (encodeM o rt off (.reg j)) = j := by
      apply BitVec.eq_of_toNat_eq
      rw [fieldRb_toNat, bits, encodeM_toNat, Base.code_reg_toNat]; omega
    simp only [Base.wf, decide_eq_true_eq] at hbase
    simp [decodeM, hzero, h1, h2, hbz, hrb, hrt.not_ge, hbase.not_ge]

theorem fieldOp_encodeR (o : ArithOp) (rd rs1 rs2 : RegIdx) :
    (fieldOp (encodeR o rd rs1 rs2)).toNat = o.code.toNat := by
  have hrd := rd.isLt
  have hrs1 := rs1.isLt
  have hrs2 := rs2.isLt
  have ho := o.code.isLt
  rw [fieldOp_toNat, bits, encodeR_toNat]
  omega

theorem fieldOp_encodeM (o : Op) (rt : RegIdx) (off : Offset) (base : Base) :
    (fieldOp (encodeM o rt off base)).toNat = o.code.toNat := by
  have hrt := rt.isLt
  have hbase := base.code.isLt
  have hoff := off.isLt
  have ho := o.code.isLt
  rw [fieldOp_toNat, bits, encodeM_toNat]
  omega

/-- Settles O1: `op` selects the half of the decoder, which reads back each field. -/
theorem decodeOfEncode : Obligations.DecodeOfEncode := by
  have hR : ∀ (c : Config) (o : ArithOp) (rd rs1 rs2 : RegIdx), (o.instr rd rs1 rs2).wf c = true →
      decode c (encodeR o rd rs1 rs2) = .ok (o.instr rd rs1 rs2) := by
    intro c o rd rs1 rs2 hwf
    have hsel : decode c (encodeR o rd rs1 rs2) = decodeR c o (encodeR o rd rs1 rs2) := by
      rw [decode, fieldOp_encodeR]; cases o <;> rfl
    obtain ⟨⟨hrd, hrs1⟩, hrs2⟩ :
        (regInRange c rd = true ∧ regInRange c rs1 = true) ∧ regInRange c rs2 = true := by
      cases o <;> simpa [ArithOp.instr, Instr.wf] using hwf
    rw [hsel, decodeR_encodeR o o hrd hrs1 hrs2]
  intro c i hwf
  cases i with
  | add rd rs1 rs2 => exact hR c .add rd rs1 rs2 hwf
  | sub rd rs1 rs2 => exact hR c .sub rd rs1 rs2 hwf
  | mul rd rs1 rs2 => exact hR c .mul rd rs1 rs2 hwf
  | div rd rs1 rs2 => exact hR c .div rd rs1 rs2 hwf
  | load rt off base =>
    obtain ⟨hrt, hbase⟩ : regInRange c rt = true ∧ base.wf c = true := by simpa [Instr.wf] using hwf
    rw [encode, decode, fieldOp_encodeM]
    exact decodeM_encodeM .load .load off hrt hbase
  | store rt off base =>
    obtain ⟨hrt, hbase⟩ : regInRange c rt = true ∧ base.wf c = true := by simpa [Instr.wf] using hwf
    rw [encode, decode, fieldOp_encodeM]
    exact decodeM_encodeM .store .store off hrt hbase

/-! ### Encoding a decoded word -/

theorem encodeR_of_decodeR {c : Config} {o : ArithOp} {w : Word} {i : Instr}
    (hop : (fieldOp w).toNat = o.code.toNat) (h : decodeR c o w = .ok i) : encode i = w := by
  have henc : encode (o.instr (fieldRd w) (fieldRs1 w) (fieldRs2 w)) =
      encodeR o (fieldRd w) (fieldRs1 w) (fieldRs2 w) := by cases o <;> rfl
  unfold decodeR at h
  split_ifs at h with hzero
  rw [not_not, fieldZR_eq_zero_iff] at hzero
  obtain rfl := DecodeResult.ok.inj h
  apply BitVec.eq_of_toNat_eq
  rw [henc, encodeR_toNat, ← hop, fieldOp_toNat, fieldRd_toNat, fieldRs1_toNat, fieldRs2_toNat]
  have hw := w.isLt
  unfold bits at hzero ⊢
  omega

theorem encodeM_of_decodeM {c : Config} {o : Op} {mk : RegIdx → Offset → Base → Instr} {w : Word} {i : Instr}
    (hop : (fieldOp w).toNat = o.code.toNat)
    (hmk : ∀ rt off base, encode (mk rt off base) = encodeM o rt off base)
    (h : decodeM c mk w = .ok i) : encode i = w := by
  have hbase : (fieldBz w = 1 → fieldRb w = 0) →
      (if fieldBz w = 1 then Base.zero else .reg (fieldRb w)).code.toNat = bits w 23 18 := by
    intro hrb
    split_ifs with hbz
    · have hrb := hrb hbz
      rw [fieldBz_eq_one_iff] at hbz
      rw [fieldRb_eq_zero_iff] at hrb
      rw [Base.code_zero_toNat]
      unfold bits at *
      omega
    · rw [fieldBz_eq_one_iff] at hbz
      rw [Base.code_reg_toNat, fieldRb_toNat]
      unfold bits at *
      omega
  unfold decodeM at h
  split at h
  · cases h
  split at h
  · cases h
  split at h
  · cases h
  split at h
  · cases h
  rename_i hzero hrb _ _
  rw [not_not, fieldZM_eq_zero_iff] at hzero
  obtain rfl := DecodeResult.ok.inj h
  apply BitVec.eq_of_toNat_eq
  rw [hmk, encodeM_toNat, hbase (by simpa using hrb), ← hop, fieldOp_toNat, fieldRd_toNat, fieldOff,
    toNat_extractLsb'_eq_bits w 0 15]
  have hw := w.isLt
  unfold bits at hzero ⊢
  omega

/-- Settles O2: the half of the decoder that `op` selects reads every bit of an accepted word. -/
theorem encodeOfDecode : Obligations.EncodeOfDecode := by
  intro c w i h
  unfold decode at h
  split at h
  · exact encodeR_of_decodeR (o := .add) ‹_› h
  · exact encodeR_of_decodeR (o := .sub) ‹_› h
  · exact encodeR_of_decodeR (o := .mul) ‹_› h
  · exact encodeR_of_decodeR (o := .div) ‹_› h
  · exact encodeM_of_decodeM (o := .load) ‹_› (fun _ _ _ => rfl) h
  · exact encodeM_of_decodeM (o := .store) ‹_› (fun _ _ _ => rfl) h
  · cases h

/-! ### Tags (R21, R22) -/

/-- A well-formed configuration has between 1 and 16 slots in a pool (R9). -/
theorem Config.cap_range {c : Config} (h : c.wf = true) (p : Pool) : 1 ≤ c.cap p ∧ c.cap p ≤ 16 := by
  obtain ⟨hpools, -⟩ := c.wf_iff_ranges.1 h
  exact hpools (c.cap p) (by cases p <;> simp [Config.cap])

end Sys2Proof

namespace Sys2Proof.Machine

theorem poolCode_toNat_injective {p p' : Pool} (h : (poolCode p).toNat = (poolCode p').toNat) : p = p' := by
  revert h
  cases p <;> cases p' <;> decide

theorem Tag.code_toNat {t : Tag} (h : t.idx < 16) : t.code.toNat = (poolCode t.pool).toNat * 16 + t.idx := by
  rw [Tag.code, BitVec.toNat_append, BitVec.toNat_ofNat, ← Nat.shiftLeft_add_eq_or_of_lt (by omega),
    Nat.shiftLeft_eq, Nat.mod_eq_of_lt h]

/-- Settles O6: the index is below 16, so the code is the pool's code times 16 and the index. -/
theorem tagCodesAreDistinct : Obligations.TagCodesAreDistinct := by
  intro c t t' hcfg ht ht' hcode
  have hidx : t.idx < 16 := ht.trans_le (Config.cap_range hcfg _).2
  have hidx' : t'.idx < 16 := ht'.trans_le (Config.cap_range hcfg _).2
  have hnum := congrArg BitVec.toNat hcode
  rw [Tag.code_toNat hidx, Tag.code_toNat hidx'] at hnum
  have hpool : t.pool = t'.pool := poolCode_toNat_injective (by omega)
  have hi : t.idx = t'.idx := by rw [hpool] at hnum; omega
  cases t; cases t'
  exact congrArg₂ Tag.mk hpool hi

end Sys2Proof.Machine
end

section
/-! PROOFS. What an attempt of an instruction does and leaves unchanged (40_sequencer.md R88–R99,
41_arithmetic.md, 42_memory_ops.md). -/

namespace Sys2Proof.Machine

open Claims

/-! ### A successful issue, for all six at once -/

/-- What `exec` answers where the pool of `i` has the free slot `n`: the slot filled and launched, the
destination waiting on it, both stamps of `pc`, `pc` advanced and `stall` cleared (R88, R93–R99). -/
structure State.Issued (s u : State) (i : Instr) (n : Nat) (filled : Slot) : Prop where
  slot : u.slot? ⟨i.op.pool, n⟩ = some (filled.launch s.env.cfg i.op.pool)
  rf : u.rf = match i.dest with
    | some d => s.rf.set d.toNat (.pending ⟨i.op.pool, n⟩)
    | none => s.rf
  stamps : u.trace[s.pc]? = (s.trace[s.pc]?).map fun st =>
    { issue := some s.cycle
      wb := if filled.ready i.op.pool then some (s.cycle + s.env.cfg.lat i.op + 1) else st.wb }
  pc : u.pc = s.pc + 1
  stall : u.stall = false

theorem State.issued {s : State} {i : Instr} {n : Nat} (hfree : s.findFree i.op.pool = some n)
    (oj ok : Opnd) : s.Issued (s.issue i.op (Slot.ofInstr i oj ok s.pc) i.dest) i n (Slot.ofInstr i oj ok s.pc) := by
  obtain ⟨hpc, hstall⟩ := State.issue_pc_stall hfree (Slot.ofInstr i oj ok s.pc) i.dest
  refine ⟨?_, State.issue_rf hfree _ _, ?_, hpc, hstall⟩
  · rw [State.issue_slot? hfree, if_pos rfl]
  · rw [State.issue_trace hfree _ rfl, if_pos rfl]
    rfl

/-- An instruction in range issues where its pool has a free slot. -/
theorem exec_issued {s : State} {i : Instr} {n : Nat} (hshape : s.shapeOk = true) (hwf : i.wf s.env.cfg = true)
    (hfree : s.findFree i.op.pool = some n) :
    ∃ oj ok u, s.Captured i.srcJ oj ∧ s.Captured i.srcK ok ∧ exec i s = .next u ∧
      s.Issued u i n (Slot.ofInstr i oj ok s.pc) := by
  obtain ⟨oj, ok, hj, hk, hexec⟩ := exec_of_wf hshape hwf
  exact ⟨oj, ok, _, hj, hk, hexec, State.issued hfree oj ok⟩

/-- A register in range stands in the file (R19, R67). -/
theorem State.lt_rf_length {s : State} (hshape : s.shapeOk = true) {r : RegIdx}
    (hr : regInRange s.env.cfg r = true) : r.toNat < s.rf.length := by
  obtain ⟨hlen, -⟩ := s.shapeOk_iff.1 hshape
  simpa [hlen, regInRange] using hr

/-- The renamed destination, where the file has it (R94). -/
theorem State.Issued.reg?_dest {s u : State} {i : Instr} {n : Nat} {w : Slot} (h : s.Issued u i n w)
    {d : RegIdx} (hd : i.dest = some d) (hlt : d.toNat < s.rf.length) :
    u.reg? d.toNat = some (.pending ⟨i.op.pool, n⟩) := by
  have hrf := h.rf
  rw [hd] at hrf
  rw [State.reg?, hrf]
  exact List.getElem?_set_self hlt

theorem State.Captured.eq_capture {s : State} {r : RegIdx} {o : Opnd} {x : RegStatus}
    (h : s.Captured (some r) o) (hx : s.reg? r.toNat = some x) : o = x.capture := by
  obtain ⟨y, hy, rfl⟩ := h
  rw [Option.some.inj (hx.symm.trans hy)]

theorem RegStatus.isRdy_capture (x : RegStatus) : x.capture.isRdy = resolved x := by
  cases x <;> rfl

/-- The slot of an instruction as the Issue phase leaves it (R97). -/
theorem Slot.launch_ofInstr (cfg : Config) (i : Instr) (oj ok : Opnd) (pc : Nat) :
    (Slot.ofInstr i oj ok pc).launch cfg i.op.pool =
      { Slot.ofInstr i oj ok pc with
        cnt := if (Slot.ofInstr i oj ok pc).ready i.op.pool then .k (cfg.lat i.op) else .inf
        fresh := (Slot.ofInstr i oj ok pc).ready i.op.pool } := by
  unfold Slot.launch
  cases hr : (Slot.ofInstr i oj ok pc).ready i.op.pool with
  | true => rfl
  | false => rfl

/-! ### ADD, SUB, MUL and DIV (R102–R106) -/

theorem Slot.ofInstr_arith (o : ArithOp) (rd rs1 rs2 : RegIdx) (oj ok : Opnd) (pc : Nat) :
    Slot.ofInstr (o.instr rd rs1 rs2) oj ok pc = Slot.ofArith o oj ok pc := by
  cases o <;> rfl

theorem Slot.ready_ofArith (o : ArithOp) (oj ok : Opnd) (pc : Nat) :
    (Slot.ofArith o oj ok pc).ready (Op.arith o).pool = (oj.isRdy && ok.isRdy) := by
  cases o <;> rfl

/-- The issue of each of the four; the operator gives the pool and the latency. -/
theorem arithIssue (o : ArithOp) (rd rs1 rs2 : RegIdx) :
    ArithIssue (o.instr rd rs1 rs2) o (Op.arith o).pool (fun c => c.lat (.arith o)) rd rs1 rs2 := by
  intro s n x y old hshape hold hwf hx hy hfree
  obtain ⟨hop, hdest, hsrcJ, hsrcK⟩ :
      (o.instr rd rs1 rs2).op = .arith o ∧ (o.instr rd rs1 rs2).dest = some rd ∧
      (o.instr rd rs1 rs2).srcJ = some rs1 ∧ (o.instr rd rs1 rs2).srcK = some rs2 := by
    cases o <;> exact ⟨rfl, rfl, rfl, rfl⟩
  have hrd : regInRange s.env.cfg rd = true := by
    cases o <;> simp only [ArithOp.instr, Instr.wf, Bool.and_eq_true] at hwf <;> exact hwf.1.1
  obtain ⟨oj, ok, u, hj, hk, hexec, hissued⟩ := exec_issued hshape hwf (by rwa [hop])
  obtain rfl := (hsrcJ ▸ hj).eq_capture hx
  obtain rfl := (hsrcK ▸ hk).eq_capture hy
  have hready := Slot.ready_ofArith o x.capture y.capture s.pc
  rw [x.isRdy_capture, y.isRdy_capture] at hready
  have hslot := hissued.slot
  have hstamps := hissued.stamps
  have hreg := hissued.reg?_dest hdest (State.lt_rf_length hshape hrd)
  rw [Slot.launch_ofInstr, hop, Slot.ofInstr_arith, hready] at hslot
  rw [hop, Slot.ofInstr_arith, hready, hold] at hstamps
  rw [hop] at hreg
  exact ⟨u, hexec, hslot, hreg, hstamps, hissued.pc, hissued.stall⟩

/-- Settles O20: the four operators, each with its pool and its latency. -/
theorem arithmeticInstructionsIssue : Obligations.ArithmeticInstructionsIssue := fun rd rs1 rs2 =>
  ⟨arithIssue .add rd rs1 rs2, arithIssue .sub rd rs1 rs2, arithIssue .mul rd rs1 rs2,
    arithIssue .div rd rs1 rs2⟩

/-! ### LOAD and STORE (R108, R109) -/

/-- Settles O21: a load slot is ready when filled. -/
theorem loadIssues : Obligations.LoadIssues := by
  intro rt off base s n old hshape hold hwf hfree
  have hrt : regInRange s.env.cfg rt = true := by
    simp only [Instr.wf, Bool.and_eq_true] at hwf
    exact hwf.1
  obtain ⟨oj, ok, u, rfl, rfl, hexec, hissued⟩ := exec_issued hshape hwf hfree
  refine ⟨_, hexec, hissued.slot, hissued.reg?_dest rfl (State.lt_rf_length hshape hrt), ?_, hissued.pc, hissued.stall⟩
  rw [hissued.stamps, hold]
  rfl

/-- Settles O22: a store slot is ready when its value operand is, and a STORE has no destination. -/
theorem storeIssues : Obligations.StoreIssues := by
  intro rt off base s n x old hshape hold hwf hx hfree
  obtain ⟨oj, ok, u, hj, rfl, hexec, hissued⟩ := exec_issued hshape hwf hfree
  obtain rfl := hj.eq_capture hx
  have hready : (Slot.ofInstr (.store rt off base) x.capture .empty s.pc).ready .store = resolved x :=
    x.isRdy_capture
  refine ⟨_, hexec, ?_, hissued.rf, ?_, hissued.pc, hissued.stall⟩
  · rw [← hready]
    exact hissued.slot.trans (congrArg some (Slot.launch_ofInstr _ _ _ _ _))
  · rw [hissued.stamps, hold, ← hready]
    rfl

/-! ### The frame (R27, R88, R92) -/

/-- The frame of an attempt: a full pool writes only `stall`, an issue the slot found, the entry of `pc`
and the destination. -/
theorem attemptFrame_of_exec {i : Instr} {s u : State} (h : exec i s = .next u) :
    AttemptFrame s u i.op.pool (i.dest.map BitVec.toNat) := by
  obtain ⟨-, oj, ok, -, -, rfl⟩ := exec_next h
  obtain ⟨henv, hfsm, hvidx, hcycle, herr, hidx⟩ := s.issue_keeps i.op (Slot.ofInstr i oj ok s.pc) i.dest
  refine ⟨henv, hfsm, hvidx, hcycle, herr, hidx, ?_⟩
  cases hfree : s.findFree i.op.pool with
  | none =>
    rw [State.issue_of_full hfree]
    exact ⟨fun _ _ => rfl, fun _ _ => rfl, fun _ _ => rfl⟩
  | some n =>
    refine ⟨fun t ht => ?_, fun a ha => ?_, fun r hr => ?_⟩
    · rw [State.issue_slot? hfree, if_neg (ht n rfl)]
    · rw [State.issue_trace hfree _ rfl, if_neg ha]
    · rw [State.reg?, State.reg?, State.issue_rf hfree]
      cases hd : i.dest with
      | none => rfl
      | some d =>
        have hne : d.toNat ≠ r := fun he => hr (by rw [hd, Option.map_some, he])
        exact List.getElem?_set_ne hne

/-- Settles O23: the frame of an attempt with each instruction's pool and destination. -/
theorem renamingInstructionsFrame : Obligations.RenamingInstructionsFrame := fun _ _ =>
  ⟨fun _ _ _ => ⟨attemptFrame_of_exec, attemptFrame_of_exec, attemptFrame_of_exec, attemptFrame_of_exec⟩,
    fun _ _ _ => attemptFrame_of_exec⟩

/-- Settles O24: a STORE has no destination. -/
theorem storeFrame : Obligations.StoreFrame := fun _ _ _ _ _ => attemptFrame_of_exec

end Sys2Proof.Machine
end

section
/-! PROOFS. What a Writeback phase makes of every slot and register (40_sequencer.md R80–R87, R101), and the
two ways a pending register is replaced (70_reset_and_hazards.md R148). -/

namespace Sys2Proof.Machine

/-! ### A slot that is not complete -/

/-- `w'` is the slot `w` of pool `p`, not complete, further on in a Writeback phase: it may have received
broadcasts, so its operands that waited may be resolved and its countdown loaded (R84). -/
structure Slot.ServesOn (p : Pool) (w w' : Slot) : Prop where
  busy : w'.busy = w.busy
  op : w'.op = w.op
  addr : w'.addr = w.addr
  instr : w'.instr = w.instr
  rdyJ : ∀ v, w.j = .rdy v → w'.j = .rdy v
  rdyK : ∀ v, w.k = .rdy v → w'.k = .rdy v
  ready : w.ready p = true → w' = w
  notComplete : w'.complete p = false

theorem Slot.ServesOn.refl {p : Pool} {w : Slot} (h : w.complete p = false) : w.ServesOn p w :=
  ⟨rfl, rfl, rfl, rfl, fun _ => id, fun _ => id, fun _ => rfl, h⟩

theorem Slot.ServesOn.trans {p : Pool} {w w' w'' : Slot} (h : w.ServesOn p w') (h' : w'.ServesOn p w'') :
    w.ServesOn p w'' where
  busy := h'.busy.trans h.busy
  op := h'.op.trans h.op
  addr := h'.addr.trans h.addr
  instr := h'.instr.trans h.instr
  rdyJ v hv := h'.rdyJ v (h.rdyJ v hv)
  rdyK v hv := h'.rdyK v (h.rdyK v hv)
  ready hr := by
    obtain rfl := h.ready hr
    exact h'.ready hr
  notComplete := h'.notComplete

/-- A slot that is not complete serves on while a complete one is handled. -/
theorem State.Mid.handle_servesOn {s : State} (h : s.Mid) {t q : Tag} {w : Slot} (ht : t ∈ s.completeTags)
    (hw : s.slot? q = some w) (hc : w.complete q.pool = false) :
    ∃ w', (s.handle t).slot? q = some w' ∧ w.ServesOn q.pool w' := by
  obtain ⟨u, hu, hcu⟩ := (s.mem_completeTags t).1 ht
  have hne : q ≠ t := by
    rintro rfl
    obtain rfl := Option.some.inj (hu.symm.trans hw)
    simp [hc] at hcu
  have hretire := h.handle_eq_retire hu ((Slot.complete_iff _ _).1 hcu).1
  have hw' : (s.handle t).slot? q = some (w.receive s.env.cfg q.pool t (u.broadcastValue t.pool)) := by
    rw [hretire, State.retire_slot?, hw, Option.map_some, if_neg hne]
  refine ⟨_, hw', by simp, by simp, by simp, by simp, fun v hv => by simp [hv], fun v hv => by simp [hv],
    fun hr => ?_, Bool.eq_false_iff.2 fun hcw => ?_⟩
  · exact Option.some.inj (hw'.symm.trans (h.handle_slot?_of_ready hu hne hw hr))
  · simp [h.complete_of_complete_receive hw hcw] at hc

/-- A slot that is not complete serves on through the Writeback phase. -/
theorem State.Mid.writebackPhase_servesOn {s : State} (h : s.Mid) {q : Tag} {w : Slot}
    (hw : s.slot? q = some w) (hc : w.complete q.pool = false) :
    ∃ w', s.writebackPhase.slot? q = some w' ∧ w.ServesOn q.pool w' := by
  refine (State.writebackPhase_induct (P := fun s' => ∃ w', s'.slot? q = some w' ∧ w.ServesOn q.pool w') h
    ⟨w, hw, .refl hc⟩ fun s' t u hm ⟨w', hw', hserves⟩ hu hcu => ?_).1
  obtain ⟨w'', hw'', hserves'⟩ :=
    hm.handle_servesOn ((s'.mem_completeTags t).2 ⟨u, hu, hcu⟩) hw' hserves.notComplete
  exact ⟨w'', hw'', hserves.trans hserves'⟩

/-! ### Registers (R83) -/

/-- A register that holds a value is not written. -/
theorem State.Mid.writebackPhase_reg?_of_value {s : State} (h : s.Mid) {r : Nat} {v : Val}
    (hr : s.reg? r = some (.value v)) : s.writebackPhase.reg? r = some (.value v) := by
  refine (State.writebackPhase_induct (P := fun s' => s'.reg? r = some (.value v)) h hr
    fun s' t u hm hr' hu hcu => ?_).1
  rw [hm.handle_eq_retire hu ((Slot.complete_iff _ _).1 hcu).1, State.retire_reg?, hr']
  rfl

/-- A register that waits on a slot that is not complete waits on. -/
theorem State.Mid.writebackPhase_reg?_of_pending {s : State} (h : s.Mid) {r : Nat} {g : Tag} {w : Slot}
    (hr : s.reg? r = some (.pending g)) (hw : s.slot? g = some w) (hc : w.complete g.pool = false) :
    s.writebackPhase.reg? r = some (.pending g) := by
  refine (State.writebackPhase_induct (P := fun s' => s'.reg? r = some (.pending g) ∧
    ∃ w', s'.slot? g = some w' ∧ w'.complete g.pool = false) h ⟨hr, w, hw, hc⟩
    fun s' t u hm ⟨hr', w', hw', hc'⟩ hu hcu => ?_).1.1
  have hne : g ≠ t := by
    rintro rfl
    obtain rfl := Option.some.inj (hu.symm.trans hw')
    simp [hc'] at hcu
  obtain ⟨w'', hw'', hserves⟩ := hm.handle_servesOn ((s'.mem_completeTags t).2 ⟨u, hu, hcu⟩) hw' hc'
  refine ⟨?_, w'', hw'', hserves.notComplete⟩
  rw [hm.handle_eq_retire hu ((Slot.complete_iff _ _).1 hcu).1, State.retire_reg?, hr', Option.map_some,
    if_neg (by simpa using hne)]

/-- Settles O33: a slot that is not complete serves on, and a value is not written. -/
theorem otherSlotsKeepServing : Obligations.OtherSlotsKeepServing := by
  intro s hlawful
  have hm := State.mid_of_lawful hlawful
  refine ⟨fun t u hu hc => ?_, fun r v => hm.writebackPhase_reg?_of_value⟩
  obtain ⟨u', hu', hserves⟩ := hm.writebackPhase_servesOn hu hc
  exact ⟨u', hu', hserves.busy, hserves.op, hserves.addr, hserves.instr, hserves.rdyJ, hserves.rdyK,
    hserves.ready⟩

/-! ### A complete slot: it may be handled first (R156) -/

/-- The Writeback phase may begin with any of its slots. -/
theorem State.Mid.writebackPhase_eq_of_complete {s : State} (h : s.Mid) {t : Tag} (ht : t ∈ s.completeTags) :
    s.writebackPhase = (s.handle t).writebackPhase := by
  have hself : t ∉ (s.handle t).completeTags := fun hmem =>
    ((h.mem_completeTags_handle ht t).1 hmem).2 rfl
  have hperm : s.completeTags.Perm (t :: (s.handle t).completeTags) := by
    refine (List.perm_ext_iff_of_nodup s.completeTags_nodup
      (List.nodup_cons.2 ⟨hself, State.completeTags_nodup _⟩)).2 fun q => ?_
    rw [List.mem_cons, h.mem_completeTags_handle ht]
    by_cases hq : q = t
    · simp [hq, ht]
    · simp [hq]
  exact foldl_handle_perm hperm h s.completeTags_nodup fun _ => id

/-- What a Writeback phase makes of a complete slot `t` with contents `u` and of everything that waits on
it. -/
theorem State.Mid.writebackPhase_of_complete {s : State} (h : s.Mid) {t : Tag} {u : Slot}
    (hu : s.slot? t = some u) (hc : u.complete t.pool = true) :
    s.writebackPhase.slot? t = some Slot.free ∧
    (∀ r v, u.result t.pool = some v → s.reg? r = some (.pending t) →
      s.writebackPhase.reg? r = some (.value v)) ∧
    (∀ q w v, u.result t.pool = some v → s.slot? q = some w → w.complete q.pool = false →
      ∃ w', s.writebackPhase.slot? q = some w' ∧
        (w.j = .wait t → w'.j = .rdy v) ∧ (w.k = .wait t → w'.k = .rdy v)) := by
  have ht := (s.mem_completeTags t).2 ⟨u, hu, hc⟩
  have hm : (s.handle t).Mid := h.handle hu ((Slot.complete_iff _ _).1 hc).1
  rw [h.writebackPhase_eq_of_complete ht]
  refine ⟨?_, fun r v hv hr => ?_, fun q w v hv hw hcw => ?_⟩
  · obtain ⟨w', hw', hserves⟩ :=
      hm.writebackPhase_servesOn (State.handle_slot?_self hu) (Slot.complete_free _)
    rw [hw', hm.writebackPhase.idle t w' hw' hserves.busy]
  · refine hm.writebackPhase_reg?_of_value ?_
    rw [State.handle_reg?_of_result hu hv, hr, Option.map_some, if_pos rfl]
  · obtain ⟨w', hw', hserves⟩ := h.handle_servesOn ht hw hcw
    obtain ⟨w'', hw'', hserves'⟩ := hm.writebackPhase_servesOn hw' hserves.notComplete
    have hne : q ≠ t := by
      rintro rfl
      obtain rfl := Option.some.inj (hu.symm.trans hw)
      simp [hcw] at hc
    rw [State.handle_slot?_of_result hu hv, if_neg hne, hw, Option.map_some, Option.some.injEq] at hw'
    subst hw'
    exact ⟨w'', hw'', fun hj => hserves'.rdyJ v (by simp [hj]), fun hk => hserves'.rdyK v (by simp [hk])⟩

/-- No operand waits on a slot that is free (R150). -/
theorem State.Mid.not_wait_of_free {s : State} (h : s.Mid) {t q : Tag} {w : Slot}
    (ht : s.slot? t = some Slot.free) (hw : s.slot? q = some w) : w.j ≠ .wait t ∧ w.k ≠ .wait t := by
  cases hb : w.busy with
  | false =>
    rw [h.idle q w hw hb]
    exact ⟨by simp [Slot.free], by simp [Slot.free]⟩
  | true =>
    have hplaced : ∀ o, s.operandOk w.instr o = true → o ≠ .wait t := by
      rintro o ho rfl
      obtain ⟨-, u, -, -, hu, hbusy, -⟩ := (s.operandOk_wait _ _).1 ho
      obtain rfl := Option.some.inj (ht.symm.trans hu)
      cases hbusy
    exact ⟨hplaced _ (h.busy q w hw hb).opJ, hplaced _ (h.busy q w hw hb).opK⟩

/-- Settles O32: the slot is handled first; what it frees and resolves stays so. -/
theorem completeSlotsAreWrittenBack : Obligations.CompleteSlotsAreWrittenBack := by
  intro s t u hlawful hu hc
  have hm := State.mid_of_lawful hlawful
  obtain ⟨hfree, hregs, hslots⟩ := hm.writebackPhase_of_complete hu hc
  exact ⟨hfree, fun v r => hregs r v, fun v q w => hslots q w v,
    fun q w hw => hm.writebackPhase.not_wait_of_free hfree hw⟩

/-! ### A whole cycle (R74, R101) -/

theorem State.mid_counted {s : State} (h : s.lawful = true) : ({ s with cycle := s.cycle + 1 } : State).Mid :=
  (State.mid_of_lawful h).congr rfl rfl rfl rfl rfl

/-- A ready slot that is not complete passes Writeback as it is. -/
theorem State.afterWriteback_slot?_of_ready {s : State} (h : s.lawful = true) {t : Tag} {u : Slot}
    (hu : s.slot? t = some u) (hr : u.ready t.pool = true) (hc : u.complete t.pool = false) :
    s.afterWriteback.slot? t = some u := by
  obtain ⟨u', hu', hserves⟩ := (State.mid_counted h).writebackPhase_servesOn hu hc
  rw [hserves.ready hr] at hu'
  exact hu'

/-- An attempt fills a free slot, so it writes no busy one (R93). -/
theorem exec_slot?_of_busy {i : Instr} {s u : State} (h : exec i s = .next u) {t : Tag} {w : Slot}
    (hw : s.slot? t = some w) (hb : w.busy = true) : u.slot? t = some w := by
  obtain ⟨-, -, -, -, -, -, hslot, -⟩ := attemptFrame_of_exec h
  rw [hslot t, hw]
  rintro n hfree rfl
  obtain ⟨⟨w', hw', hidle⟩, -⟩ := (s.findFree_eq_some _ _).1 hfree
  obtain rfl := Option.some.inj (hw.symm.trans hw')
  simp [hb] at hidle

/-- Settles O37: the slot passes Writeback and Issue as it is, and is not fresh when it is ticked. -/
theorem countingSlotCountsDown : Obligations.CountingSlotCountsDown := by
  intro s s' t u n hinv hexec hu hr hcnt hstep
  have hc : u.complete t.pool = false := by simp [Slot.complete, hcnt]
  have hwb := State.afterWriteback_slot?_of_ready hinv.lawful hu hr hc
  have htick : u.tick t.pool = { u with cnt := .k n } :=
    Slot.tick_of_count hr (State.not_fresh_of_lawful hinv.lawful hu) hcnt
  obtain ⟨-, -, hcase⟩ := step_cases hstep
  obtain ⟨-, rfl⟩ | ⟨i, w, -, hw, rfl⟩ := hcase.of_executes hexec
  · rw [State.executePhase_slot?, ← htick]
    exact congrArg (Option.map _) hwb
  · rw [State.executePhase_slot?, exec_slot?_of_busy hw hwb (Slot.busy_of_ready hr), Option.map_some, htick]

/-! ### A pending register (R148) -/

/-- Writeback resolves a pending register exactly when its slot is complete. -/
theorem State.afterWriteback_reg?_of_pending {s : State} (h : s.lawful = true) {r : Nat} {g : Tag}
    (hr : s.reg? r = some (.pending g)) :
    ∃ u, s.slot? g = some u ∧
      (u.complete g.pool = true →
        ∃ v, u.result g.pool = some v ∧ s.afterWriteback.reg? r = some (.value v)) ∧
      (u.complete g.pool = false → s.afterWriteback.reg? r = some (.pending g)) := by
  have hm := State.mid_of_lawful h
  have hm' := State.mid_counted h
  obtain ⟨hstore, u, -, hu, hb, -⟩ := (s.regOk_pending r g).1 (hm.regs r _ hr)
  refine ⟨u, hu, fun hc => ?_, fun hc => hm'.writebackPhase_reg?_of_pending hr hu hc⟩
  obtain ⟨v, hv⟩ := (hm.busy g u hu hb).result_isSome ((Slot.complete_iff _ _).1 hc).1 hstore
  exact ⟨v, hv, (hm'.writebackPhase_of_complete hu hc).2.1 r v hv hr⟩

/-- An attempt that issues gives the register it writes the tag of its slot; no other register changes. -/
theorem exec_reg? {i : Instr} {s u : State} (h : exec i s = .next u) (hi : s.env.instrAt s.pc = some i)
    {r : Nat} {x : RegStatus} (hr : s.reg? r = some x) :
    (s.env.writes s.pc r = true → u.pc = s.pc + 1 →
      ∃ g w, u.reg? r = some (.pending g) ∧ u.slot? g = some w ∧ w.instr = some s.pc) ∧
    (¬ (s.env.writes s.pc r = true ∧ u.pc = s.pc + 1) → u.reg? r = s.reg? r) := by
  obtain ⟨-, -, -, -, -, -, -, -, hframe⟩ := attemptFrame_of_exec h
  obtain ⟨-, oj, ok, -, -, rfl⟩ := exec_next h
  rw [Env.writes_iff hi]
  cases hfree : s.findFree i.op.pool with
  | none =>
    rw [State.issue_of_full hfree]
    exact ⟨fun _ hpc => by simp at hpc, fun _ => rfl⟩
  | some n =>
    have hissued := State.issued hfree oj ok
    refine ⟨?_, fun hnot => hframe r ?_⟩
    · rintro ⟨d, hd, rfl⟩ -
      exact ⟨_, _, hissued.reg?_dest hd (List.getElem?_eq_some_iff.1 hr).1, hissued.slot,
        Slot.launch_instr _ _ _⟩
    · rw [ne_eq, Option.map_eq_some_iff]
      exact fun hdest => hnot ⟨hdest, hissued.pc⟩

/-- A step that executes no cycle writes no register. -/
theorem StepCase.rf_of_not_executes {s s' : State} (h : StepCase s s') (hx : s.executes = false) :
    s'.rf = s.rf := by
  cases h with
  | drain hf ht ho | attempt hf ht ho => simp [s.executes_iff.2 ⟨hf, ht, ho⟩] at hx
  | tooLong _ _ he | accepted _ _ _ he | badWord _ _ _ _ _ _ _ he | goodWord _ _ _ _ _ he
  | finish _ _ he | overflow _ _ _ he | done _ he | error _ he => subst he; rfl

/-- Settles O46: Writeback resolves the register or leaves it; then the issue of a writer renames it. -/
theorem pendingIsReplacedInTwoWays : Obligations.PendingIsReplacedInTwoWays := by
  intro s t r g hinv hstep hr
  obtain ⟨-, hlawful, hcase⟩ := step_cases hstep
  refine ⟨fun hx => ?_, fun hx => ?_⟩
  · rw [State.reg?, hcase.rf_of_not_executes hx]
    exact hr
  · obtain ⟨u, hu, hcomplete, hwaits⟩ := State.afterWriteback_reg?_of_pending hlawful hr
    obtain ⟨hpc, rfl⟩ | ⟨i, w, hi, hw, rfl⟩ := hcase.of_executes hx
    · exact ⟨fun _ hadvance => by simp at hadvance, fun _ => ⟨u, hu, hcomplete, hwaits⟩⟩
    · obtain ⟨x, hx'⟩ : ∃ x, s.afterWriteback.reg? r = some x := by
        cases hc : u.complete g.pool with
        | true => exact (hcomplete hc).imp' _ fun _ => And.right
        | false => exact ⟨_, hwaits hc⟩
      obtain ⟨hrenamed, hkept⟩ := exec_reg? hw (by simpa using hi) hx'
      simp only [State.afterWriteback_env, State.afterWriteback_pc] at hrenamed hkept
      refine ⟨fun hwrites hadvance => ?_, fun hnot => ⟨u, hu, fun hc => ?_, fun hc => ?_⟩⟩
      · obtain ⟨g', w', hreg, hslot, hinstr⟩ := hrenamed hwrites hadvance
        exact ⟨g', w'.tick g'.pool, hreg, by rw [State.executePhase_slot?, hslot, Option.map_some],
          by rw [Slot.tick_instr, hinstr]⟩
      · obtain ⟨v, hv, hval⟩ := hcomplete hc
        exact ⟨v, hv, (hkept hnot).trans hval⟩
      · exact (hkept hnot).trans (hwaits hc)

end Sys2Proof.Machine
end

section
/-! PROOFS. What a lawful state holds (70_reset_and_hazards.md R150, R151), what the host reads of a state
(10_state.md R43, 60_exceptions.md R124–R126), and what the reset state meets. -/

namespace Sys2Proof

/-! ### Latencies (R9, R10) -/

theorem Config.lat_le_lmax (c : Config) (o : Op) : c.lat o ≤ c.lmax := by
  unfold Config.lmax
  rcases o with (_ | _ | _ | _) | _ | _ <;> simp only [Config.lat] <;> omega

/-- A well-formed configuration has latencies of `LAT_W` bits (R9). -/
theorem Config.lat_lt {c : Config} (h : c.wf = true) (o : Op) : c.lat o < 2 ^ c.latW := by
  obtain ⟨-, hlat, -⟩ := c.wf_iff_ranges.1 h
  have hle : c.lat o ≤ 2 ^ c.latW - 1 :=
    hlat _ (by rcases o with (_ | _ | _ | _) | _ | _ <;> simp [Config.lat])
  have hpos := Nat.two_pow_pos c.latW
  omega

end Sys2Proof

namespace Sys2Proof.Machine

/-! ### Tags (R150) -/

/-- No instruction after the last writer writes the register. -/
theorem Env.not_writes_of_lastWriter {e : Env} {r k a b : Nat} (h : e.lastWriter r k = some a) (hab : a < b)
    (hbk : b < k) : e.writes b r = false := by
  induction k with
  | zero => cases h
  | succ k ih =>
    by_cases hw : e.writes k r = true
    · rw [Env.lastWriter_succ_of_writes hw] at h
      obtain rfl := Option.some.inj h
      omega
    · rw [Bool.not_eq_true] at hw
      rw [Env.lastWriter_succ_of_not_writes hw] at h
      obtain hlt | rfl := Nat.lt_succ_iff_lt_or_eq.1 hbk
      · exact ih h hlt
      · exact hw

/-- The laws of a slot's operands; a free slot has none. -/
theorem State.Mid.older_of_wait {s : State} (h : s.Mid) {q t : Tag} {w : Slot} (hw : s.slot? q = some w)
    (hwait : w.j = .wait t ∨ w.k = .wait t) :
    ∃ u a b, s.slot? t = some u ∧ u.busy = true ∧ u.instr = some a ∧ w.instr = some b ∧ a < b := by
  have hbusy : w.busy = true := by
    by_contra hb
    rw [h.idle q w hw (by simpa using hb)] at hwait
    simp [Slot.free] at hwait
  have hm := h.busy q w hw hbusy
  have hplaced : s.operandOk w.instr (.wait t) = true := by
    obtain hj | hk := hwait
    · rw [← hj]; exact hm.opJ
    · rw [← hk]; exact hm.opK
  obtain ⟨-, u, a, b, hu, hb, ha, hwb, hlt⟩ := (s.operandOk_wait _ _).1 hplaced
  exact ⟨u, a, b, hu, hb, ha, hwb, hlt⟩

/-- Settles O55: the laws of registers, operands and DONE, read off. -/
theorem lawfulStatesHaveNoStaleTags : Obligations.LawfulStatesHaveNoStaleTags := by
  intro s hlawful
  have hm := State.mid_of_lawful hlawful
  refine ⟨fun r t hr => ?_, fun q w t hw hwait => hm.older_of_wait hw hwait, fun hdone r hr => ?_⟩
  · obtain ⟨-, u, a, hu, hb, ha, hlast⟩ := (s.regOk_pending r t).1 (hm.regs r _ hr)
    exact ⟨u, a, hu, hb, ha, Env.lastWriter_lt hlast, Env.writes_of_lastWriter hlast,
      fun b => Env.not_writes_of_lastWriter hlast⟩
  · obtain ⟨hshape, -, -, -, hdoneOk⟩ := s.lawful_iff.1 hlawful
    have hlt : r < s.rf.length := by rwa [(s.shapeOk_iff.1 hshape).1]
    have hx : s.reg? r = some s.rf[r] := List.getElem?_eq_getElem hlt
    obtain ⟨v, hv⟩ := s.doneOk_iff.1 hdoneOk hdone r _ hx
    exact ⟨v, by rw [hx, hv]⟩

/-! ### The oldest busy slot (R151 (e)) -/

/-- A busy slot serves an instruction (R37). -/
theorem State.Mid.instr_of_busy {s : State} (h : s.Mid) {t : Tag} {u : Slot} (hu : s.slot? t = some u)
    (hb : u.busy = true) : ∃ a, u.instr = some a := by
  obtain ⟨a, -, ha, -⟩ := (s.servesOk_iff _ _).1 (h.busy t u hu hb).serves
  exact ⟨a, ha⟩

/-- Among busy slots there is an oldest: the least instruction served. -/
theorem State.Mid.exists_oldest {s : State} (h : s.Mid) (hbusy : ∃ t u, s.slot? t = some u ∧ u.busy = true) :
    ∃ t u a, s.slot? t = some u ∧ u.busy = true ∧ u.instr = some a ∧
      ∀ t' u' b, s.slot? t' = some u' → u'.busy = true → u'.instr = some b → a ≤ b := by
  classical
  have hserved : ∃ a t u, s.slot? t = some u ∧ u.busy = true ∧ u.instr = some a := by
    obtain ⟨t, u, hu, hb⟩ := hbusy
    obtain ⟨a, ha⟩ := h.instr_of_busy hu hb
    exact ⟨a, t, u, hu, hb, ha⟩
  obtain ⟨t, u, hu, hb, ha⟩ := Nat.find_spec hserved
  exact ⟨t, u, _, hu, hb, ha, fun t' u' b hu' hb' hi' => Nat.find_min' hserved ⟨t', u', hu', hb', hi'⟩⟩

/-- Settles O49: the wait relation goes to older instructions, and there is an oldest one. -/
theorem someBusySlotIsReady : Obligations.SomeBusySlotIsReady := by
  intro s hlawful
  have hm := State.mid_of_lawful hlawful
  exact ⟨fun t u a ⟨hu, hb, ha, hold⟩ => hm.ready_of_oldest hu hb ha hold, hm.exists_oldest⟩

/-! ### The widths (R25, R36–R41) -/

theorem stampFits_iff (c : Config) (x : Option Nat) :
    stampFits c x = true ↔ ∀ n, x = some n → n ≤ c.cycMax := by
  cases x <;> simp [stampFits]

/-- Every stamp lies within its width (R41, R116). -/
def State.StampsFit (s : State) : Prop :=
  ∀ (a : Nat) (st : Stamp), s.trace[a]? = some st →
    (∀ x, st.issue = some x → x ≤ s.env.cfg.cycMax) ∧ (∀ y, st.wb = some y → y ≤ s.env.cfg.cycMax)

theorem State.fits_iff (s : State) :
    s.fits = true ↔
      s.vidx < 2 ^ s.env.cfg.pcW ∧ s.pc < 2 ^ s.env.cfg.pcW ∧ s.errIndex < 2 ^ s.env.cfg.pcW ∧
      s.cycle ≤ s.env.cfg.cycMax ∧ s.StampsFit ∧
      (∀ t u, s.slot? t = some u → u.cnt.fits s.env.cfg = true) := by
  have htrace : (∀ st ∈ s.trace, stampFits s.env.cfg st.issue = true ∧ stampFits s.env.cfg st.wb = true) ↔
      s.StampsFit := by
    simp only [stampFits_iff, List.mem_iff_getElem?, State.StampsFit]
    exact ⟨fun h a st ha => h st ⟨a, ha⟩, fun h st ⟨a, ha⟩ => h a st ha⟩
  simp only [State.fits, Bool.and_eq_true, decide_eq_true_eq, List.all_eq_true, htrace, Prod.forall,
    s.mem_tagged, and_assoc]

/-- The laws bound a countdown by a latency, so it fits its register (R25, R151 (c)). -/
theorem State.Mid.cnt_fits {s : State} (h : s.Mid) (hcfg : s.env.cfg.wf = true) {t : Tag} {u : Slot}
    (hu : s.slot? t = some u) : u.cnt.fits s.env.cfg = true := by
  cases hb : u.busy with
  | false => rw [h.idle t u hu hb]; rfl
  | true =>
    have hcount := (h.busy t u hu hb).count
    unfold Slot.CountMid at hcount
    split at hcount
    · obtain ⟨o, n, -, hcnt, hle, -⟩ := hcount
      rw [hcnt]
      exact decide_eq_true (hle.trans_lt (Config.lat_lt hcfg o))
    · rw [hcount.1]
      rfl

/-- A program that validation accepts has indices of `PC_W` bits (R9, R111). -/
theorem Env.progLen_lt {e : Env} (hcfg : e.cfg.wf = true) (hlen : e.progLen ≤ e.cfg.progMax) :
    e.progLen < 2 ^ e.cfg.pcW := by
  obtain ⟨-, -, -, -, hmax, -⟩ := e.cfg.wf_iff_ranges.1 hcfg
  have hpos := Nat.two_pow_pos e.cfg.pcW
  omega

/-! ### What the host reads (R43, R124–R126) -/

/-- Settles O56: a well-formed configuration has at most 32 bits of cycle and 16 of `pc`. -/
theorem cycleAndPcRegisters : Obligations.CycleAndPcRegisters := by
  intro s hinv
  obtain ⟨-, hpc, -, hcycle, -⟩ := s.fits_iff.1 hinv.fits
  obtain ⟨-, -, -, -, -, ⟨-, hpcW⟩, ⟨-, hcycW⟩, -⟩ := s.env.cfg.wf_iff_ranges.1 hinv.cfgWf
  have hcycle32 : 2 ^ s.env.cfg.cycW ≤ 2 ^ 32 := Nat.pow_le_pow_right (by decide) hcycW
  have hpc32 : 2 ^ s.env.cfg.pcW ≤ 2 ^ 16 := Nat.pow_le_pow_right (by decide) hpcW
  have hpos := Nat.two_pow_pos s.env.cfg.cycW
  unfold Config.cycMax at hcycle
  constructor
  · rw [State.cycleReg, BitVec.toNat_ofNat, Nat.mod_eq_of_lt (by omega)]
  · rw [State.pcReg, BitVec.toNat_ofNat, Nat.mod_eq_of_lt (by omega)]

theorem Env.validTo_succ (e : Env) (k : Nat) :
    e.validTo (k + 1) = true ↔ e.validTo k = true ∧ ∃ i, e.instrAt k = some i := by
  simp [Env.validTo, List.range_succ, Option.isSome_iff_exists]

theorem Env.word?_of_lt {e : Env} {a : Nat} (h : a < e.progLen) : ∃ w, e.word? a = some w :=
  ⟨_, List.getElem?_eq_getElem h⟩

/-- Settles O57: the ports by definition; what they show under the invariant of VALIDATE and of RUN. -/
theorem portsShowTheState : Obligations.PortsShowTheState := by
  constructor
  · intro s
    refine ⟨by simp [State.donePort], by simp [State.errorPort], fun hf => by simp [State.progAddr, hf],
      fun hf => ?_, fun _ => Iff.rfl⟩
    cases h : s.fsm <;> simp_all [State.progAddr]
  · intro s hinv
    obtain ⟨hvidx, hpc, -⟩ := s.fits_iff.1 hinv.fits
    refine ⟨?_, fun hf hlt => ?_, fun hf hlt => ?_⟩
    · unfold State.progAddr
      split
      · exact hvidx
      all_goals exact hpc
    · obtain ⟨-, -, hvalid⟩ := hinv.validating hf
      obtain ⟨w, hw⟩ := Env.word?_of_lt hlt
      refine ⟨w, by simpa [State.progData, State.progAddr, hf] using hw, ?_⟩
      simp [Env.validTo_succ, hvalid, Env.instrAt_eq_some, hw]
    · obtain ⟨-, hvalid⟩ := s.env.valid_iff.1 (hinv.running hf)
      obtain ⟨i, hi⟩ := Env.instrAt_of_validTo hvalid hlt
      obtain ⟨w, hw, hd⟩ := Env.instrAt_eq_some.1 hi
      exact ⟨w, i, by simpa [State.progData, State.progAddr, hf] using hw, hd, hi⟩

theorem stampInt_injective : Function.Injective stampInt := by
  intro x y h
  cases x <;> cases y <;> simp only [stampInt] at h
  · rfl
  · omega
  · omega
  · exact congrArg some (by omega)

/-- Settles O53: every field stands in the snapshot, the stamps in a form that loses nothing. -/
theorem snapshotShowsTheWholeState : Obligations.SnapshotShowsTheWholeState := by
  intro s t henv hsnap
  have hstamp : Function.Injective fun st : Stamp => (stampInt st.issue, stampInt st.wb) := by
    rintro ⟨x, y⟩ ⟨x', y'⟩ h
    obtain ⟨hx, hy⟩ := Prod.mk.inj h
    exact congrArg₂ Stamp.mk (stampInt_injective hx) (stampInt_injective hy)
  have htrace : s.trace = t.trace := List.map_injective_iff.2 hstamp (congrArg Snapshot.stamps hsnap)
  rcases s with ⟨_, _, _, _, _, _, _, _, _, ⟨_, _, _, _⟩, _⟩
  rcases t with ⟨_, _, _, _, _, _, _, _, _, ⟨_, _, _, _⟩, _⟩
  simp only [State.snapshot, Snapshot.mk.injEq] at hsnap
  simp_all

/-! ### The reset state (R45) -/

theorem State.eq_none_of_resetOf_trace {e : Env} {a : Nat} {st : Stamp}
    (h : (State.resetOf e).trace[a]? = some st) : st = { issue := none, wb := none } := by
  rw [State.resetOf_trace, List.getElem?_replicate] at h
  split_ifs at h
  exact (Option.some.inj h).symm

theorem State.resetOf_fits {e : Env} (hcfg : e.cfg.wf = true) : (State.resetOf e).fits = true := by
  have hpos := Nat.two_pow_pos e.cfg.pcW
  refine (State.fits_iff _).2 ⟨hpos, hpos, hpos, Nat.zero_le _, fun a st hst => ?_, fun t u =>
    (State.mid_of_lawful (State.resetOf_lawful e)).cnt_fits hcfg⟩
  obtain rfl := State.eq_none_of_resetOf_trace hst
  simp

theorem State.resetOf_inv {e : Env} (hcfg : e.cfg.wf = true) : (State.resetOf e).Inv where
  cfgWf := hcfg
  lawful := State.resetOf_lawful e
  fits := State.resetOf_fits hcfg
  errClear _ := ⟨rfl, rfl⟩
  errSet h := by cases h
  validating _ := ⟨rfl, Nat.zero_le _, rfl⟩
  running h := by cases h
  finished h := by cases h

/-- No slot of the reset state serves an instruction. -/
theorem State.instr_of_resetOf_slot? {e : Env} {t : Tag} {u : Slot} (hu : (State.resetOf e).slot? t = some u) :
    u.instr = none := by
  obtain ⟨-, rfl⟩ := (State.resetOf_slot? e t u).1 hu
  rfl

theorem State.resetOf_traceLaw (e : Env) : (State.resetOf e).TraceLaw where
  issued a ha := by cases ha
  notIssued a st _ hst := by obtain rfl := State.eq_none_of_resetOf_trace hst; exact ⟨rfl, rfl⟩
  inOrder a b sa sb x y _ hsa _ hx _ := by obtain rfl := State.eq_none_of_resetOf_trace hsa; cases hx
  waiting t u a st hu ha := by rw [State.instr_of_resetOf_slot? hu] at ha; cases ha
  counting t u a n st hu ha := by rw [State.instr_of_resetOf_slot? hu] at ha; cases ha
  gap a st x y i hst hx := by obtain rfl := State.eq_none_of_resetOf_trace hst; cases hx
  single t t' u u' a hu _ ha := by rw [State.instr_of_resetOf_slot? hu] at ha; cases ha
  handled a st ha := by cases ha

theorem State.resetOf_deadlineLaw (e : Env) : (State.resetOf e).DeadlineLaw where
  counting t u a n hu ha := by rw [State.instr_of_resetOf_slot? hu] at ha; cases ha
  running h := by cases h
  bound := Nat.zero_le _

/-- Settles O38: in the reset state no slot serves, no stamp is written and nothing is counted. -/
theorem resetMeetsTheInvariants : Obligations.ResetMeetsTheInvariants :=
  ⟨State.resetOf_inv (by decide), fun e hcfg =>
    ⟨State.resetOf_inv hcfg, State.resetOf_traceLaw e, State.resetOf_deadlineLaw e, State.resetOf_dataflow e⟩⟩

/-! ### DONE (R128) -/

/-- Settles O48: the terminal condition frees every slot, so no register is pending and every instruction
was written back. -/
theorem doneLeavesNothingPending : Obligations.DoneLeavesNothingPending := by
  intro s hinv htrace hdone
  have hm := State.mid_of_lawful hinv.lawful
  obtain ⟨hvalid, hterm⟩ := hinv.finished hdone
  obtain ⟨hpc, hidle⟩ := s.terminal_iff.1 hterm
  obtain ⟨-, hwords⟩ := s.env.valid_iff.1 hvalid
  have hfree : ∀ t u, s.slot? t = some u → u = Slot.free := fun t u hu => hm.idle t u hu (hidle t u hu)
  obtain ⟨-, -, hvalues⟩ := lawfulStatesHaveNoStaleTags s hinv.lawful
  refine ⟨hvalues hdone, hfree, fun a ha => ?_⟩
  obtain ⟨⟨issue, wb⟩, x, hst, hx, -, -⟩ := htrace.issued a (hpc ▸ ha)
  obtain rfl : issue = some x := hx
  obtain ⟨y, hwb, hy⟩ :=
    htrace.handled a _ (hpc ▸ ha) hst fun t u hu => by simp [hfree t u hu, Slot.free]
  obtain rfl : wb = some y := hwb
  obtain ⟨i, hi⟩ := Env.instrAt_of_validTo hwords ha
  have hgap := htrace.gap a _ x y i hst rfl rfl hi
  exact ⟨x, y, hst, by omega, hy⟩

end Sys2Proof.Machine
end

section
/-! PROOFS. The states inside an executed cycle (40_sequencer.md R74), with the induction over its phases
packaged once, and: from every good state the step goes on to a good state (60_exceptions.md R117,
70_reset_and_hazards.md R149–R151). -/

namespace Sys2Proof.Machine

/-! ### Inside a cycle -/

/-- `w` is a state between two phases of the cycle that a step of `s` executes. -/
structure State.InCycle (s w : State) : Prop where
  mid : w.Mid
  env : w.env = s.env
  fsm : w.fsm = s.fsm
  vidx : w.vidx = s.vidx
  cycle : w.cycle = s.cycle + 1
  err : w.err = s.err
  errIndex : w.errIndex = s.errIndex

theorem State.inCycle_counted {s : State} (h : s.lawful = true) :
    s.InCycle { s with cycle := s.cycle + 1 } :=
  ⟨State.mid_counted h, rfl, rfl, rfl, rfl, rfl, rfl⟩

theorem State.InCycle.handle {s w : State} (h : s.InCycle w) {t : Tag} {u : Slot} (hu : w.slot? t = some u)
    (hr : u.ready t.pool = true) : s.InCycle (w.handle t) :=
  ⟨h.mid.handle hu hr, by simp [h.env], by simp [h.fsm], by simp [h.vidx], by simp [h.cycle],
    by simp [h.err], by simp [h.errIndex]⟩

theorem State.InCycle.withStall {s w : State} (h : s.InCycle w) (b : Bool) :
    s.InCycle { w with stall := b } :=
  ⟨h.mid.congr rfl rfl rfl rfl rfl, h.env, h.fsm, h.vidx, h.cycle, h.err, h.errIndex⟩

theorem State.InCycle.issue {s w : State} (h : s.InCycle w) {i : Instr} (hi : w.env.instrAt w.pc = some i)
    {oj ok : Opnd} (hj : w.Captured i.srcJ oj) (hk : w.Captured i.srcK ok) :
    s.InCycle (w.issue i.op (Slot.ofInstr i oj ok w.pc) i.dest) := by
  obtain ⟨henv, hfsm, hvidx, hcycle, herr, hidx⟩ := w.issue_keeps i.op (Slot.ofInstr i oj ok w.pc) i.dest
  exact ⟨h.mid.issue hi (Env.instrAt_lt hi) hj hk, henv.trans h.env, hfsm.trans h.fsm, hvidx.trans h.vidx,
    hcycle.trans h.cycle, herr.trans h.err, hidx.trans h.errIndex⟩

/-- The induction over the phases of a cycle, packaged once: what holds as the cycle is counted, and is
kept by each turn of Writeback, by writing `stall` and by an issue, holds as Execute begins. No slot is
complete there (R100). -/
theorem StepCase.cycle_induct {P : State → Prop} {s s' : State} (hcase : StepCase s s')
    (hlawful : s.lawful = true) (hexec : s.executes = true)
    (hstart : P { s with cycle := s.cycle + 1 })
    (hhandle : ∀ w t u, s.InCycle w → P w → w.slot? t = some u → u.complete t.pool = true → P (w.handle t))
    (hstall : ∀ w b, P w → P { w with stall := b })
    (hissue : ∀ w i n oj ok, s.InCycle w → P w → w.pc = s.pc → w.env.instrAt w.pc = some i →
      w.findFree i.op.pool = some n → P (w.issue i.op (Slot.ofInstr i oj ok w.pc) i.dest)) :
    ∃ u, s.InCycle u ∧ P u ∧ u.completeTags = [] ∧ s' = u.executePhase := by
  have hwb : (s.InCycle s.afterWriteback ∧ P s.afterWriteback) ∧ _ :=
    State.writebackPhase_induct (P := fun w => s.InCycle w ∧ P w) (State.mid_counted hlawful)
      ⟨State.inCycle_counted hlawful, hstart⟩ fun w t u _ ⟨hin, hp⟩ hu hc =>
        ⟨hin.handle hu ((Slot.complete_iff _ _).1 hc).1, hhandle w t u hin hp hu hc⟩
  obtain ⟨⟨hin, hp⟩, -⟩ := hwb
  have hnone : s.afterWriteback.completeTags = [] := (State.mid_counted hlawful).completeTags_writebackPhase
  obtain ⟨-, rfl⟩ | ⟨i, u, hi, hu, rfl⟩ := hcase.of_executes hexec
  · exact ⟨_, hin.withStall false, hstall _ _ hp, hnone, rfl⟩
  · have hi' : s.afterWriteback.env.instrAt s.afterWriteback.pc = some i := by simpa using hi
    have hcomplete := exec_completeTags_eq_nil hu hnone
    obtain ⟨-, oj, ok, hj, hk, rfl⟩ := exec_next hu
    refine ⟨_, hin.issue hi' hj hk, ?_, hcomplete, rfl⟩
    cases hfree : s.afterWriteback.findFree i.op.pool with
    | none => rw [State.issue_of_full hfree]; exact hstall _ _ hp
    | some n => exact hissue _ i n oj ok hin hp s.afterWriteback_pc hi' hfree

/-! ### One entry of the trace, one phase back -/

/-- The trace entry of an instruction after one turn of Writeback: a broadcast that wakes its slot stamps
it (R99). -/
theorem State.Mid.handle_trace {s : State} (h : s.Mid) {t : Tag} {u : Slot} (hu : s.slot? t = some u)
    (hr : u.ready t.pool = true) {a : Nat} {st' : Stamp} (hst' : (s.handle t).trace[a]? = some st') :
    ∃ st, s.trace[a]? = some st ∧ st'.issue = st.issue ∧
      ((¬ s.Wakes t (u.broadcastValue t.pool) a ∧ st'.wb = st.wb) ∨
        (s.Wakes t (u.broadcastValue t.pool) a ∧ st'.wb = s.stampAt a)) := by
  classical
  rw [h.handle_eq_retire hu hr, h.retire_trace_getElem?, Option.map_eq_some_iff] at hst'
  obtain ⟨st, hst, rfl⟩ := hst'
  refine ⟨st, hst, ?_⟩
  split_ifs with hw
  · exact ⟨rfl, .inr ⟨hw, rfl⟩⟩
  · exact ⟨rfl, .inl ⟨hw, rfl⟩⟩

/-- The trace entry of an instruction after an issue (R95, R97). -/
theorem State.issue_trace_cases {s : State} {i : Instr} {n : Nat} (hfree : s.findFree i.op.pool = some n)
    {oj ok : Opnd} {a : Nat} {st' : Stamp}
    (hst' : (s.issue i.op (Slot.ofInstr i oj ok s.pc) i.dest).trace[a]? = some st') :
    (a ≠ s.pc ∧ s.trace[a]? = some st') ∨
    (a = s.pc ∧ ∃ st, s.trace[a]? = some st ∧ st'.issue = some s.cycle ∧
      st'.wb = if (Slot.ofInstr i oj ok s.pc).ready i.op.pool then some (s.cycle + s.env.cfg.lat i.op + 1)
        else st.wb) := by
  rw [State.issue_trace hfree _ rfl] at hst'
  by_cases ha : a = s.pc
  · rw [if_pos ha, Option.map_eq_some_iff] at hst'
    obtain ⟨st, hst, rfl⟩ := hst'
    exact .inr ⟨ha, st, hst, rfl, rfl⟩
  · rw [if_neg ha] at hst'
    exact .inl ⟨ha, hst'⟩

theorem State.stampAt_eq_some {s : State} {a y : Nat} :
    s.stampAt a = some y ↔ ∃ i, s.env.instrAt a = some i ∧ s.cycle + s.env.cfg.lat i.op + 1 = y := by
  simp [State.stampAt]

/-! ### The stamps of a cycle fit (R116) -/

/-- The overflow test leaves room for the largest stamp of the cycle (R74, R116). -/
theorem State.room_of_executes {s : State} (h : s.executes = true) :
    s.cycle + s.env.cfg.lmax + 2 ≤ s.env.cfg.cycMax := by
  obtain ⟨-, -, hover⟩ := s.executes_iff.1 h
  simpa [State.overflows] using hover

theorem State.StampsFit.handle {s : State} (h : s.StampsFit) (hm : s.Mid)
    (hroom : s.cycle + s.env.cfg.lmax + 1 ≤ s.env.cfg.cycMax) {t : Tag} {u : Slot} (hu : s.slot? t = some u)
    (hr : u.ready t.pool = true) : (s.handle t).StampsFit := by
  intro a st' hst'
  rw [State.handle_env]
  obtain ⟨st, hst, hissue, ⟨-, hwb⟩ | ⟨-, hwb⟩⟩ := hm.handle_trace hu hr hst'
  · rw [hissue, hwb]
    exact h a st hst
  · rw [hissue, hwb]
    refine ⟨(h a st hst).1, fun y hy => ?_⟩
    obtain ⟨i, -, rfl⟩ := State.stampAt_eq_some.1 hy
    have hlat := s.env.cfg.lat_le_lmax i.op
    omega

theorem State.StampsFit.issue {s : State} (h : s.StampsFit)
    (hroom : s.cycle + s.env.cfg.lmax + 1 ≤ s.env.cfg.cycMax) {i : Instr} {n : Nat}
    (hfree : s.findFree i.op.pool = some n) (oj ok : Opnd) :
    (s.issue i.op (Slot.ofInstr i oj ok s.pc) i.dest).StampsFit := by
  intro a st' hst'
  rw [(s.issue_keeps _ _ _).1]
  have hlat := s.env.cfg.lat_le_lmax i.op
  obtain ⟨-, hst⟩ | ⟨-, st, hst, hissue, hwb⟩ := State.issue_trace_cases hfree hst'
  · exact h a st' hst
  · rw [hissue, hwb]
    refine ⟨fun x hx => ?_, fun y hy => ?_⟩
    · obtain rfl := Option.some.inj hx
      omega
    · split_ifs at hy
      · obtain rfl := Option.some.inj hy
        omega
      · exact (h a st hst).2 y hy

/-! ### The invariant, step by step -/

/-- The laws speak of the parameters, `pc`, the file, the pools and the length of the trace, and of `fsm`
at DONE alone. -/
theorem State.lawful_of_eq {s s' : State} (h : s.lawful = true) (henv : s'.env = s.env) (hpc : s'.pc = s.pc)
    (hrf : s'.rf = s.rf) (hpools : s'.pools = s.pools) (htrace : s'.trace = s.trace)
    (hdone : s'.doneOk = true) : s'.lawful = true := by
  obtain ⟨hm, hfresh, -⟩ := s.lawful_iff_mid.1 h
  refine s'.lawful_iff_mid.2 ⟨hm.congr henv hpc hrf hpools (by rw [htrace]), fun t u hu => ?_, hdone⟩
  exact hfresh t u (by rwa [State.slot?_congr hpools] at hu)

/-- An error is raised from a good state, and an index of the program is in its width (R114). -/
theorem State.Inv.raise {s : State} (h : s.Inv) {e : Err} {idx : Nat} (he : e ≠ .none)
    (hidx : idx < 2 ^ s.env.cfg.pcW) : (s.raise e idx).Inv where
  cfgWf := h.cfgWf
  lawful := State.lawful_of_eq h.lawful rfl rfl rfl rfl rfl (State.doneOk_of_ne (by simp))
  fits := by
    obtain ⟨hvidx, hpc, -, hrest⟩ := s.fits_iff.1 h.fits
    exact (State.fits_iff _).2 ⟨hvidx, hpc, hidx, hrest⟩
  errClear hf := absurd rfl hf
  errSet _ := he
  validating hf := by cases hf
  running hf := by cases hf
  finished hf := by cases hf

/-- Validation moves on to the next word (R111). -/
theorem State.Inv.validateWord {s : State} (h : s.Inv) (hf : s.fsm = .validate)
    (hlen : s.env.progLen ≤ s.env.cfg.progMax) {i : Instr} (hi : s.env.instrAt s.vidx = some i) :
    State.Inv { s with vidx := s.vidx + 1 } where
  cfgWf := h.cfgWf
  lawful := State.lawful_of_eq h.lawful rfl rfl rfl rfl rfl (State.doneOk_of_ne (by simp [hf]))
  fits := by
    obtain ⟨-, hrest⟩ := s.fits_iff.1 h.fits
    have hlt := Env.progLen_lt h.cfgWf hlen
    have hidx := Env.instrAt_lt hi
    exact (State.fits_iff _).2 ⟨by dsimp only; omega, hrest⟩
  errClear _ := h.errClear (by simp [hf])
  errSet hf' := by simp [hf] at hf'
  validating _ := by
    obtain ⟨hs, -, hvalid⟩ := h.validating hf
    refine ⟨?_, Env.instrAt_lt hi, (Env.validTo_succ _ _).2 ⟨hvalid, i, hi⟩⟩
    conv_lhs => rw [hs]
  running hf' := by simp [hf] at hf'
  finished hf' := by simp [hf] at hf'

/-- Validation ends (R111). -/
theorem State.Inv.accept {s : State} (h : s.Inv) (hf : s.fsm = .validate)
    (hlen : s.env.progLen ≤ s.env.cfg.progMax) (hend : s.vidx = s.env.progLen) :
    State.Inv { s with fsm := .run } where
  cfgWf := h.cfgWf
  lawful := State.lawful_of_eq h.lawful rfl rfl rfl rfl rfl (State.doneOk_of_ne (by simp))
  fits := (State.fits_iff _).2 (s.fits_iff.1 h.fits)
  errClear _ := h.errClear (by simp [hf])
  errSet hf' := by cases hf'
  validating hf' := by cases hf'
  running _ := by
    obtain ⟨-, -, hvalid⟩ := h.validating hf
    exact s.env.valid_iff.2 ⟨hlen, hend ▸ hvalid⟩
  finished hf' := by cases hf'

/-- The run ends: with every slot free no register is pending (R76, R150). -/
theorem State.Inv.finish {s : State} (h : s.Inv) (hf : s.fsm = .run) (hterm : s.terminal = true) :
    State.Inv { s with fsm := .done } where
  cfgWf := h.cfgWf
  lawful := by
    obtain ⟨-, hidle⟩ := s.terminal_iff.1 hterm
    exact State.lawful_of_eq h.lawful rfl rfl rfl rfl rfl
      ((State.doneOk_iff _).2 fun _ r x hx => (State.mid_of_lawful h.lawful).value_of_allFree hidle hx)
  fits := (State.fits_iff _).2 (s.fits_iff.1 h.fits)
  errClear _ := h.errClear (by simp [hf])
  errSet hf' := by cases hf'
  validating hf' := by cases hf'
  running hf' := by cases hf'
  finished _ := ⟨h.running hf, hterm⟩

/-- An executed cycle (R74). -/
theorem State.Inv.cycle {s u : State} (h : s.Inv) (hexec : s.executes = true) (hin : s.InCycle u)
    (hfit : u.StampsFit) : u.executePhase.Inv := by
  obtain ⟨hrun, -, -⟩ := s.executes_iff.1 hexec
  have hroom := State.room_of_executes hexec
  have hvalid := h.running hrun
  have hlawful : u.executePhase.lawful = true := hin.mid.executePhase_lawful (by simp [hin.fsm, hrun])
  have hcfg : u.env.cfg.wf = true := hin.env ▸ h.cfgWf
  have hlen := Env.progLen_lt h.cfgWf (s.env.valid_iff.1 hvalid).1
  have hpc := hin.mid.pcLe
  rw [hin.env] at hpc
  obtain ⟨hvidx, -, hidx, -⟩ := s.fits_iff.1 h.fits
  exact
    { cfgWf := hcfg
      lawful := hlawful
      fits := (State.fits_iff _).2 ⟨by simpa [hin.vidx, hin.env] using hvidx,
        by simpa [hin.env] using hpc.trans_lt hlen, by simpa [hin.errIndex, hin.env] using hidx,
        by simp only [State.executePhase_cycle, State.executePhase_env, hin.cycle, hin.env]; omega,
        hfit, fun t w => (State.mid_of_lawful hlawful).cnt_fits hcfg⟩
      errClear := fun _ => by simpa [hin.err, hin.errIndex] using h.errClear (by simp [hrun])
      errSet := fun hf => by simp [hin.fsm, hrun] at hf
      validating := fun hf => by simp [hin.fsm, hrun] at hf
      running := fun _ => by simpa [hin.env] using hvalid
      finished := fun hf => by simp [hin.fsm, hrun] at hf }

/-- The stamps fit as Execute begins. -/
theorem StepCase.stampsFit {s s' : State} (hcase : StepCase s s') (hinv : s.Inv) (hexec : s.executes = true) :
    ∃ u, s.InCycle u ∧ u.StampsFit ∧ s' = u.executePhase := by
  obtain ⟨-, -, -, -, hfit, -⟩ := s.fits_iff.1 hinv.fits
  have hroom : ∀ w, s.InCycle w → w.cycle + w.env.cfg.lmax + 1 ≤ w.env.cfg.cycMax := fun w hin => by
    rw [hin.env, hin.cycle]
    have := State.room_of_executes hexec
    omega
  obtain ⟨u, hin, hu, -, he⟩ := hcase.cycle_induct (P := State.StampsFit) hinv.lawful hexec hfit
    (fun w t u hin hp hu hc => hp.handle hin.mid (hroom w hin) hu ((Slot.complete_iff _ _).1 hc).1)
    (fun _ _ hp => hp) (fun w i n oj ok hin hp _ _ hfree => hp.issue (hroom w hin) hfree oj ok)
  exact ⟨u, hin, hu, he⟩

/-- Every step from a good state leads to a good state. -/
theorem StepCase.inv {s s' : State} (hcase : StepCase s s') (hinv : s.Inv) : s'.Inv := by
  have hcycle : s.executes = true → s'.Inv := fun hexec => by
    obtain ⟨u, hin, hfit, rfl⟩ := hcase.stampsFit hinv hexec
    exact hinv.cycle hexec hin hfit
  obtain ⟨hvidx, hpc, -⟩ := s.fits_iff.1 hinv.fits
  cases hcase with
  | tooLong _ _ he =>
    obtain ⟨-, -, -, -, hmax, -⟩ := s.env.cfg.wf_iff_ranges.1 hinv.cfgWf
    have hpos := Nat.two_pow_pos s.env.cfg.pcW
    exact he ▸ hinv.raise (by simp) (by omega)
  | accepted hf hlen hv he => exact he ▸ hinv.accept hf hlen hv
  | badWord _ _ _ _ e _ _ he => exact he ▸ hinv.raise (by cases e <;> simp [errOf]) hvidx
  | goodWord hf hlen _ i hi he => exact he ▸ hinv.validateWord hf hlen hi
  | finish hf ht he => exact he ▸ hinv.finish hf ht
  | overflow _ _ _ he => exact he ▸ hinv.raise (by simp) hpc
  | drain hf ht ho _ _ => exact hcycle (s.executes_iff.2 ⟨hf, ht, ho⟩)
  | attempt hf ht ho _ _ _ _ _ _ => exact hcycle (s.executes_iff.2 ⟨hf, ht, ho⟩)
  | done _ he | error _ he => exact he ▸ hinv

/-! ### Progress -/

/-- The Issue phase of a valid program answers a next state (R88, R117). -/
theorem issuePhase_of_valid {s : State} (hm : s.Mid) (hvalid : s.env.valid = true) :
    ∃ u, issuePhase s = .next u := by
  by_cases hpc : s.pc = s.env.progLen
  · exact ⟨_, issuePhase_of_drain hpc⟩
  · obtain ⟨i, hi⟩ := Env.instrAt_of_validTo (s.env.valid_iff.1 hvalid).2
      (Nat.lt_of_le_of_ne hm.pcLe hpc)
    obtain ⟨w, hw, hd⟩ := Env.instrAt_eq_some.1 hi
    obtain ⟨oj, ok, -, -, hexec⟩ := exec_of_wf hm.shape (Env.wf_of_instrAt hi)
    exact ⟨_, (issuePhase_of_decode hw hd).trans hexec⟩

/-- From a good state the step answers a next state: in VALIDATE there is a word to check, in RUN an
instruction to attempt. -/
theorem State.Inv.step_next {s : State} (h : s.Inv) : ∃ t, step s = .next t := by
  rw [step_of_lawful h.cfgWf h.lawful, fsmStep]
  split
  · rename_i hf
    obtain ⟨-, hle, -⟩ := h.validating hf
    obtain hlong | hlen := Nat.lt_or_ge s.env.cfg.progMax s.env.progLen
    · exact ⟨_, validateStep_of_tooLong hlong⟩
    by_cases hend : s.vidx = s.env.progLen
    · exact ⟨_, validateStep_of_end hlen hend⟩
    obtain ⟨w, hw⟩ := Env.word?_of_lt (Nat.lt_of_le_of_ne hle hend)
    cases hd : decode s.env.cfg w with
    | ok i => exact ⟨_, validateStep_of_goodWord hlen (Env.instrAt_eq_some.2 ⟨w, hw, hd⟩)⟩
    | err d => exact ⟨_, validateStep_of_badWord hlen hw hd⟩
  · rename_i hf
    unfold runStep
    split
    · exact ⟨_, rfl⟩
    split
    · exact ⟨_, rfl⟩
    obtain ⟨u, hu⟩ := issuePhase_of_valid (State.mid_afterWriteback h.lawful)
      (by simpa using h.running hf)
    exact ⟨u.executePhase, by rw [cycleStep, hu]⟩
  · exact ⟨s, rfl⟩
  · exact ⟨s, rfl⟩

/-- Settles O39: progress, and the invariant case by case. -/
theorem everyStepGoesOnAndKeepsInv : Obligations.EveryStepGoesOnAndKeepsInv := by
  intro s hinv
  obtain ⟨t, hstep⟩ := hinv.step_next
  obtain ⟨-, -, hcase⟩ := step_cases hstep
  exact ⟨t, hstep, hcase.inv hinv⟩

end Sys2Proof.Machine
end

section
/-! PROOFS. When a counting slot is due, and with it the bound on cycles (70_reset_and_hazards.md R153). -/

namespace Sys2Proof.Machine

/-! ### The cycle in which a slot is due (R99, R101, R152) -/

/-- Between two phases of a cycle: a slot that serves instruction `a` counts, and its countdown ends so
that the Writeback of cycle `y` handles it. A countdown loaded in this cycle is not ticked in it (R33). -/
def State.Due (s : State) (a y : Nat) : Prop :=
  ∃ t u n, s.slot? t = some u ∧ u.instr = some a ∧ u.ready t.pool = true ∧ u.cnt = .k n ∧
    y = s.cycle + n + u.fresh.toNat

/-- As a cycle begins: nothing is fresh, and the cycle has been counted. -/
theorem State.due_counted {s : State} (hlawful : s.lawful = true) {a y : Nat}
    (h : ({ s with cycle := s.cycle + 1 } : State).Due a y) :
    ∃ t u n, s.slot? t = some u ∧ u.instr = some a ∧ u.ready t.pool = true ∧ u.cnt = .k n ∧
      y = s.cycle + n + 1 := by
  obtain ⟨t, u, n, hu, ha, hr, hcnt, rfl⟩ := h
  refine ⟨t, u, n, hu, ha, hr, hcnt, ?_⟩
  rw [State.not_fresh_of_lawful hlawful hu, Bool.toNat_false]
  dsimp only
  omega

/-- A complete slot is due in this cycle. -/
theorem State.due_of_complete {s : State} {t : Tag} {u : Slot} {a : Nat} (hu : s.slot? t = some u)
    (hc : u.complete t.pool = true) (ha : u.instr = some a) : s.Due a s.cycle := by
  obtain ⟨hr, hcnt, hfresh⟩ := (Slot.complete_iff _ _).1 hc
  exact ⟨t, u, 0, hu, ha, hr, hcnt, by rw [hfresh]; rfl⟩

/-- The slots after one turn of Writeback. -/
theorem State.Mid.handle_slot?_cases {s : State} (h : s.Mid) {t : Tag} {u : Slot} (hu : s.slot? t = some u)
    (hr : u.ready t.pool = true) {q : Tag} {w' : Slot} (hw' : (s.handle t).slot? q = some w') :
    (q = t ∧ w' = Slot.free) ∨
    (q ≠ t ∧ ∃ w, s.slot? q = some w ∧
      w' = w.receive s.env.cfg q.pool t (u.broadcastValue t.pool)) := by
  rw [h.handle_eq_retire hu hr, State.retire_slot?, Option.map_eq_some_iff] at hw'
  obtain ⟨w, hw, rfl⟩ := hw'
  by_cases hq : q = t
  · exact .inl ⟨hq, if_pos hq⟩
  · exact .inr ⟨hq, w, hw, if_neg hq⟩

/-- A slot that counts was ready before the broadcast, or is woken by it (R84). -/
theorem State.Mid.ready_or_wakes {s : State} (h : s.Mid) {t q : Tag} {v : Val} {w : Slot}
    (hw : s.slot? q = some w) (hr : (w.resolve t v).ready q.pool = true) :
    w.ready q.pool = true ∨ w.wakes q.pool t v = true := by
  by_contra hnot
  obtain ⟨hnr, hnw⟩ := not_or.1 hnot
  have hm := h.busy q w hw (by simpa using Slot.busy_of_ready hr)
  have hcount := hm.count
  rw [Slot.CountMid, if_neg hnr] at hcount
  refine hnw ((Slot.wakes_iff_waitsOn _ _ _ _).2 ⟨?_, hr, hcount.1⟩)
  by_contra hwait
  rw [Slot.resolve_of_not_waitsOn (by simpa using hwait)] at hr
  exact hnr hr

/-- After one turn of Writeback: a slot was due before, or the broadcast has woken it and it is due when
its stamp says (R84, R99). -/
theorem State.Mid.due_handle {s : State} (h : s.Mid) {t : Tag} {u : Slot} (hu : s.slot? t = some u)
    (hr : u.ready t.pool = true) {a y : Nat} (hdue : (s.handle t).Due a y) :
    s.Due a y ∨ (s.Wakes t (u.broadcastValue t.pool) a ∧ s.stampAt a = some y) := by
  obtain ⟨q, w', n, hw', ha, hr', hcnt, rfl⟩ := hdue
  obtain ⟨-, rfl⟩ | ⟨-, w, hw, rfl⟩ := h.handle_slot?_cases hu hr hw'
  · cases ha
  rw [Slot.receive_instr] at ha
  rw [Slot.ready_receive] at hr'
  rw [State.handle_cycle]
  have hbusy := h.busy q w hw (h.busy_of_instr hw ha)
  obtain ⟨b, i, hb, -, hi, hop, -⟩ := (s.servesOk_iff _ _).1 hbusy.serves
  obtain rfl := Option.some.inj (ha.symm.trans hb)
  cases hwakes : w.wakes q.pool t (u.broadcastValue t.pool) with
  | true =>
    rw [Slot.receive_of_wakes hwakes hop] at hcnt ⊢
    obtain rfl := Count.k.inj hcnt
    exact .inr ⟨⟨q, w, hw, ha, hwakes⟩, State.stampAt_eq_some.2 ⟨i, hi, rfl⟩⟩
  | false =>
    rw [Slot.receive_of_not_wakes hwakes] at hcnt ⊢
    have hready := (h.ready_or_wakes hw hr').resolve_right (by simp [hwakes])
    exact .inl ⟨q, w, n, hw, ha, hready, hcnt, rfl⟩

/-- After an issue: a slot was due before, or is the new one, ready when filled (R97, R99). -/
theorem State.due_issue {s : State} {i : Instr} {n : Nat} (hfree : s.findFree i.op.pool = some n)
    {oj ok : Opnd} {a y : Nat} (hdue : (s.issue i.op (Slot.ofInstr i oj ok s.pc) i.dest).Due a y) :
    s.Due a y ∨
    (a = s.pc ∧ (Slot.ofInstr i oj ok s.pc).ready i.op.pool = true ∧ y = s.cycle + s.env.cfg.lat i.op + 1) := by
  obtain ⟨t, u, m, hu, ha, hr, hcnt, rfl⟩ := hdue
  obtain ⟨-, -, -, hcycle, -⟩ := s.issue_keeps i.op (Slot.ofInstr i oj ok s.pc) i.dest
  rw [hcycle]
  rw [State.issue_slot? hfree] at hu
  split_ifs at hu with ht
  · subst ht
    obtain rfl := Option.some.inj hu
    rw [Slot.launch_instr] at ha
    rw [Slot.launch_ofInstr] at hcnt ⊢
    cases hready : (Slot.ofInstr i oj ok s.pc).ready i.op.pool with
    | false => rw [hready] at hcnt; cases hcnt
    | true =>
      rw [hready] at hcnt
      obtain rfl := Count.k.inj hcnt
      exact .inr ⟨(Option.some.inj ha).symm, rfl, rfl⟩
  · exact .inl ⟨t, u, m, hu, ha, hr, hcnt, rfl⟩

/-- The tick, where no slot is complete: a slot that ends the cycle with `K(n)` is due `n + 1` cycles on
(R100, R101). -/
theorem State.Mid.due_of_tick {s : State} (h : s.Mid) (hnone : s.completeTags = []) {t : Tag} {u' : Slot}
    {a n : Nat} (hu' : s.executePhase.slot? t = some u') (ha : u'.instr = some a)
    (hr : u'.ready t.pool = true) (hcnt : u'.cnt = .k n) : s.Due a (s.cycle + n + 1) := by
  rw [State.executePhase_slot?, Option.map_eq_some_iff] at hu'
  obtain ⟨u, hu, rfl⟩ := hu'
  rw [Slot.tick_instr] at ha
  rw [Slot.ready_tick] at hr
  obtain ⟨m, hm⟩ := (h.busy_of_ready hu hr).count.cnt_of_ready hr
  cases hf : u.fresh with
  | true =>
    rw [Slot.tick_of_fresh hr hf] at hcnt
    exact ⟨t, u, n, hu, ha, hr, hcnt, by rw [hf]; rfl⟩
  | false =>
    cases m with
    | zero =>
      have hc : u.complete t.pool = true := (Slot.complete_iff _ _).2 ⟨hr, hm, hf⟩
      simp [s.completeTags_eq_nil_iff.1 hnone t u hu] at hc
    | succ m =>
      rw [Slot.tick_of_count hr hf hm] at hcnt
      obtain rfl := Count.k.inj hcnt
      exact ⟨t, u, m + 1, hu, ha, hr, hm, by rw [hf]; rfl⟩

/-! ### The deadlines (R153) -/

/-- Every slot is due by the deadline of its instruction. -/
def State.InTime (s : State) : Prop :=
  ∀ a y, s.Due a y → y ≤ (a + 1) * (s.env.cfg.lmax + 1) + 1

/-- A broadcast wakes slots of younger instructions alone (R150). -/
theorem State.Mid.older_of_wakes {s : State} (h : s.Mid) {t : Tag} {u : Slot} (hu : s.slot? t = some u)
    {v : Val} {a : Nat} (hw : s.Wakes t v a) : ∃ b, u.instr = some b ∧ b < a := by
  obtain ⟨q, w, hq, ha, hwakes⟩ := hw
  obtain ⟨hwait, -⟩ := (Slot.wakes_iff _ _ _ _).1 hwakes
  obtain ⟨u', b, a', hu', -, hb, ha', hlt⟩ := h.older_of_wait hq hwait
  obtain rfl := Option.some.inj (hu.symm.trans hu')
  obtain rfl := Option.some.inj (ha.symm.trans ha')
  exact ⟨b, hb, hlt⟩

/-- A slot woken in this cycle waited on an older one, which was in time. -/
theorem State.InTime.handle {s : State} (h : s.InTime) (hm : s.Mid) {t : Tag} {u : Slot}
    (hu : s.slot? t = some u) (hc : u.complete t.pool = true) : (s.handle t).InTime := by
  intro a y hdue
  rw [State.handle_env]
  obtain hdue | ⟨hw, hstamp⟩ := hm.due_handle hu ((Slot.complete_iff _ _).1 hc).1 hdue
  · exact h a y hdue
  · obtain ⟨i, -, rfl⟩ := State.stampAt_eq_some.1 hstamp
    obtain ⟨b, hb, hlt⟩ := hm.older_of_wakes hu hw
    have hdeadline := h b _ (State.due_of_complete hu hc hb)
    have hlat := s.env.cfg.lat_le_lmax i.op
    have hmul : (b + 1) * (s.env.cfg.lmax + 1) ≤ a * (s.env.cfg.lmax + 1) := Nat.mul_le_mul_right _ hlt
    rw [Nat.succ_mul a]
    omega

/-- The instruction at `pc` issues in time when the cycles before this one are at most `pc·(LMAX + 1)`. -/
theorem State.InTime.issue {s : State} (h : s.InTime)
    (hcycle : s.cycle ≤ s.pc * (s.env.cfg.lmax + 1) + 1) {i : Instr} {n : Nat}
    (hfree : s.findFree i.op.pool = some n) (oj ok : Opnd) :
    (s.issue i.op (Slot.ofInstr i oj ok s.pc) i.dest).InTime := by
  intro a y hdue
  rw [(s.issue_keeps _ _ _).1]
  obtain hdue | ⟨rfl, -, rfl⟩ := State.due_issue hfree hdue
  · exact h a y hdue
  · have hlat := s.env.cfg.lat_le_lmax i.op
    rw [Nat.succ_mul s.pc]
    omega

/-- The counting slots are in time at the end of every executed cycle. -/
theorem StepCase.counting_deadline {s s' : State} (hcase : StepCase s s') (hinv : s.Inv) (h : s.DeadlineLaw)
    (hexec : s.executes = true) :
    ∀ t u a n, s'.slot? t = some u → u.instr = some a → u.ready t.pool = true → u.cnt = .k n →
      s'.cycle + n + 1 ≤ (a + 1) * (s'.env.cfg.lmax + 1) + 1 := by
  obtain ⟨hrun, hterm, -⟩ := s.executes_iff.1 hexec
  have hstart : ({ s with cycle := s.cycle + 1 } : State).InTime := by
    intro a y hdue
    obtain ⟨t, u, n, hu, ha, hr, hcnt, rfl⟩ := State.due_counted hinv.lawful hdue
    exact h.counting t u a n hu ha hr hcnt
  obtain ⟨w, hin, hw, hnone, rfl⟩ := hcase.cycle_induct (P := State.InTime) hinv.lawful hexec hstart
    (fun w t u hin hp hu hc => hp.handle hin.mid hu hc) (fun _ _ hp => hp)
    (fun w i n oj ok hin hp hpc _ hfree => hp.issue (by
      rw [hin.cycle, hin.env, hpc]
      exact Nat.succ_le_succ (h.running hrun hterm)) hfree oj ok)
  exact fun t u a n hu ha hr hcnt => hw a _ (hin.mid.due_of_tick hnone hu ha hr hcnt)

/-! ### No cycle is wasted: where nothing issues, the oldest busy slot counts -/

/-- An attempt that does not advance `pc` leaves a busy slot: a pool has a slot (R9), and the pool of the
instruction is full (R92). -/
theorem exec_busy_of_stalled {i : Instr} {s u : State} (hm : s.Mid) (hcfg : s.env.cfg.wf = true)
    (h : exec i s = .next u) (hpc : u.pc = s.pc) : ∃ t w, u.slot? t = some w ∧ w.busy = true := by
  obtain ⟨-, hlen, -⟩ := s.shapeOk_iff.1 hm.shape
  have hpos : 0 < (s.pools.get i.op.pool).length := by
    rw [hlen]
    exact (Config.cap_range hcfg _).1
  have hslot : s.slot? ⟨i.op.pool, 0⟩ = some (s.pools.get i.op.pool)[0] := List.getElem?_eq_getElem hpos
  obtain ⟨-, oj, ok, -, -, rfl⟩ := exec_next h
  cases hfree : s.findFree i.op.pool with
  | none =>
    rw [State.issue_of_full hfree]
    exact ⟨_, _, hslot, (s.findFree_eq_none _).1 hfree 0 _ hslot⟩
  | some n =>
    rw [(State.issue_pc_stall hfree _ _).1] at hpc
    omega

/-- A cycle that issues nothing and does not end the run leaves a busy slot. -/
theorem StepCase.busy_of_not_issued {s s' : State} (hcase : StepCase s s') (hinv : s.Inv)
    (hexec : s.executes = true) (hpc : s'.pc = s.pc) (hterm : s'.terminal = false) :
    ∃ t u, s'.slot? t = some u ∧ u.busy = true := by
  obtain ⟨hend, rfl⟩ | ⟨i, u, -, hu, rfl⟩ := hcase.of_executes hexec
  · by_contra hnone
    refine Bool.eq_false_iff.1 hterm ((State.terminal_iff _).2 ⟨by simpa using hend, fun t u hu => ?_⟩)
    by_contra hb
    exact hnone ⟨t, u, hu, by simpa using hb⟩
  · obtain ⟨t, w, hw, hb⟩ := exec_busy_of_stalled (State.mid_afterWriteback hinv.lawful)
      (by simpa using hinv.cfgWf) hu (by simpa using hpc)
    exact ⟨t, w.tick t.pool, by rw [State.executePhase_slot?, hw, Option.map_some], by simpa using hb⟩

/-- In a lawful state with a busy slot whose slots are in time, few cycles have been counted: the oldest
busy slot counts. -/
theorem State.cycle_le_of_busy {s : State} (hlawful : s.lawful = true)
    (hcounting : ∀ t u a n, s.slot? t = some u → u.instr = some a → u.ready t.pool = true → u.cnt = .k n →
      s.cycle + n + 1 ≤ (a + 1) * (s.env.cfg.lmax + 1) + 1)
    (hbusy : ∃ t u, s.slot? t = some u ∧ u.busy = true) : s.cycle ≤ s.pc * (s.env.cfg.lmax + 1) := by
  have hm := State.mid_of_lawful hlawful
  obtain ⟨t, u, a, hu, hb, ha, hold⟩ := hm.exists_oldest hbusy
  have hr := hm.ready_of_oldest hu hb ha hold
  have hbu := hm.busy t u hu hb
  obtain ⟨n, hcnt⟩ := hbu.count.cnt_of_ready hr
  obtain ⟨a', -, ha', hlt, -⟩ := (s.servesOk_iff _ _).1 hbu.serves
  obtain rfl := Option.some.inj (ha.symm.trans ha')
  have hdeadline := hcounting t u a n hu ha hr hcnt
  have hmul : (a + 1) * (s.env.cfg.lmax + 1) ≤ s.pc * (s.env.cfg.lmax + 1) := Nat.mul_le_mul_right _ hlt
  omega

/-- An executed cycle counts one cycle and stays in RUN. -/
theorem StepCase.cycle_fsm_of_executes {s s' : State} (hcase : StepCase s s') (hlawful : s.lawful = true)
    (hexec : s.executes = true) : s'.cycle = s.cycle + 1 ∧ s'.fsm = s.fsm := by
  obtain ⟨u, hin, -, -, rfl⟩ := hcase.cycle_induct (P := fun _ => True) hlawful hexec trivial
    (fun _ _ _ _ _ _ _ => trivial) (fun _ _ _ => trivial) (fun _ _ _ _ _ _ _ _ _ _ => trivial)
  exact ⟨hin.cycle, hin.fsm⟩

/-- The deadlines after an executed cycle. -/
theorem State.DeadlineLaw.cycle {s s' : State} (h : s.DeadlineLaw) (hcase : StepCase s s') (hinv : s.Inv)
    (hexec : s.executes = true) : s'.DeadlineLaw := by
  obtain ⟨hrun, hterm, -⟩ := s.executes_iff.1 hexec
  have hcounting := hcase.counting_deadline hinv h hexec
  obtain ⟨hcycle, -⟩ := hcase.cycle_fsm_of_executes hinv.lawful hexec
  have hbefore := h.running hrun hterm
  refine ⟨hcounting, fun _ hterm' => ?_, ?_⟩
  · obtain ⟨hpc, -⟩ | ⟨-, -, hpc, -⟩ := hcase.issueStamps
    · exact State.cycle_le_of_busy (hcase.inv hinv).lawful hcounting
        (hcase.busy_of_not_issued hinv hexec hpc hterm')
    · rw [hcycle, hpc, hcase.env, Nat.succ_mul]
      omega
  · have hle : s.pc * (s.env.cfg.lmax + 1) ≤ s.env.progLen * (s.env.cfg.lmax + 1) :=
      Nat.mul_le_mul_right _ (State.mid_of_lawful hinv.lawful).pcLe
    rw [hcycle, hcase.env]
    omega

/-- Nothing is counted before RUN (R45, R111). -/
theorem State.Inv.cycle_of_validate {s : State} (h : s.Inv) (hf : s.fsm = .validate) : s.cycle = 0 := by
  obtain ⟨hs, -⟩ := h.validating hf
  rw [hs]
  rfl

/-- Every step keeps the deadlines: RUN begins with no cycle counted, an executed cycle keeps them, and
every other step ends outside RUN. -/
theorem StepCase.deadlines {s s' : State} (hcase : StepCase s s') (hinv : s.Inv) (h : s.DeadlineLaw) :
    s'.DeadlineLaw := by
  have hcycle : s.executes = true → s'.DeadlineLaw := h.cycle hcase hinv
  cases hcase with
  | drain hf ht ho _ _ => exact hcycle (s.executes_iff.2 ⟨hf, ht, ho⟩)
  | attempt hf ht ho _ _ _ _ _ _ => exact hcycle (s.executes_iff.2 ⟨hf, ht, ho⟩)
  | accepted hf _ _ he =>
    subst he
    exact ⟨h.counting, fun _ _ => (hinv.cycle_of_validate hf).le.trans (Nat.zero_le _), h.bound⟩
  | goodWord hf _ _ _ _ he => subst he; exact ⟨h.counting, fun hf' => absurd (hf.symm.trans hf') (by simp), h.bound⟩
  | tooLong _ _ he | badWord _ _ _ _ _ _ _ he | finish _ _ he | overflow _ _ _ he =>
    subst he; exact ⟨h.counting, fun hf' => (by cases hf'), h.bound⟩
  | done _ he | error _ he => exact he ▸ h

/-- Settles O41: the case of the step keeps the deadlines. -/
theorem everyStepKeepsTheDeadlines : Obligations.EveryStepKeepsTheDeadlines := by
  intro s t hinv h hstep
  obtain ⟨-, -, hcase⟩ := step_cases hstep
  exact hcase.deadlines hinv h

end Sys2Proof.Machine
end

section
/-! PROOFS. Every step keeps the law of the stamps (70_reset_and_hazards.md R145, R146, R152, 10_state.md
R41): the issue stamps over the whole step, the writeback stamps phase by phase. -/

namespace Sys2Proof.Machine

/-! ### Issue stamps (R95, R146) -/

/-- The part of the trace law that speaks of issue stamps alone. -/
structure State.IssueLaw (s : State) : Prop where
  issued : ∀ a, a < s.pc → ∃ x, s.issueStamps[a]? = some (some x) ∧ 1 ≤ x ∧ x ≤ s.cycle
  notIssued : ∀ a x : Nat, s.pc ≤ a → s.issueStamps[a]? ≠ some (some x)
  inOrder : ∀ a b x y : Nat, a < b → s.issueStamps[a]? = some (some x) → s.issueStamps[b]? = some (some y) → x < y

theorem State.issueStamps_eq_some_iff {s : State} {a x : Nat} :
    s.issueStamps[a]? = some (some x) ↔ ∃ st, s.trace[a]? = some st ∧ st.issue = some x := by
  rw [State.issueStamps_getElem?, Option.map_eq_some_iff]

theorem State.TraceLaw.issueLaw {s : State} (h : s.TraceLaw) : s.IssueLaw := by
  refine ⟨fun a ha => ?_, fun a x ha hx => ?_, fun a b x y hab hx hy => ?_⟩
  · obtain ⟨st, x, hst, hx, hrange⟩ := h.issued a ha
    exact ⟨x, State.issueStamps_eq_some_iff.2 ⟨st, hst, hx⟩, hrange⟩
  · obtain ⟨st, hst, hx⟩ := State.issueStamps_eq_some_iff.1 hx
    rw [(h.notIssued a st ha hst).1] at hx
    cases hx
  · obtain ⟨sa, hsa, hx⟩ := State.issueStamps_eq_some_iff.1 hx
    obtain ⟨sb, hsb, hy⟩ := State.issueStamps_eq_some_iff.1 hy
    exact h.inOrder a b sa sb x y hab hsa hsb hx hy

/-- A cycle that issues nothing writes no issue stamp. -/
theorem State.IssueLaw.of_eq {s s' : State} (h : s.IssueLaw) (hpc : s'.pc = s.pc)
    (hstamps : s'.issueStamps = s.issueStamps) (hcycle : s.cycle ≤ s'.cycle) : s'.IssueLaw := by
  refine ⟨fun a ha => ?_, ?_, ?_⟩
  · obtain ⟨x, hx, hpos, hle⟩ := h.issued a (hpc ▸ ha)
    exact ⟨x, hstamps ▸ hx, hpos, hle.trans hcycle⟩
  · rw [hpc, hstamps]
    exact h.notIssued
  · rw [hstamps]
    exact h.inOrder

/-- An issue stamps the entry of `pc` alone, with a number that no older stamp has reached. -/
theorem State.IssueLaw.of_set {s s' : State} (h : s.IssueLaw) (hlen : s.pc < s.issueStamps.length)
    (hpc : s'.pc = s.pc + 1) (hstamps : s'.issueStamps = s.issueStamps.set s.pc (some s'.cycle))
    (hcycle : s.cycle < s'.cycle) : s'.IssueLaw := by
  have hself : s'.issueStamps[s.pc]? = some (some s'.cycle) := by
    rw [hstamps]
    exact List.getElem?_set_self hlen
  have hother : ∀ a, a ≠ s.pc → s'.issueStamps[a]? = s.issueStamps[a]? := fun a ha => by
    rw [hstamps]
    exact List.getElem?_set_ne (Ne.symm ha)
  have hbelow : ∀ a x, a ≠ s.pc → s'.issueStamps[a]? = some (some x) → a < s.pc ∧ x < s'.cycle := by
    intro a x ha hx
    rw [hother a ha] at hx
    have hlt : a < s.pc := Nat.lt_of_not_le fun hge => h.notIssued a x hge hx
    obtain ⟨x', hx', -, hle⟩ := h.issued a hlt
    obtain rfl := Option.some.inj (Option.some.inj (hx.symm.trans hx'))
    exact ⟨hlt, hle.trans_lt hcycle⟩
  refine ⟨fun a ha => ?_, fun a x ha hx => ?_, fun a b x y hab hx hy => ?_⟩
  · by_cases hself' : a = s.pc
    · exact ⟨s'.cycle, hself' ▸ hself, by omega, le_refl _⟩
    · obtain ⟨x, hx, hpos, hle⟩ := h.issued a (by omega)
      exact ⟨x, (hother a hself').trans hx, hpos, by omega⟩
  · have := hbelow a x (by omega) hx
    omega
  · by_cases hb : b = s.pc
    · subst hb
      obtain rfl := Option.some.inj (Option.some.inj (hself.symm.trans hy))
      exact (hbelow a x (by omega) hx).2
    · have hbpc := (hbelow b y hb hy).1
      rw [hother b hb] at hy
      rw [hother a (by omega)] at hx
      exact h.inOrder a b x y hab hx hy

theorem State.IssueLaw.cycle {s s' : State} (h : s.IssueLaw) (hcase : StepCase s s') (hinv : s.Inv)
    (hexec : s.executes = true) : s'.IssueLaw := by
  obtain ⟨hcycle, -⟩ := hcase.cycle_fsm_of_executes hinv.lawful hexec
  obtain ⟨hpc, hstamps⟩ | ⟨hrun, hlt, hpc, hstamps⟩ := hcase.issueStamps
  · exact h.of_eq hpc hstamps (by omega)
  · exact h.of_set (by simpa [State.issueStamps] using hinv.lt_trace_length hrun hlt) hpc hstamps (by omega)

/-! ### Writeback stamps, between two phases (R98, R99, R152) -/

/-- The part of the trace law that speaks of writeback stamps, as it holds between two phases of a cycle;
a stamp is the cycle in which its slot is due. -/
structure State.WbLaw (s : State) : Prop where
  past : ∀ (a : Nat) (st : Stamp) (x : Nat), s.trace[a]? = some st → st.issue = some x → x ≤ s.cycle
  notIssued : ∀ (a : Nat) (st : Stamp), s.pc ≤ a → s.trace[a]? = some st → st.wb = none
  waiting : ∀ t u a st, s.slot? t = some u → u.instr = some a → u.ready t.pool = false →
    s.trace[a]? = some st → st.wb = none
  due : ∀ a y st, s.Due a y → s.trace[a]? = some st → st.wb = some y
  gap : ∀ a st x y i, s.trace[a]? = some st → st.issue = some x → st.wb = some y →
    s.env.instrAt a = some i → x + s.env.cfg.lat i.op + 1 ≤ y
  single : ∀ t t' u u' a, s.slot? t = some u → s.slot? t' = some u' → u.instr = some a →
    u'.instr = some a → t = t'
  handled : ∀ a st, a < s.pc → s.trace[a]? = some st →
    (∀ t u, s.slot? t = some u → u.instr ≠ some a) → ∃ y, st.wb = some y ∧ y ≤ s.cycle

/-- The law as a cycle begins. -/
theorem State.TraceLaw.wbLaw_counted {s : State} (h : s.TraceLaw) (hlawful : s.lawful = true) :
    ({ s with cycle := s.cycle + 1 } : State).WbLaw where
  past a st x hst hx := by
    have hlt : a < s.pc := by
      by_contra hge
      rw [(h.notIssued a st (by omega) hst).1] at hx
      cases hx
    obtain ⟨st', x', hst', hx', -, hle⟩ := h.issued a hlt
    obtain rfl := Option.some.inj (hst.symm.trans hst')
    obtain rfl := Option.some.inj (hx.symm.trans hx')
    exact hle.trans (Nat.le_succ _)
  notIssued a st ha hst := (h.notIssued a st ha hst).2
  waiting := h.waiting
  due a y st hdue hst := by
    obtain ⟨t, u, n, hu, ha, hr, hcnt, rfl⟩ := State.due_counted hlawful hdue
    exact h.counting t u a n st hu ha hr hcnt hst
  gap := h.gap
  single := h.single
  handled a st ha hst hfree := by
    obtain ⟨y, hy, hle⟩ := h.handled a st ha hst hfree
    exact ⟨y, hy, hle.trans (Nat.le_succ _)⟩

/-- A slot that is due counts, so no broadcast wakes it, nor any other slot of its instruction. -/
theorem State.WbLaw.not_wakes_of_due {s : State} (h : s.WbLaw) {a y : Nat} (hdue : s.Due a y) (t : Tag)
    (v : Val) : ¬ s.Wakes t v a := by
  rintro ⟨q, w, hw, ha, hwakes⟩
  obtain ⟨q', w', n, hw', ha', -, hcnt, -⟩ := hdue
  obtain rfl := h.single q q' w w' a hw hw' ha ha'
  obtain rfl := Option.some.inj (hw.symm.trans hw')
  obtain ⟨-, -, hinf⟩ := (Slot.wakes_iff _ _ _ _).1 hwakes
  rw [hcnt] at hinf
  cases hinf

/-- A woken slot serves an instruction that has issued. -/
theorem State.Mid.lt_pc_of_instr {s : State} (h : s.Mid) {t : Tag} {u : Slot} {a : Nat}
    (hu : s.slot? t = some u) (ha : u.instr = some a) : a < s.pc := by
  obtain ⟨a', -, ha', hlt, -⟩ := (s.servesOk_iff _ _).1 (h.busy t u hu (h.busy_of_instr hu ha)).serves
  obtain rfl := Option.some.inj (ha.symm.trans ha')
  exact hlt

/-- A slot that serves an instruction after one turn of Writeback served it before. -/
theorem State.Mid.slot?_of_handle_serving {s : State} (h : s.Mid) {t q : Tag} {u w' : Slot} {a : Nat}
    (hu : s.slot? t = some u) (hr : u.ready t.pool = true) (hw' : (s.handle t).slot? q = some w')
    (ha : w'.instr = some a) :
    ∃ w, s.slot? q = some w ∧ w.instr = some a ∧
      w' = w.receive s.env.cfg q.pool t (u.broadcastValue t.pool) := by
  obtain ⟨-, rfl⟩ | ⟨-, w, hw, rfl⟩ := h.handle_slot?_cases hu hr hw'
  · cases ha
  · exact ⟨w, hw, by simpa using ha, rfl⟩

/-- A slot other than the handled one goes on to serve its instruction. -/
theorem State.Mid.handle_slot?_serving {s : State} (h : s.Mid) {t q : Tag} {u w : Slot} {a : Nat}
    (hu : s.slot? t = some u) (hr : u.ready t.pool = true) (hw : s.slot? q = some w)
    (ha : w.instr = some a) (hq : q ≠ t) :
    ∃ w', (s.handle t).slot? q = some w' ∧ w'.instr = some a := by
  rw [h.handle_eq_retire hu hr, State.retire_slot?, hw, Option.map_some, if_neg hq]
  exact ⟨_, rfl, by simpa using ha⟩

section
variable {s : State} (h : s.WbLaw) (hm : s.Mid) {t : Tag} {u : Slot} (hu : s.slot? t = some u)
include h hm hu

/-- A slot that waits on waited before, and no broadcast has woken its instruction. -/
theorem State.WbLaw.waiting_of_handle (hr : u.ready t.pool = true) {q : Tag} {w' : Slot} {a : Nat}
    {st' : Stamp} (hw' : (s.handle t).slot? q = some w') (ha : w'.instr = some a)
    (hnr : w'.ready q.pool = false) (hst' : (s.handle t).trace[a]? = some st') : st'.wb = none := by
  obtain ⟨w, hw, hwa, rfl⟩ := hm.slot?_of_handle_serving hu hr hw' ha
  rw [Slot.ready_receive] at hnr
  obtain ⟨st, hst, -, ⟨-, hwb⟩ | ⟨⟨q', w', hw', ha', hwakes⟩, -⟩⟩ := hm.handle_trace hu hr hst'
  · rw [hwb]
    refine h.waiting q w a st hw hwa (Bool.eq_false_iff.2 fun hready => ?_) hst
    simp [Slot.ready_resolve_of_ready hready] at hnr
  · obtain rfl := h.single q q' w w' a hw hw' hwa ha'
    obtain rfl := Option.some.inj (hw.symm.trans hw')
    simp [((Slot.wakes_iff _ _ _ _).1 hwakes).2.1] at hnr

/-- A woken slot gets the stamp of the cycle it is due in; every other slot keeps both. -/
theorem State.WbLaw.due_of_handle (hr : u.ready t.pool = true) {a y : Nat} {st' : Stamp}
    (hdue : (s.handle t).Due a y) (hst' : (s.handle t).trace[a]? = some st') : st'.wb = some y := by
  obtain ⟨st, hst, -, ⟨hnot, hwb⟩ | ⟨hwakes, hwb⟩⟩ := hm.handle_trace hu hr hst'
  · obtain hdue | ⟨hwakes, -⟩ := hm.due_handle hu hr hdue
    · rw [hwb]
      exact h.due a y st hdue hst
    · exact absurd hwakes hnot
  · obtain hdue | ⟨-, hstamp⟩ := hm.due_handle hu hr hdue
    · exact absurd hwakes (h.not_wakes_of_due hdue _ _)
    · rw [hwb, hstamp]

/-- An instruction that no slot serves any more was handled before, or just now, when its slot was due. -/
theorem State.WbLaw.handled_of_handle (hc : u.complete t.pool = true) {a : Nat} {st' : Stamp}
    (ha : a < s.pc) (hst' : (s.handle t).trace[a]? = some st')
    (hnone : ∀ q w, (s.handle t).slot? q = some w → w.instr ≠ some a) : ∃ y, st'.wb = some y ∧ y ≤ s.cycle := by
  have hr := ((Slot.complete_iff _ _).1 hc).1
  have honly : ∀ q w, s.slot? q = some w → w.instr = some a → q = t := fun q w hw hwa => by
    by_contra hq
    obtain ⟨w', hw', ha'⟩ := hm.handle_slot?_serving hu hr hw hwa hq
    exact hnone q w' hw' ha'
  obtain ⟨st, hst, -, ⟨-, hwb⟩ | ⟨⟨q, w, hw, hwa, hwakes⟩, -⟩⟩ := hm.handle_trace hu hr hst'
  · rw [hwb]
    by_cases hua : u.instr = some a
    · exact ⟨s.cycle, h.due a _ st (State.due_of_complete hu hc hua) hst, le_refl _⟩
    · refine h.handled a st ha hst fun q w hw hwa => hua ?_
      obtain rfl := honly q w hw hwa
      rwa [Option.some.inj (hu.symm.trans hw)]
  · obtain rfl := honly q w hw hwa
    obtain rfl := Option.some.inj (hu.symm.trans hw)
    exact (h.not_wakes_of_due (State.due_of_complete hu hc hwa) _ _ ⟨q, u, hu, hwa, hwakes⟩).elim

/-- One turn of Writeback keeps the law. -/
theorem State.WbLaw.handle (hc : u.complete t.pool = true) : (s.handle t).WbLaw := by
  have hr := ((Slot.complete_iff _ _).1 hc).1
  constructor
  case past =>
    intro a st' x hst' hx
    obtain ⟨st, hst, hissue, -⟩ := hm.handle_trace hu hr hst'
    rw [State.handle_cycle]
    exact h.past a st x hst (hissue ▸ hx)
  case notIssued =>
    intro a st' ha hst'
    rw [State.handle_pc] at ha
    obtain ⟨st, hst, -, ⟨-, hwb⟩ | ⟨⟨q, w, hw, hwa, -⟩, -⟩⟩ := hm.handle_trace hu hr hst'
    · rw [hwb]
      exact h.notIssued a st ha hst
    · exact absurd (hm.lt_pc_of_instr hw hwa) (by omega)
  case waiting => exact fun q w a st hw ha hnr hst => h.waiting_of_handle hm hu hr hw ha hnr hst
  case due => exact fun a y st hdue hst => h.due_of_handle hm hu hr hdue hst
  case gap =>
    intro a st' x y i hst' hx hy hi
    rw [State.handle_env] at hi ⊢
    obtain ⟨st, hst, hissue, ⟨-, hwb⟩ | ⟨-, hwb⟩⟩ := hm.handle_trace hu hr hst'
    · exact h.gap a st x y i hst (hissue ▸ hx) (hwb ▸ hy) hi
    · obtain ⟨i', hi', rfl⟩ := State.stampAt_eq_some.1 (hwb ▸ hy)
      obtain rfl := Option.some.inj (hi.symm.trans hi')
      have hpast := h.past a st x hst (hissue ▸ hx)
      omega
  case single =>
    intro q q' w w' a hw hw' ha ha'
    obtain ⟨w0, hw0, ha0, -⟩ := hm.slot?_of_handle_serving hu hr hw ha
    obtain ⟨w0', hw0', ha0', -⟩ := hm.slot?_of_handle_serving hu hr hw' ha'
    exact h.single q q' w0 w0' a hw0 hw0' ha0 ha0'
  case handled =>
    intro a st ha hst hnone
    rw [State.handle_pc] at ha
    rw [State.handle_cycle]
    exact h.handled_of_handle hm hu hc ha hst hnone

end

/-- The slots of a state after an issue that serve an instruction: the new one and the old ones. -/
theorem State.issue_slot?_cases {s : State} {i : Instr} {n : Nat} (hfree : s.findFree i.op.pool = some n)
    {oj ok : Opnd} {t : Tag} {u : Slot} {a : Nat}
    (hu : (s.issue i.op (Slot.ofInstr i oj ok s.pc) i.dest).slot? t = some u) (ha : u.instr = some a) :
    (t = ⟨i.op.pool, n⟩ ∧ a = s.pc ∧ u.ready t.pool = (Slot.ofInstr i oj ok s.pc).ready i.op.pool) ∨
    s.slot? t = some u := by
  rw [State.issue_slot? hfree] at hu
  split_ifs at hu with ht
  · subst ht
    obtain rfl := Option.some.inj hu
    rw [Slot.launch_instr] at ha
    exact .inl ⟨rfl, (Option.some.inj ha).symm, Slot.ready_congr _ (by simp) (by simp) (by simp)⟩
  · exact .inr hu

section
variable {s : State} (h : s.WbLaw) (hm : s.Mid) {i : Instr} {n : Nat}
  (hfree : s.findFree i.op.pool = some n) {oj ok : Opnd}
include h hm hfree

/-- The new slot waits unstamped if it is not ready; the other slots are as before. -/
theorem State.WbLaw.waiting_of_issue {t : Tag} {u : Slot} {a : Nat} {st' : Stamp}
    (hu : (s.issue i.op (Slot.ofInstr i oj ok s.pc) i.dest).slot? t = some u) (ha : u.instr = some a)
    (hnr : u.ready t.pool = false)
    (hst' : (s.issue i.op (Slot.ofInstr i oj ok s.pc) i.dest).trace[a]? = some st') : st'.wb = none := by
  obtain ⟨-, rfl, hready⟩ | hu := State.issue_slot?_cases hfree hu ha
  · obtain ⟨hne, -⟩ | ⟨-, st, hst, -, hwb⟩ := State.issue_trace_cases hfree hst'
    · exact absurd rfl hne
    · rw [hwb, ← hready, hnr]
      exact h.notIssued _ st (le_refl _) hst
  · obtain ⟨-, hst⟩ | ⟨rfl, -⟩ := State.issue_trace_cases hfree hst'
    · exact h.waiting t u a st' hu ha hnr hst
    · exact absurd (hm.lt_pc_of_instr hu ha) (lt_irrefl _)

/-- The new slot is due when its stamp says if it is ready; the other slots are as before. -/
theorem State.WbLaw.due_of_issue {a y : Nat} {st' : Stamp}
    (hdue : (s.issue i.op (Slot.ofInstr i oj ok s.pc) i.dest).Due a y)
    (hst' : (s.issue i.op (Slot.ofInstr i oj ok s.pc) i.dest).trace[a]? = some st') : st'.wb = some y := by
  obtain ⟨hne, hst⟩ | ⟨rfl, st, hst, -, hwb⟩ := State.issue_trace_cases hfree hst'
  · obtain hdue | ⟨rfl, -, -⟩ := State.due_issue hfree hdue
    · exact h.due a y st' hdue hst
    · exact absurd rfl hne
  · obtain ⟨t, u, m, hu, ha, -⟩ | ⟨-, hready, rfl⟩ := State.due_issue hfree hdue
    · exact absurd (hm.lt_pc_of_instr hu ha) (lt_irrefl _)
    · rw [hwb, if_pos hready]

/-- The new slot serves the instruction at `pc`, which no other slot serves. -/
theorem State.WbLaw.single_of_issue {t t' : Tag} {u u' : Slot} {a : Nat}
    (hu : (s.issue i.op (Slot.ofInstr i oj ok s.pc) i.dest).slot? t = some u)
    (hu' : (s.issue i.op (Slot.ofInstr i oj ok s.pc) i.dest).slot? t' = some u') (ha : u.instr = some a)
    (ha' : u'.instr = some a) : t = t' := by
  obtain ⟨rfl, rfl, -⟩ | hu := State.issue_slot?_cases hfree hu ha
  · obtain ⟨rfl, -⟩ | hu' := State.issue_slot?_cases hfree hu' ha'
    · rfl
    · exact absurd (hm.lt_pc_of_instr hu' ha') (lt_irrefl _)
  · obtain ⟨-, rfl, -⟩ | hu' := State.issue_slot?_cases hfree hu' ha'
    · exact absurd (hm.lt_pc_of_instr hu ha) (lt_irrefl _)
    · exact h.single t t' u u' a hu hu' ha ha'

/-- The issue takes no slot from an instruction: the one it fills was free. -/
theorem State.WbLaw.handled_of_issue {a : Nat} {st' : Stamp} (ha : a < s.pc + 1)
    (hst' : (s.issue i.op (Slot.ofInstr i oj ok s.pc) i.dest).trace[a]? = some st')
    (hnone : ∀ t u, (s.issue i.op (Slot.ofInstr i oj ok s.pc) i.dest).slot? t = some u → u.instr ≠ some a) :
    ∃ y, st'.wb = some y ∧ y ≤ s.cycle := by
  obtain ⟨⟨u0, hu0, hidle⟩, -⟩ := (s.findFree_eq_some _ _).1 hfree
  have hne : a ≠ s.pc := by
    rintro rfl
    exact hnone _ _ (State.issued hfree oj ok).slot (Slot.launch_instr _ _ _)
  obtain ⟨-, hst⟩ | ⟨rfl, -⟩ := State.issue_trace_cases hfree hst'
  · refine h.handled a st' (by omega) hst fun t u hu hua => ?_
    have ht : t ≠ ⟨i.op.pool, n⟩ := by
      rintro rfl
      obtain rfl := Option.some.inj (hu0.symm.trans hu)
      simp [hm.busy_of_instr hu hua] at hidle
    exact hnone t u (by rw [State.issue_slot? hfree, if_neg ht, hu]) hua
  · exact absurd rfl hne

/-- An issue keeps the law. -/
theorem State.WbLaw.issue (hi : s.env.instrAt s.pc = some i) :
    (s.issue i.op (Slot.ofInstr i oj ok s.pc) i.dest).WbLaw := by
  obtain ⟨henv, -, -, hcycle, -⟩ := s.issue_keeps i.op (Slot.ofInstr i oj ok s.pc) i.dest
  have hpc := (State.issue_pc_stall hfree (Slot.ofInstr i oj ok s.pc) i.dest).1
  constructor
  case past =>
    intro a st' x hst' hx
    rw [hcycle]
    obtain ⟨-, hst⟩ | ⟨-, st, -, hissue, -⟩ := State.issue_trace_cases hfree hst'
    · exact h.past a st' x hst hx
    · exact (Option.some.inj (hissue.symm.trans hx)).ge
  case notIssued =>
    intro a st' ha hst'
    rw [hpc] at ha
    obtain ⟨-, hst⟩ | ⟨rfl, -⟩ := State.issue_trace_cases hfree hst'
    · exact h.notIssued a st' (by omega) hst
    · omega
  case waiting => exact fun t u a st hu ha hnr hst => h.waiting_of_issue hm hfree hu ha hnr hst
  case due => exact fun a y st hdue hst => h.due_of_issue hm hfree hdue hst
  case gap =>
    intro a st' x y i' hst' hx hy hi'
    rw [henv] at hi' ⊢
    obtain ⟨-, hst⟩ | ⟨rfl, st, hst, hissue, hwb⟩ := State.issue_trace_cases hfree hst'
    · exact h.gap a st' x y i' hst hx hy hi'
    · obtain rfl := Option.some.inj (hi.symm.trans hi')
      obtain rfl := Option.some.inj (hissue.symm.trans hx)
      rw [hwb, h.notIssued _ st (le_refl _) hst] at hy
      split_ifs at hy
      exact (Option.some.inj hy).le
  case single => exact fun t t' u u' a hu hu' ha ha' => h.single_of_issue hm hfree hu hu' ha ha'
  case handled =>
    intro a st ha hst hnone
    rw [hpc] at ha
    rw [hcycle]
    exact h.handled_of_issue hm hfree ha hst hnone

end

/-- The law as a cycle ends: with no complete slot left, the tick makes the due cycle the stamp that the
trace law asks for. -/
theorem State.WbLaw.traceLaw {s : State} (h : s.WbLaw) (hm : s.Mid) (hnone : s.completeTags = [])
    (hissue : s.executePhase.IssueLaw) : s.executePhase.TraceLaw := by
  have hslots : ∀ t u', s.executePhase.slot? t = some u' →
      ∃ u, s.slot? t = some u ∧ u'.instr = u.instr ∧ u'.ready t.pool = u.ready t.pool := by
    intro t u' hu'
    rw [State.executePhase_slot?, Option.map_eq_some_iff] at hu'
    obtain ⟨u, hu, rfl⟩ := hu'
    exact ⟨u, hu, Slot.tick_instr _ _, Slot.ready_tick _ _ _⟩
  constructor
  case issued =>
    intro a ha
    obtain ⟨x, hx, hrange⟩ := hissue.issued a ha
    obtain ⟨st, hst, hx⟩ := State.issueStamps_eq_some_iff.1 hx
    exact ⟨st, x, hst, hx, hrange⟩
  case notIssued =>
    refine fun a st ha hst => ⟨?_, h.notIssued a st ha hst⟩
    cases hx : st.issue with
    | none => rfl
    | some x => exact absurd (State.issueStamps_eq_some_iff.2 ⟨st, hst, hx⟩) (hissue.notIssued a x ha)
  case inOrder =>
    exact fun a b sa sb x y hab hsa hsb hx hy => hissue.inOrder a b x y hab
      (State.issueStamps_eq_some_iff.2 ⟨sa, hsa, hx⟩) (State.issueStamps_eq_some_iff.2 ⟨sb, hsb, hy⟩)
  case waiting =>
    intro t u' a st hu' ha hnr hst
    obtain ⟨u, hu, hinstr, hready⟩ := hslots t u' hu'
    exact h.waiting t u a st hu (hinstr ▸ ha) (hready ▸ hnr) hst
  case counting =>
    exact fun t u' a n st hu' ha hr hcnt hst => h.due a _ st (hm.due_of_tick hnone hu' ha hr hcnt) hst
  case gap => exact h.gap
  case single =>
    intro t t' u' w' a hu' hw' ha ha'
    obtain ⟨u, hu, hinstr, -⟩ := hslots t u' hu'
    obtain ⟨w, hw, hinstr', -⟩ := hslots t' w' hw'
    exact h.single t t' u w a hu hw (hinstr ▸ ha) (hinstr' ▸ ha')
  case handled =>
    intro a st ha hst hfree
    refine h.handled a st ha hst fun t u hu hua => ?_
    exact hfree t (u.tick t.pool) (by rw [State.executePhase_slot?, hu, Option.map_some]) (by simpa using hua)

/-! ### The step -/

theorem State.TraceLaw.cycle {s s' : State} (h : s.TraceLaw) (hcase : StepCase s s') (hinv : s.Inv)
    (hexec : s.executes = true) : s'.TraceLaw := by
  have hissue := h.issueLaw.cycle hcase hinv hexec
  obtain ⟨u, hin, hu, hnone, rfl⟩ := hcase.cycle_induct (P := State.WbLaw) hinv.lawful hexec
    (h.wbLaw_counted hinv.lawful) (fun w t u hin hp hu hc => hp.handle hin.mid hu hc)
    (fun w b hp => ⟨hp.past, hp.notIssued, hp.waiting, hp.due, hp.gap, hp.single, hp.handled⟩)
    (fun w i n oj ok hin hp _ hi hfree => hp.issue hin.mid hfree hi)
  exact hu.traceLaw hin.mid hnone hissue

/-- Every step keeps the trace law; a step that executes no cycle writes nothing that the law reads. -/
theorem StepCase.traceLaw {s s' : State} (hcase : StepCase s s') (hinv : s.Inv) (h : s.TraceLaw) :
    s'.TraceLaw := by
  have hcycle : s.executes = true → s'.TraceLaw := h.cycle hcase hinv
  cases hcase with
  | drain hf ht ho _ _ => exact hcycle (s.executes_iff.2 ⟨hf, ht, ho⟩)
  | attempt hf ht ho _ _ _ _ _ _ => exact hcycle (s.executes_iff.2 ⟨hf, ht, ho⟩)
  | tooLong _ _ he | accepted _ _ _ he | badWord _ _ _ _ _ _ _ he | goodWord _ _ _ _ _ he
  | finish _ _ he | overflow _ _ _ he | done _ he | error _ he =>
    subst he
    exact ⟨h.issued, h.notIssued, h.inOrder, h.waiting, h.counting, h.gap, h.single, h.handled⟩

/-- Settles O40: the case of the step keeps the trace law. -/
theorem everyStepKeepsTheTraceLaw : Obligations.EveryStepKeepsTheTraceLaw := by
  intro s t hinv h hstep
  obtain ⟨-, -, hcase⟩ := step_cases hstep
  exact hcase.traceLaw hinv h

end Sys2Proof.Machine
end

section
/-! PROOFS. From reset: validation passes a valid program to RUN and reports the first refused word
(60_exceptions.md R111–R115), and every run of a valid program ends (70_reset_and_hazards.md R153). -/

namespace Sys2Proof.Machine

/-! ### Runs of several steps -/

theorem stepN_succ {s t : State} (h : step s = .next t) (k : Nat) : stepN (k + 1) s = stepN k t := by
  rw [stepN, h]

theorem stepN_add {j : Nat} {s u : State} (h : stepN j s = .next u) (k : Nat) :
    stepN (j + k) s = stepN k u := by
  induction j generalizing s with
  | zero =>
    obtain rfl := Host.Outcome.next.inj h
    rw [Nat.zero_add]
  | succ j ih =>
    rw [stepN] at h
    split at h
    · rename_i t hstep
      rw [Nat.succ_add, stepN_succ hstep, ih h]
    · cases h
    · cases h

theorem stepN_one (s : State) : stepN 1 s = step s := by
  rw [stepN]
  cases step s <;> rfl

/-! ### VALIDATE from reset (R111) -/

/-- The state of VALIDATE that has accepted the first `v` words: the reset state but for `vidx`. -/
def State.validatingAt (e : Env) (v : Nat) : State := { State.resetOf e with vidx := v }

/-- A step of VALIDATE there is one `validate_step()`. -/
theorem step_validatingAt {e : Env} (hcfg : e.cfg.wf = true) (v : Nat) :
    step (State.validatingAt e v) = validateStep (State.validatingAt e v) :=
  step_of_validate (s := State.validatingAt e v) hcfg
    (State.lawful_of_eq (State.resetOf_lawful e) rfl rfl rfl rfl rfl (State.doneOk_of_ne (by simp [State.validatingAt])))
    rfl

/-- As many steps as accepted words (R111). -/
theorem stepN_validating {e : Env} (hcfg : e.cfg.wf = true) (hlen : e.progLen ≤ e.cfg.progMax) {a : Nat}
    (hvalid : e.validTo a = true) : stepN a (State.resetOf e) = .next (State.validatingAt e a) := by
  induction a with
  | zero => rfl
  | succ a ih =>
    obtain ⟨hbefore, i, hi⟩ := (e.validTo_succ a).1 hvalid
    rw [stepN_add (ih hbefore) 1, stepN_one, step_validatingAt hcfg]
    exact validateStep_of_goodWord (s := State.validatingAt e a) hlen hi

/-- Settles O13: a step for each word, and one for the end test. -/
theorem validProgramReachesRun : Obligations.ValidProgramReachesRun := by
  intro e hcfg hvalid
  obtain ⟨hlen, hwords⟩ := e.valid_iff.1 hvalid
  rw [stepN_add (stepN_validating hcfg hlen hwords) 1, stepN_one, step_validatingAt hcfg]
  exact validateStep_of_end (s := State.validatingAt e e.progLen) hlen rfl

/-- Settles O14: a step for each word below `a`, and one that raises. -/
theorem firstBadWordIsReported : Obligations.FirstBadWordIsReported := by
  intro e a w d hcfg hlen hvalid hw hd
  rw [stepN_add (stepN_validating hcfg hlen hvalid) 1, stepN_one, step_validatingAt hcfg]
  exact validateStep_of_badWord (s := State.validatingAt e a) hlen hw hd

/-! ### Termination (R153) -/

/-- The end of a run with parameters `e`: DONE within the bound, or CycleOverflow, which the bound
excludes where the counter has room for it. -/
def State.Ended (e : Env) (t : State) : Prop :=
  ((t.fsm = .done ∧ t.cycle ≤ e.progLen * (e.cfg.lmax + 1) + 1) ∨
    (t.fsm = .error ∧ t.err = .cycleOverflow)) ∧
  (e.progLen * (e.cfg.lmax + 1) + e.cfg.lmax + 2 ≤ e.cfg.cycMax → t.fsm = .done)

/-- An overflow means that the bound does not fit the counter. -/
theorem State.DeadlineLaw.not_room_of_overflows {s : State} (h : s.DeadlineLaw) (hpc : s.pc ≤ s.env.progLen)
    (hrun : s.fsm = .run) (hterm : s.terminal = false) (hover : s.overflows = true) :
    ¬ s.env.progLen * (s.env.cfg.lmax + 1) + s.env.cfg.lmax + 2 ≤ s.env.cfg.cycMax := by
  have hcycle := h.running hrun hterm
  have hmul : s.pc * (s.env.cfg.lmax + 1) ≤ s.env.progLen * (s.env.cfg.lmax + 1) :=
    Nat.mul_le_mul_right _ hpc
  simp only [State.overflows, decide_eq_true_eq] at hover
  omega

/-- A RUN step that executes no cycle ends the run (R74, R76, R116). -/
theorem StepCase.of_run_not_executes {s s' : State} (hcase : StepCase s s') (hrun : s.fsm = .run)
    (hexec : s.executes = false) :
    s'.fsm = .done ∨
    (s'.fsm = .error ∧ s'.err = .cycleOverflow ∧ s.terminal = false ∧ s.overflows = true) := by
  cases hcase with
  | finish _ _ he => exact .inl (he ▸ rfl)
  | overflow _ ht ho he => exact .inr ⟨he ▸ rfl, he ▸ rfl, ht, ho⟩
  | drain hf ht ho | attempt hf ht ho => simp [s.executes_iff.2 ⟨hf, ht, ho⟩] at hexec
  | tooLong hf | accepted hf | badWord hf | goodWord hf | done hf | error hf => simp [hrun] at hf

/-- A good RUN state ends: each step ends the run or counts one more of the cycles left below the bound. -/
theorem exists_ended_of_run {e : Env} (m : Nat) {s : State} (henv : s.env = e) (hinv : s.Inv)
    (hdead : s.DeadlineLaw) (hrun : s.fsm = .run)
    (hleft : e.progLen * (e.cfg.lmax + 1) + 1 - s.cycle < m) : ∃ k t, stepN k s = .next t ∧ t.Ended e := by
  induction m generalizing s with
  | zero => omega
  | succ m ih =>
    obtain ⟨t, hstep, hinv'⟩ := everyStepGoesOnAndKeepsInv s hinv
    obtain ⟨-, hlawful, hcase⟩ := step_cases hstep
    have hdead' := hcase.deadlines hinv hdead
    have henv' := hcase.env.trans henv
    have hbound := hdead'.bound
    rw [henv'] at hbound
    by_cases hexec : s.executes = true
    · obtain ⟨hcycle, hfsm⟩ := hcase.cycle_fsm_of_executes hlawful hexec
      obtain ⟨k, t', hk, hended⟩ := ih henv' hinv' hdead' (hfsm.trans hrun) (by omega)
      exact ⟨k + 1, t', (stepN_succ hstep k).trans hk, hended⟩
    · refine ⟨1, t, (stepN_one s).trans hstep, ?_⟩
      obtain hdone | ⟨herror, herr, hterm, hover⟩ := hcase.of_run_not_executes hrun (by simpa using hexec)
      · exact ⟨.inl ⟨hdone, hbound⟩, fun _ => hdone⟩
      · exact ⟨.inr ⟨herror, herr⟩, fun hroom => absurd (henv ▸ hroom)
          (hdead.not_room_of_overflows (State.mid_of_lawful hlawful).pcLe hrun hterm hover)⟩

/-- Settles O44: VALIDATE passes to RUN, and the measure of the RUN states is what the bound leaves. -/
theorem everyValidRunEnds : Obligations.EveryValidRunEnds := by
  intro e hcfg hvalid
  have hreach := validProgramReachesRun e hcfg hvalid
  obtain ⟨hinv, hdead, henv⟩ := stepN_induct (P := fun s => s.Inv ∧ s.DeadlineLaw ∧ s.env = e)
    (fun s t ⟨hinv, hdead, henv⟩ hstep => by
      obtain ⟨-, -, hcase⟩ := step_cases hstep
      exact ⟨hcase.inv hinv, hcase.deadlines hinv hdead, hcase.env.trans henv⟩)
    _ ⟨State.resetOf_inv hcfg, State.resetOf_deadlineLaw e, rfl⟩ hreach
  obtain ⟨k, t, hk, hended⟩ := exists_ended_of_run _ henv hinv hdead rfl (Nat.lt_succ_self _)
  exact ⟨_, t, (stepN_add hreach k).trans hk, hended⟩

end Sys2Proof.Machine
end

section
/-! PROOFS. Control does not depend on values (70_reset_and_hazards.md R154): each operation of the model
commutes with `skeleton`, a broadcast whatever its value, and every test reads the same of a state and of
its skeleton. -/

namespace Sys2Proof.Machine

/-! ### Operands, registers and slots -/

@[simp] theorem Opnd.isRdy_skeleton (o : Opnd) : o.skeleton.isRdy = o.isRdy := by cases o <;> rfl

@[simp] theorem Opnd.skeleton_eq_empty (o : Opnd) : o.skeleton = .empty ↔ o = .empty := by
  cases o <;> simp [Opnd.skeleton]

@[simp] theorem Opnd.skeleton_eq_wait (o : Opnd) (t : Tag) : o.skeleton = .wait t ↔ o = .wait t := by
  cases o <;> simp [Opnd.skeleton]

@[simp] theorem Opnd.skeleton_skeleton (o : Opnd) : o.skeleton.skeleton = o.skeleton := by cases o <;> rfl

/-- The value of a broadcast does not show in the skeleton. -/
theorem Opnd.skeleton_resolve (t : Tag) (v w : Val) (o : Opnd) :
    (o.resolve t v).skeleton = (o.skeleton.resolve t w).skeleton := by
  by_cases h : o = .wait t
  · subst h
    simp [Opnd.skeleton]
  · rw [Opnd.resolve_of_ne h, Opnd.resolve_of_ne (by simpa using h), Opnd.skeleton_skeleton]

@[simp] theorem RegStatus.isValue_skeleton (x : RegStatus) : x.skeleton.isValue = x.isValue := by
  cases x <;> rfl

@[simp] theorem RegStatus.skeleton_skeleton (x : RegStatus) : x.skeleton.skeleton = x.skeleton := by
  cases x <;> rfl

theorem RegStatus.capture_skeleton (x : RegStatus) : x.skeleton.capture = x.capture.skeleton := by
  cases x <;> rfl

@[simp] theorem Slot.skeleton_busy (u : Slot) : u.skeleton.busy = u.busy := rfl
@[simp] theorem Slot.skeleton_op (u : Slot) : u.skeleton.op = u.op := rfl
@[simp] theorem Slot.skeleton_j (u : Slot) : u.skeleton.j = u.j.skeleton := rfl
@[simp] theorem Slot.skeleton_k (u : Slot) : u.skeleton.k = u.k.skeleton := rfl
@[simp] theorem Slot.skeleton_addr (u : Slot) : u.skeleton.addr = u.addr := rfl
@[simp] theorem Slot.skeleton_cnt (u : Slot) : u.skeleton.cnt = u.cnt := rfl
@[simp] theorem Slot.skeleton_fresh (u : Slot) : u.skeleton.fresh = u.fresh := rfl
@[simp] theorem Slot.skeleton_instr (u : Slot) : u.skeleton.instr = u.instr := rfl

@[simp] theorem Slot.skeleton_skeleton (u : Slot) : u.skeleton.skeleton = u.skeleton := by
  simp [Slot.skeleton]

@[simp] theorem Slot.ready_skeleton (p : Pool) (u : Slot) : u.skeleton.ready p = u.ready p :=
  Slot.ready_congr p rfl (by simp) (by simp)

@[simp] theorem Slot.complete_skeleton (p : Pool) (u : Slot) : u.skeleton.complete p = u.complete p := by
  simp [Slot.complete]

theorem Slot.skeleton_start (cfg : Config) (u : Slot) : (u.start cfg).skeleton = u.skeleton.start cfg := by
  cases hop : u.op <;> simp [Slot.start, Slot.skeleton, hop]

theorem Slot.skeleton_tick (p : Pool) (u : Slot) : (u.tick p).skeleton = u.skeleton.tick p := by
  unfold Slot.tick
  rw [Slot.ready_skeleton, Slot.skeleton_fresh, Slot.skeleton_cnt]
  split
  · split
    · rfl
    · split <;> rfl
  · rfl

@[simp] theorem Slot.skeleton_free : Slot.free.skeleton = Slot.free := rfl

@[simp] theorem Slot.skeleton_eq_free (u : Slot) : u.skeleton = Slot.free ↔ u = Slot.free := by
  obtain ⟨busy, op, j, k, addr, cnt, fresh, instr⟩ := u
  simp [Slot.skeleton, Slot.free]

theorem Slot.skeleton_resolve (t : Tag) (v w : Val) (u : Slot) :
    (u.resolve t v).skeleton = (u.skeleton.resolve t w).skeleton := by
  simp [Slot.resolve, Slot.skeleton, Opnd.skeleton_resolve t v w]

theorem Slot.wakes_skeleton (p : Pool) (t : Tag) (v w : Val) (u : Slot) :
    u.skeleton.wakes p t w = u.wakes p t v := by
  have hready : (u.skeleton.resolve t w).ready p = (u.resolve t v).ready p := by
    rw [← Slot.ready_skeleton, ← Slot.skeleton_resolve t v w, Slot.ready_skeleton]
  rw [Bool.eq_iff_iff, Slot.wakes_iff, Slot.wakes_iff, hready]
  simp

theorem Slot.skeleton_receive (cfg : Config) (p : Pool) (t : Tag) (v w : Val) (u : Slot) :
    (u.receive cfg p t v).skeleton = (u.skeleton.receive cfg p t w).skeleton := by
  unfold Slot.receive
  rw [Slot.wakes_skeleton p t v w]
  split
  · rw [Slot.skeleton_start, Slot.skeleton_start, Slot.skeleton_resolve t v w]
  · exact Slot.skeleton_resolve t v w u

/-- Whether a slot broadcasts does not depend on its operands' values (R81). -/
theorem Slot.result_skeleton (p : Pool) (u : Slot) :
    (u.skeleton.result p).isSome = (u.result p).isSome := by
  obtain ⟨busy, op, j, k, addr, cnt, fresh, instr⟩ := u
  cases p <;> rcases op with _ | (o | _ | _) <;> cases j <;> cases k <;> cases addr <;> rfl

/-! ### The state -/

@[simp] theorem State.skeleton_env (s : State) : s.skeleton.env = s.env := rfl
@[simp] theorem State.skeleton_fsm (s : State) : s.skeleton.fsm = s.fsm := rfl
@[simp] theorem State.skeleton_vidx (s : State) : s.skeleton.vidx = s.vidx := rfl
@[simp] theorem State.skeleton_pc (s : State) : s.skeleton.pc = s.pc := rfl
@[simp] theorem State.skeleton_cycle (s : State) : s.skeleton.cycle = s.cycle := rfl
@[simp] theorem State.skeleton_trace (s : State) : s.skeleton.trace = s.trace := rfl

theorem State.skeleton_slot? (s : State) (t : Tag) : s.skeleton.slot? t = (s.slot? t).map Slot.skeleton := by
  simp [State.slot?, State.skeleton]

theorem State.skeleton_reg? (s : State) (r : Nat) : s.skeleton.reg? r = (s.reg? r).map RegStatus.skeleton := by
  simp [State.reg?, State.skeleton]

/-- States of one skeleton, by their registers, slots and trace entries. -/
theorem State.skeleton_eq_of_views {s u : State}
    (hrest : { s with rf := u.rf, pools := u.pools, trace := u.trace } = u)
    (hreg : ∀ r, (s.reg? r).map RegStatus.skeleton = (u.reg? r).map RegStatus.skeleton)
    (hslot : ∀ t, (s.slot? t).map Slot.skeleton = (u.slot? t).map Slot.skeleton)
    (htrace : ∀ a : Nat, s.trace[a]? = u.trace[a]?) : s.skeleton = u.skeleton := by
  refine State.eq_of_views ?_ (fun r => ?_) (fun t => ?_) htrace
  · rw [← hrest]; rfl
  · rw [State.skeleton_reg?, State.skeleton_reg?, hreg]
  · rw [State.skeleton_slot?, State.skeleton_slot?, hslot]

@[simp] theorem State.skeleton_skeleton (s : State) : s.skeleton.skeleton = s.skeleton := by
  refine State.skeleton_eq_of_views rfl (fun r => ?_) (fun t => ?_) fun _ => rfl
  · rw [State.skeleton_reg?, Option.map_map]
    congr 1
    exact funext RegStatus.skeleton_skeleton
  · rw [State.skeleton_slot?, Option.map_map]
    congr 1
    exact funext Slot.skeleton_skeleton

/-! ### Writes -/

theorem State.skeleton_setSlot (s : State) (t : Tag) (u : Slot) :
    (s.setSlot t u).skeleton = s.skeleton.setSlot t u.skeleton := by
  refine State.eq_of_views rfl (fun r => rfl) (fun q => ?_) fun _ => rfl
  simp only [State.skeleton_slot?, State.setSlot_slot?]
  split <;> simp [Function.comp_def]

theorem State.skeleton_release (s : State) (t : Tag) : (s.release t).skeleton = s.skeleton.release t :=
  s.skeleton_setSlot t Slot.free

theorem State.skeleton_rename (s : State) (r : RegIdx) (t : Tag) :
    (s.rename r t).skeleton = s.skeleton.rename r t := by
  simp [State.rename, State.skeleton, RegStatus.skeleton, List.map_set]

theorem State.skeleton_stampIssue (s : State) : s.stampIssue.skeleton = s.skeleton.stampIssue := rfl

theorem State.skeleton_loadCountdown (s : State) (t : Tag) (u : Slot) :
    (s.loadCountdown t u).skeleton = s.skeleton.loadCountdown t u.skeleton := by
  refine State.eq_of_views rfl (fun r => rfl) (fun q => ?_) fun _ => rfl
  simp only [State.skeleton_slot?, State.loadCountdown_slot?, State.skeleton_env, ← Slot.skeleton_start]
  split <;> simp [Function.comp_def]

theorem State.skeleton_executePhase (s : State) : s.executePhase.skeleton = s.skeleton.executePhase := by
  refine State.eq_of_views rfl (fun r => rfl) (fun q => ?_) fun _ => rfl
  simp only [State.skeleton_slot?, State.executePhase_slot?, Option.map_map]
  congr 1
  exact funext fun u => u.skeleton_tick q.pool

/-! ### Writeback -/

theorem Pools.tagged_mapSlots (q : Pools) (f : Pool → Slot → Slot) :
    (q.mapSlots f).tagged = q.tagged.map fun x => (x.1, f x.1.pool x.2) := by
  simp [Pools.tagged, Pools.taggedOf, List.zipIdx_map, Function.comp_def]

theorem State.skeleton_tagged (s : State) :
    s.skeleton.pools.tagged = s.pools.tagged.map fun x => (x.1, x.2.skeleton) :=
  s.pools.tagged_mapSlots _

theorem State.completeTags_skeleton (s : State) : s.skeleton.completeTags = s.completeTags := by
  simp [State.completeTags, State.skeleton_tagged, List.filter_map, Function.comp_def]

theorem State.woken_skeleton (s : State) (t : Tag) (v w : Val) :
    s.skeleton.woken t w = (s.woken t v).map Slot.skeleton := by
  simp [State.woken, State.skeleton_tagged, List.filter_map, Function.comp_def, Slot.wakes_skeleton _ t v w]

/-- Stamps depend on the operation and the instruction of a slot alone (R99). -/
theorem stampWoken_skeleton (cfg : Config) (c : Nat) (woken : List Slot) (trace : List Stamp) :
    stampWoken cfg c (woken.map Slot.skeleton) trace = stampWoken cfg c woken trace := by
  refine List.ext_getElem? fun a => ?_
  rw [stampWoken_getElem?, stampWoken_getElem?, List.find?_map]
  congr 1
  funext st
  have hcomp : ((fun u : Slot => u.instr == some a) ∘ Slot.skeleton) = fun u => u.instr == some a := rfl
  rw [hcomp]
  cases woken.find? fun u => u.instr == some a <;> rfl

theorem State.skeleton_broadcast (s : State) (t : Tag) (v w : Val) :
    (s.broadcast t v).skeleton = (s.skeleton.broadcast t w).skeleton := by
  refine State.skeleton_eq_of_views rfl (fun r => ?_) (fun q => ?_) fun a => ?_
  · simp only [State.broadcast_reg?, State.skeleton_reg?, Option.map_map]
    congr 1
    funext x
    cases x with
    | value v' => rfl
    | pending t' => by_cases h : t' = t <;> simp [RegStatus.skeleton, h]
  · simp only [State.broadcast_slot?, State.skeleton_slot?, Option.map_map]
    congr 1
    exact funext fun u => u.skeleton_receive s.env.cfg q.pool t v w
  · simp only [State.broadcast_trace, State.skeleton_env, State.skeleton_cycle, State.skeleton_trace,
      State.woken_skeleton s t v w, stampWoken_skeleton]

theorem State.skeleton_handle (s : State) (t : Tag) : (s.handle t).skeleton = (s.skeleton.handle t).skeleton := by
  have hresult : ((s.skeleton.slot? t).bind fun u => u.result t.pool).isSome =
      ((s.slot? t).bind fun u => u.result t.pool).isSome := by
    rw [State.skeleton_slot?]
    cases s.slot? t with
    | none => rfl
    | some u => exact u.result_skeleton t.pool
  unfold State.handle
  cases hv : (s.slot? t).bind fun u => u.result t.pool with
  | none =>
    rw [hv] at hresult
    have hnone : ((s.skeleton.slot? t).bind fun u => u.result t.pool) = none := by simpa using hresult
    rw [hnone, ← State.skeleton_release, State.skeleton_skeleton]
  | some v =>
    rw [hv] at hresult
    obtain ⟨w, hw⟩ := Option.isSome_iff_exists.1 hresult
    rw [hw]
    dsimp only
    rw [State.skeleton_release, State.skeleton_release, State.skeleton_broadcast s t v w]

theorem skeleton_foldl_handle (ts : List Tag) (s : State) :
    (ts.foldl State.handle s).skeleton = (ts.foldl State.handle s.skeleton).skeleton := by
  induction ts generalizing s with
  | nil => rw [List.foldl_nil, List.foldl_nil, State.skeleton_skeleton]
  | cons t ts ih => rw [List.foldl_cons, List.foldl_cons, ih, ih (s.skeleton.handle t), State.skeleton_handle]

theorem State.skeleton_afterWriteback (s : State) :
    s.afterWriteback.skeleton = s.skeleton.afterWriteback.skeleton := by
  have hcounted : s.skeleton.afterWriteback =
      ({ s with cycle := s.cycle + 1 } : State).skeleton.writebackPhase := rfl
  rw [hcounted, State.writebackPhase, State.completeTags_skeleton, ← skeleton_foldl_handle]
  rfl

/-! ### Issue -/

theorem State.findFree_skeleton (s : State) (p : Pool) : s.skeleton.findFree p = s.findFree p := by
  simp [State.findFree, State.skeleton, List.findIdx?_map, Function.comp_def]

theorem State.capture_skeleton (s : State) (r : RegIdx) :
    s.skeleton.capture r = (s.capture r).map Opnd.skeleton := by
  simp [State.capture, State.skeleton_reg?, Function.comp_def, RegStatus.capture_skeleton]

theorem State.skeleton_issue (s : State) (o : Op) (u : Slot) (d : Option RegIdx) :
    (s.issue o u d).skeleton = s.skeleton.issue o u.skeleton d := by
  unfold State.issue
  rw [State.findFree_skeleton]
  cases s.findFree o.pool with
  | none => rfl
  | some i =>
    dsimp only
    rw [Slot.ready_skeleton]
    refine congrArg (fun w : State => { w with pc := w.pc + 1 }) (a₁ := State.skeleton _) ?_
    cases d <;> cases u.ready o.pool <;>
      simp only [Bool.false_eq_true, if_false, if_true, State.skeleton_loadCountdown,
        State.skeleton_stampIssue, State.skeleton_rename, State.skeleton_setSlot] <;> rfl

theorem issueArith_skeleton (o : ArithOp) (rd rs1 rs2 : RegIdx) (s : State) :
    issueArith o rd rs1 rs2 s.skeleton = skeletonOf (issueArith o rd rs1 rs2 s) := by
  unfold issueArith
  simp only [State.skeleton_env, State.skeleton_pc, State.capture_skeleton]
  by_cases hwf : (o.instr rd rs1 rs2).wf s.env.cfg = true
  · simp only [if_pos hwf]
    cases s.capture rs1 with
    | none => rfl
    | some oj =>
      cases s.capture rs2 with
      | none => rfl
      | some ok =>
        exact congrArg Host.Outcome.next (s.skeleton_issue (.arith o) (Slot.ofArith o oj ok s.pc) (some rd)).symm
  · simp only [if_neg hwf]
    rfl

theorem issueLoad_of_wf {rt : RegIdx} {off : Offset} {base : Base} {s : State}
    (h : (Instr.load rt off base).wf s.env.cfg = true) :
    issueLoad rt off base s = .next (s.issue .load (Slot.ofLoad off base s.pc) (some rt)) := if_pos h

theorem issueLoad_skeleton (rt : RegIdx) (off : Offset) (base : Base) (s : State) :
    issueLoad rt off base s.skeleton = skeletonOf (issueLoad rt off base s) := by
  cases hwf : (Instr.load rt off base).wf s.env.cfg with
  | true =>
    rw [issueLoad_of_wf (s := s.skeleton) hwf, issueLoad_of_wf hwf]
    exact congrArg Host.Outcome.next (s.skeleton_issue .load (Slot.ofLoad off base s.pc) (some rt)).symm
  | false =>
    have hfault : ∀ w : State, w.env = s.env → issueLoad rt off base w = .fault .invalidOperand :=
      fun w hw => operandOutOfRangeFaults (.load rt off base) w (hw ▸ hwf)
    rw [hfault s.skeleton rfl, hfault s rfl]
    rfl

theorem issueStore_skeleton (rt : RegIdx) (off : Offset) (base : Base) (s : State) :
    issueStore rt off base s.skeleton = skeletonOf (issueStore rt off base s) := by
  unfold issueStore
  simp only [State.skeleton_env, State.skeleton_pc, State.capture_skeleton]
  by_cases hwf : (Instr.store rt off base).wf s.env.cfg = true
  · simp only [if_pos hwf]
    cases s.capture rt with
    | none => rfl
    | some ov =>
      exact congrArg Host.Outcome.next (s.skeleton_issue .store (Slot.ofStore ov off base s.pc) none).symm
  · simp only [if_neg hwf]
    rfl

/-- An attempt commutes with `skeleton`: a captured operand waits or not whatever the value (R88, R94). -/
theorem exec_skeleton (i : Instr) (s : State) : exec i s.skeleton = skeletonOf (exec i s) := by
  cases i with
  | add rd rs1 rs2 => exact issueArith_skeleton .add rd rs1 rs2 s
  | sub rd rs1 rs2 => exact issueArith_skeleton .sub rd rs1 rs2 s
  | mul rd rs1 rs2 => exact issueArith_skeleton .mul rd rs1 rs2 s
  | div rd rs1 rs2 => exact issueArith_skeleton .div rd rs1 rs2 s
  | load rt off base => exact issueLoad_skeleton rt off base s
  | store rt off base => exact issueStore_skeleton rt off base s

theorem issuePhase_skeleton (s : State) : issuePhase s.skeleton = skeletonOf (issuePhase s) := by
  by_cases hpc : s.pc = s.env.progLen
  · rw [issuePhase_of_drain (s := s.skeleton) hpc, issuePhase_of_drain hpc]
    rfl
  cases hw : s.env.word? s.pc with
  | none =>
    rw [issuePhase_of_noWord (s := s.skeleton) hpc hw, issuePhase_of_noWord hpc hw]
    rfl
  | some w =>
    cases hd : decode s.env.cfg w with
    | err d =>
      rw [issuePhase_of_badWord (s := s.skeleton) hw hd, issuePhase_of_badWord hw hd]
      rfl
    | ok i =>
      rw [issuePhase_of_decode (s := s.skeleton) hw hd, issuePhase_of_decode hw hd]
      exact exec_skeleton i s

/-! ### The laws (R149–R151) -/

theorem State.operandOk_skeleton (s : State) (served : Option Nat) (o : Opnd) :
    s.skeleton.operandOk served o.skeleton = s.operandOk served o := by
  cases o with
  | empty => rfl
  | rdy v => rfl
  | wait t =>
    simp only [Opnd.skeleton, State.operandOk, State.skeleton_slot?]
    cases s.slot? t <;> cases served <;> rfl

theorem State.regOk_skeleton (s : State) (r : Nat) (x : RegStatus) :
    s.skeleton.regOk r x.skeleton = s.regOk r x := by
  cases x with
  | value v => rfl
  | pending t =>
    simp only [RegStatus.skeleton, State.regOk, State.skeleton_slot?]
    cases s.slot? t <;> rfl

theorem Slot.kindOk_skeleton (p : Pool) (u : Slot) : u.skeleton.kindOk p = u.kindOk p := by
  obtain ⟨busy, op, j, k, addr, cnt, fresh, instr⟩ := u
  cases p <;> cases j <;> cases k <;> rfl

theorem Slot.countOk_skeleton (cfg : Config) (p : Pool) (u : Slot) :
    u.skeleton.countOk cfg p = u.countOk cfg p := by
  simp [Slot.countOk]

theorem State.slotOk_skeleton (s : State) (p : Pool) (u : Slot) :
    s.skeleton.slotOk p u.skeleton = s.slotOk p u := by
  have hserves : s.skeleton.servesOk p u.skeleton = s.servesOk p u := rfl
  have hfree : (u.skeleton == Slot.free) = (u == Slot.free) := by
    rw [Bool.eq_iff_iff, beq_iff_eq, beq_iff_eq, Slot.skeleton_eq_free]
  simp only [State.slotOk, Slot.skeleton_busy, Slot.kindOk_skeleton, hserves, State.skeleton_env,
    Slot.countOk_skeleton, Slot.skeleton_instr, Slot.skeleton_j, Slot.skeleton_k, State.operandOk_skeleton,
    hfree]

theorem State.shapeOk_skeleton (s : State) : s.skeleton.shapeOk = s.shapeOk := by
  simp [State.shapeOk, State.skeleton, Pools.mapSlots]

theorem State.doneOk_skeleton (s : State) : s.skeleton.doneOk = s.doneOk := by
  simp [State.doneOk, State.skeleton, Function.comp_def]

theorem State.lawful_skeleton (s : State) : s.skeleton.lawful = s.lawful := by
  have hrf : s.skeleton.rf.zipIdx = s.rf.zipIdx.map fun x => (x.1.skeleton, x.2) := List.zipIdx_map ..
  simp only [State.lawful, State.shapeOk_skeleton, State.skeleton_tagged, hrf, List.all_map,
    Function.comp_def, State.slotOk_skeleton, State.regOk_skeleton, State.doneOk_skeleton,
    State.skeleton_pc, State.skeleton_env]
  rfl

theorem State.terminal_skeleton (s : State) : s.skeleton.terminal = s.terminal := by
  simp [State.terminal, State.skeleton, Pools.allFree, Pools.mapSlots, Function.comp_def]

/-! ### The step -/

theorem skeletonOf_skeletonOf (x : Result) : skeletonOf (skeletonOf x) = skeletonOf x := by
  cases x with
  | next s => exact congrArg Host.Outcome.next s.skeleton_skeleton
  | fault r => rfl
  | refused r => rfl

theorem validateStep_skeleton (s : State) : validateStep s.skeleton = skeletonOf (validateStep s) := by
  obtain hlong | hlen := Nat.lt_or_ge s.env.cfg.progMax s.env.progLen
  · rw [validateStep_of_tooLong (s := s.skeleton) hlong, validateStep_of_tooLong hlong]
    rfl
  by_cases hend : s.vidx = s.env.progLen
  · rw [validateStep_of_end (s := s.skeleton) hlen hend, validateStep_of_end hlen hend]
    rfl
  cases hw : s.env.word? s.vidx with
  | none =>
    rw [validateStep_of_noWord (s := s.skeleton) hlen hend hw, validateStep_of_noWord hlen hend hw]
    rfl
  | some w =>
    cases hd : decode s.env.cfg w with
    | err d =>
      rw [validateStep_of_badWord (s := s.skeleton) hlen hw hd, validateStep_of_badWord hlen hw hd]
      rfl
    | ok i =>
      have hi := Env.instrAt_eq_some.2 ⟨w, hw, hd⟩
      rw [validateStep_of_goodWord (s := s.skeleton) hlen hi, validateStep_of_goodWord hlen hi]
      rfl

/-- The Execute phase on what the Issue phase answers (R74). -/
def executeOf : Result → Result
  | .next u => .next u.executePhase
  | .fault r => .fault r
  | .refused r => .refused r

theorem cycleStep_eq (s : State) : cycleStep s = executeOf (issuePhase s.afterWriteback) := by
  unfold cycleStep
  cases issuePhase s.afterWriteback <;> rfl

theorem skeletonOf_executeOf (x : Result) : skeletonOf (executeOf x) = executeOf (skeletonOf x) := by
  cases x with
  | next u => exact congrArg Host.Outcome.next u.skeleton_executePhase
  | fault r => rfl
  | refused r => rfl

theorem cycleStep_skeleton (s : State) : skeletonOf (cycleStep s.skeleton) = skeletonOf (cycleStep s) := by
  have hissue : skeletonOf (issuePhase s.skeleton.afterWriteback) = skeletonOf (issuePhase s.afterWriteback) :=
    calc skeletonOf (issuePhase s.skeleton.afterWriteback)
      _ = issuePhase s.skeleton.afterWriteback.skeleton := (issuePhase_skeleton _).symm
      _ = issuePhase s.afterWriteback.skeleton := by rw [← State.skeleton_afterWriteback]
      _ = skeletonOf (issuePhase s.afterWriteback) := issuePhase_skeleton _
  rw [cycleStep_eq, cycleStep_eq, skeletonOf_executeOf, skeletonOf_executeOf, hissue]

theorem runStep_skeleton (s : State) : skeletonOf (runStep s.skeleton) = skeletonOf (runStep s) := by
  have hover : s.skeleton.overflows = s.overflows := rfl
  unfold runStep
  rw [State.terminal_skeleton, hover]
  split_ifs
  · exact skeletonOf_skeletonOf (.next { s with fsm := .done })
  · exact skeletonOf_skeletonOf (.next (s.raise .cycleOverflow s.pc))
  · exact cycleStep_skeleton s

/-- A step of a state and of its skeleton answer the same, values apart. -/
theorem step_skeleton (s : State) : skeletonOf (step s.skeleton) = skeletonOf (step s) := by
  unfold step sequencerStep fsmStep
  rw [State.lawful_skeleton, State.skeleton_env, State.skeleton_fsm]
  split_ifs
  · cases s.fsm with
    | validate => rw [validateStep_skeleton, skeletonOf_skeletonOf]
    | run => exact runStep_skeleton s
    | done => exact skeletonOf_skeletonOf (.next s)
    | error => exact skeletonOf_skeletonOf (.next s)
  · rfl
  · rfl

/-- Settles O45: the outcome without values is that of the common skeleton. -/
theorem controlIgnoresValues : Obligations.ControlIgnoresValues := by
  intro s s' h
  calc skeletonOf (step s)
    _ = skeletonOf (step s.skeleton) := (step_skeleton s).symm
    _ = skeletonOf (step s'.skeleton) := by rw [h]
    _ = skeletonOf (step s') := step_skeleton s'

end Sys2Proof.Machine
end
